-- ==== Sys2Proof/Word.lean ====
section
/-! DEFINITION. The word types of the engine (00_scope.md R10): u8, u32, u64, all unsigned. -/

namespace Sys2Proof

/-- u8 (R10). -/
abbrev Byte := BitVec 8

/-- u32 (R10): register contents, matrix words, the CMD word. -/
abbrev Word := BitVec 32

/-- u64 (R10): key identifiers and the block counter. -/
abbrev DWord := BitVec 64

end Sys2Proof
end

