-- ==== Sys2Proof/Config.lean ====
section
/-! DEFINITION. The parameters of 00_scope.md R8 and the free values of the model. -/

namespace Sys2Proof

/-- One entry of the key table (10_state.md R44): a 64-bit identifier and a 16-byte key. -/
structure KeyEntry where
  keyId : DWord
  key : Vector Byte 16
  deriving DecidableEq, Repr, Inhabited

/-- The parameters the model takes (R8). `N_ENGINES` is the number of instances State lists. The machine carries
this record beside its state and no step changes it (log 6). -/
structure Config where
  /-- ADDR_W (R8, R60). -/
  addrW : Nat
  /-- KEY_TABLE (R8, R44), in table order, the sentinel included. -/
  keyTable : List KeyEntry
  /-- (base, length) of the memory ranges whose reads have side effects (R66, R280(c)), log 14. -/
  devices : List (Nat × Nat)
  deriving DecidableEq, Repr

/-- The live entries of a key table: those before the first sentinel (R44, R122). -/
def liveEntries : List KeyEntry → List KeyEntry
  | [] => []
  | e :: es => if e.keyId = 0 then [] else e :: liveEntries es

/-- R8's constraint on KEY_TABLE: a sentinel ends the live entries and no two of these share a keyId. -/
abbrev keyTableOk (t : List KeyEntry) : Prop :=
  (liveEntries t).length < t.length ∧ (liveEntries t).Pairwise fun a b => a.keyId ≠ b.keyId

/-- R8's constraints on the parameters. -/
abbrev Config.Ok (c : Config) : Prop :=
  1 ≤ c.addrW ∧ c.addrW ≤ 32 ∧ keyTableOk c.keyTable

/-- Keeps of a list of entries those that may stand live in a key table (R8): no keyId 0, no keyId twice. -/
def liveOnly : List KeyEntry → List KeyEntry
  | [] => []
  | e :: es => if e.keyId = 0 then liveOnly es else e :: (liveOnly es).filter fun o => o.keyId != e.keyId

/-- The keyId that R9 says is present in the table. -/
def knownKeyId : DWord := 0xFB680CB6A8BF81F3

/-- FREE VALUE (log 7): the key of `knownKeyId`, which no source gives (R9). -/
opaque Config.knownKey : Vector Byte 16

/-- FREE VALUE (log 7): whatever other entries the real table holds (R9, N1, N17). -/
opaque Config.otherEntries : List KeyEntry

/-- FREE VALUE (log 7): the key bytes of the real table's sentinel entry, which the spec says are never read and of which
it gives none (R44, R122). -/
opaque Config.sentinelKey : Vector Byte 16

/-- FREE VALUE (log 9): the n-th draw between two values the spec allows (R71, R271). -/
opaque Config.freeBit : Nat → Bool

/-- KEY_TABLE of the engine (R8, R9): R9's known keyId, the unknown rest, the sentinel with its unknown key
bytes (log 7). -/
def realKeyTable : List KeyEntry :=
  liveOnly (⟨knownKeyId, Config.knownKey⟩ :: Config.otherEntries) ++ [⟨0, Config.sentinelKey⟩]

/-- The parameters at their defaults (R8): ADDR_W = 32, the OPEN key table, no device memory (log 6, log 14). -/
def Config.standard : Config :=
  { addrW := 32, keyTable := realKeyTable, devices := [] }

end Sys2Proof
end

