-- ==== Sys2Proof/Syntax.lean ====
section
/-! DEFINITION. The instructions: one constructor per row of spec/opcode_table.json, and their operands. -/

namespace Sys2Proof

/-- The three one-byte fields of a frame header whose value is decoded (30_encoding.md R100): keyIdSize, ivSize,
cipherMarker. -/
inductive FrameField where
  | kis | ivs | marker
  deriving DecidableEq, Repr

/-- The key operand of KEY_SETUP (43_salsa20.md R170): the register KEY with klen = 16, the form DECRYPT uses
(R215), or a key of klen bytes given outright, the form that reaches klen = 32 (R183, log 18). -/
inductive KeyArg where
  | keyReg
  | bytes (k : List Byte)
  deriving DecidableEq, Repr

/-- The 25 rows of spec/opcode_table.json, in its order. -/
inductive Instr where
  | decrypt
  | directCopy
  | illegalCmd (op : Word)
  | regWrite (size off : Nat) (v : Word)
  | regRead (size off : Nat)
  | frameKis0
  | frameKis8
  | frameKisOther (b : Byte)
  | frameIvs4
  | frameIvs8
  | frameIvsOther (b : Byte)
  | frameMarkerS
  | frameMarkerA
  | frameMarkerOther (b : Byte)
  | lookup
  | parse
  | deriveIv
  | keySetup (k : KeyArg)
  | quarterRound (a b c d : Fin 16)
  | columnRound
  | rowRound
  | doubleRound
  | block
  | ctrInc
  | xorStream
  deriving DecidableEq, Repr

/-- The formats of the opcode table. -/
inductive Format where
  | cmd | reg | frameByte | internal
  deriving DecidableEq, Repr

/-- The format of an instruction's row in the opcode table. -/
def Instr.format : Instr → Format
  | .decrypt => .cmd
  | .directCopy => .cmd
  | .illegalCmd _ => .cmd
  | .regWrite _ _ _ => .reg
  | .regRead _ _ => .reg
  | .frameKis0 => .frameByte
  | .frameKis8 => .frameByte
  | .frameKisOther _ => .frameByte
  | .frameIvs4 => .frameByte
  | .frameIvs8 => .frameByte
  | .frameIvsOther _ => .frameByte
  | .frameMarkerS => .frameByte
  | .frameMarkerA => .frameByte
  | .frameMarkerOther _ => .frameByte
  | .lookup => .internal
  | .parse => .internal
  | .deriveIv => .internal
  | .keySetup _ => .internal
  | .quarterRound _ _ _ _ => .internal
  | .columnRound => .internal
  | .rowRound => .internal
  | .doubleRound => .internal
  | .block => .internal
  | .ctrInc => .internal
  | .xorStream => .internal

end Sys2Proof
end

