-- ==== Sys2Proof/WellFormed.lean ====
section
/-! DEFINITION. The checks an instruction's operands meet (the spec's operand ranges). -/

namespace Sys2Proof

/-- An offset of the register window: a multiple of 4 in 0x00..0x1C (10_state.md R22). -/
abbrev offsetOk (off : Nat) : Prop := off % 4 = 0 ∧ off ≤ 0x1C

/-- The operand checks, one constructor at a time. The operand of a row "every other value" is none of the values
the rows before it name; a register access is 32 bits (4 bytes) wide at a window offset (R22); QUARTERROUND's four
positions are distinct (R173); a key has 16 or 32 bytes (R170). -/
def Instr.wellFormed : Instr → Bool
  | .illegalCmd op => decide (op ≠ 1 ∧ op ≠ 2)
  | .regWrite size off _ => decide (size = 4 ∧ offsetOk off)
  | .regRead size off => decide (size = 4 ∧ offsetOk off)
  | .frameKisOther b => decide (b ≠ 0x00 ∧ b ≠ 0x08)
  | .frameIvsOther b => decide (b ≠ 0x04 ∧ b ≠ 0x08)
  | .frameMarkerOther b => decide (b ≠ 0x53 ∧ b ≠ 0x41)
  | .keySetup (.bytes k) => decide (k.length = 16 ∨ k.length = 32)
  | .quarterRound a b c d => decide ([a, b, c, d].Nodup)
  | .keySetup .keyReg => true
  | .decrypt => true
  | .directCopy => true
  | .frameKis0 => true
  | .frameKis8 => true
  | .frameIvs4 => true
  | .frameIvs8 => true
  | .frameMarkerS => true
  | .frameMarkerA => true
  | .lookup => true
  | .parse => true
  | .deriveIv => true
  | .columnRound => true
  | .rowRound => true
  | .doubleRound => true
  | .block => true
  | .ctrInc => true
  | .xorStream => true

end Sys2Proof
end

