-- ==== Sys2Proof/Decode.lean ====
section
/-! DEFINITION. The decoders (the CMD word, the header bytes, the bus access), total, rejecting by name; then the
encoder. Byte-order helpers (00_scope.md R12) stand here, since the decoder uses them too. -/

namespace Sys2Proof

/-- `le32` (R12): a u32 from four bytes, least-significant byte first. -/
def le32 (b0 b1 b2 b3 : Byte) : Word :=
  b0.zeroExtend 32 ||| (b1.zeroExtend 32 <<< 8) ||| (b2.zeroExtend 32 <<< 16) ||| (b3.zeroExtend 32 <<< 24)

/-- `byte_j` (R12) of a u32. -/
def byteOf (j : Nat) (w : Word) : Byte := (w >>> (8 * j)).setWidth 8

/-- The four bytes of a u32, least-significant first (R67). -/
def leBytes (w : Word) : List Byte := [byteOf 0 w, byteOf 1 w, byteOf 2 w, byteOf 3 w]

/-- One host access of the register window (30_encoding.md R94): its width in bytes, its offset, and the value of a
write. -/
structure BusAccess where
  write : Bool
  size : Nat
  off : Nat
  value : Word
  deriving DecidableEq, Repr

/-- Where the bits of an encoded instruction stand: a word written to CMD (R90), or one byte of the frame header in
the field it occupies (R100). -/
inductive Slot where
  | cmd
  | header (f : FrameField)
  deriving DecidableEq, Repr

/-- Why a decoder rejects. -/
inductive DecodeError where
  /-- A register access that is not 32 bits wide (R22). -/
  | badSize (size : Nat)
  /-- A register access at no offset of the window (R22). -/
  | badOffset (off : Nat)
  /-- Fewer bytes than the slot's encoding has: 4 for CMD (R93), 1 for a header field. -/
  | tooShort (have_ need : Nat)
  deriving DecidableEq, Repr

/-- The CMD word (R90 to R92): all 32 bits are the opcode. -/
def decodeCmd (v : Word) : Instr :=
  if v = 0x00000001 then .decrypt
  else if v = 0x00000002 then .directCopy
  else .illegalCmd v

/-- One header byte, read by the field it stands in (R101, R103, R105). -/
def decodeHeaderByte (f : FrameField) (b : Byte) : Instr :=
  match f with
  | .kis => if b = 0x00 then .frameKis0 else if b = 0x08 then .frameKis8 else .frameKisOther b
  | .ivs => if b = 0x04 then .frameIvs4 else if b = 0x08 then .frameIvs8 else .frameIvsOther b
  | .marker => if b = 0x53 then .frameMarkerS else if b = 0x41 then .frameMarkerA else .frameMarkerOther b

/-- A register access (R94), refused unless it is 32 bits wide at a window offset (R22). -/
def decodeAccess (a : BusAccess) : Except DecodeError Instr :=
  if a.size ≠ 4 then .error (.badSize a.size)
  else if ¬ offsetOk a.off then .error (.badOffset a.off)
  else if a.write then .ok (.regWrite a.size a.off a.value)
  else .ok (.regRead a.size a.off)

/-- The decoder over bytes: the instruction a slot's bytes stand for, and the bytes after it. -/
def decodeBytes : Slot → List Byte → Except DecodeError (Instr × List Byte)
  | .cmd, b0 :: b1 :: b2 :: b3 :: rest => .ok (decodeCmd (le32 b0 b1 b2 b3), rest)
  | .cmd, bs => .error (.tooShort bs.length 4)
  | .header f, b :: rest => .ok (decodeHeaderByte f b, rest)
  | .header _, [] => .error (.tooShort 0 1)

/-- The field whose rows name a byte value, the earlier field first, keyIdSize for a value no row names: the field a
table word of 8 bits is read in, since such a word says no place of its own (log 17). -/
def fieldOfValue (b : Byte) : FrameField :=
  if b = 0x00 ∨ b = 0x08 then .kis
  else if b = 0x04 then .ivs
  else if b = 0x53 ∨ b = 0x41 then .marker
  else .kis

/-- The slot and the bytes of a table word of `nbits` bits: 32 bits are a CMD word, 8 bits a header byte. -/
def tableSlot (nbits w : Nat) : Option (Slot × List Byte) :=
  match nbits with
  | 32 => some (.cmd, leBytes (BitVec.ofNat 32 w))
  | 8 => some (.header (fieldOfValue (BitVec.ofNat 8 w)), [BitVec.ofNat 8 w])
  | _ => none

/-- The instruction the decoder reads from a word of the opcode table. -/
def decodeTableWord (nbits w : Nat) : Option Instr :=
  match tableSlot nbits w with
  | some (slot, bs) =>
    match decodeBytes slot bs with
    | .ok (i, _) => some i
    | .error _ => none
  | none => none

/-- What an instruction is encoded as: bytes in a slot, or a register access. -/
inductive Encoding where
  | bytes (slot : Slot) (bs : List Byte)
  | access (a : BusAccess)
  deriving DecidableEq, Repr

/-- The decoder over encodings. -/
def decode : Encoding → Except DecodeError Instr
  | .bytes slot bs =>
    match decodeBytes slot bs with
    | .ok (i, _) => .ok i
    | .error e => .error e
  | .access a => decodeAccess a

/-- The encoding of an instruction, from the tables of R91, R94, R101, R103 and R105; an INTERNAL row has none (R96). -/
def encode : Instr → Option Encoding
  | .decrypt => some (.bytes .cmd [0x01, 0x00, 0x00, 0x00])
  | .directCopy => some (.bytes .cmd [0x02, 0x00, 0x00, 0x00])
  | .illegalCmd op => some (.bytes .cmd (leBytes op))
  | .regWrite size off v => some (.access ⟨true, size, off, v⟩)
  | .regRead size off => some (.access ⟨false, size, off, 0⟩)
  | .frameKis0 => some (.bytes (.header .kis) [0x00])
  | .frameKis8 => some (.bytes (.header .kis) [0x08])
  | .frameKisOther b => some (.bytes (.header .kis) [b])
  | .frameIvs4 => some (.bytes (.header .ivs) [0x04])
  | .frameIvs8 => some (.bytes (.header .ivs) [0x08])
  | .frameIvsOther b => some (.bytes (.header .ivs) [b])
  | .frameMarkerS => some (.bytes (.header .marker) [0x53])
  | .frameMarkerA => some (.bytes (.header .marker) [0x41])
  | .frameMarkerOther b => some (.bytes (.header .marker) [b])
  | .lookup => none
  | .parse => none
  | .deriveIv => none
  | .keySetup _ => none
  | .quarterRound _ _ _ _ => none
  | .columnRound => none
  | .rowRound => none
  | .doubleRound => none
  | .block => none
  | .ctrInc => none
  | .xorStream => none

end Sys2Proof
end

