-- ==== Sys2Proof/Machine/State.lean ====
section
/-! DEFINITION. The state of the machine: the engine instances with their registers (10_state.md), the memory
(20_memory.md R60), the parameters, the host's queue; and the machine right after reset (R46, R270). -/

namespace Sys2Proof.Machine

/-- The sequencer's phases (10_state.md R40). -/
inductive Phase where
  | idle | parse | checkCap | lookup | derive | setup | stream | copy
  deriving DecidableEq, Repr

/-- The memory: (address, byte) pairs in one canonical form, `Memory.Wf` (log 3). -/
abbrev Memory := List Host.Cell

/-- The registers of one engine instance (10_state.md R20, R21, R33 to R40). -/
structure Engine where
  /-- STATUS.BUSY (R25). -/
  busy : Bool
  /-- STATUS.DONE (R26). -/
  done : Bool
  /-- STATUS.FATAL (R27). -/
  fatal : Bool
  /-- STATUS.CODE (R28). -/
  code : BitVec 4
  /-- IN_ADDR (R29). -/
  inAddr : Word
  /-- IN_LEN (R30). -/
  inLen : Word
  /-- OUT_ADDR (R29). -/
  outAddr : Word
  /-- OUT_LEN (R31). -/
  outLen : Word
  /-- FRAME_INDEX (R32). -/
  frameIndex : Word
  /-- X[0..15] (R33); X[8], X[9] are the block counter (R47). -/
  x : Vector Word 16
  /-- Z[0..15] (R34). -/
  z : Vector Word 16
  /-- KIS (R35). -/
  kis : Byte
  /-- KEYID (R35). -/
  keyId : DWord
  /-- IVS (R35). -/
  ivs : Byte
  /-- BASE_IV[0..7] (R35). -/
  baseIv : Vector Byte 8
  /-- MARKER (R35). -/
  marker : Byte
  /-- POFF (R35). -/
  poff : Nat
  /-- KEY[0..15] (R36). -/
  key : Vector Byte 16
  /-- EIV[0..7] (R37). -/
  eiv : Vector Byte 8
  /-- KS[0..63] (R38). -/
  ks : Vector Byte 64
  /-- P (R39). -/
  p : Nat
  /-- POS (R39). -/
  pos : Nat
  /-- PHASE (R40). -/
  phase : Phase
  /-- The opcode captured at acceptance (R219); no host access reads it (R23). -/
  op : Word
  /-- The model's own: the header field PARSE decodes next, none when the header is complete (R130; log 20). -/
  field : Option FrameField
  /-- The model's own: the answer of the last LOOKUP, Found or NotFound (R120; log 20). -/
  hit : Bool
  deriving DecidableEq, Repr

/-- The moves of the host (30_encoding.md R110) and the engine's turn. -/
inductive HostEvent where
  /-- A register access of the selected instance's window: `W` and `R` (R94). -/
  | access (a : BusAccess)
  /-- `WAIT`: repeat reading STATUS until DONE = 1 or FATAL = 1. -/
  | wait
  /-- The host writes one byte of its memory: `MEM[a] = b`. -/
  | memWrite (addr : Nat) (b : Byte)
  /-- The host reads one byte of its memory. -/
  | memRead (addr : Nat)
  /-- `RESET`: the reset event (R270, R271). -/
  | reset
  /-- The accesses that follow go to the instance of this index (R255). -/
  | select (k : Nat)
  /-- The selected instance takes one engine step (R285). -/
  | engineTurn
  deriving DecidableEq, Repr

/-- The state of the machine. -/
structure State where
  /-- The parameters (R8): ADDR_W, the key ROM (R44), ranges with read side effects. No step changes them. -/
  cfg : Config
  /-- The host's memory (R60). -/
  mem : Memory
  /-- The selected engine instance. -/
  eng : Engine
  /-- The instances of lower index than the selected one, in order (R255). -/
  left : List Engine
  /-- The instances of higher index, in order (R255). -/
  right : List Engine
  /-- The model's own: what the host does next, oldest first (log 10). -/
  script : List HostEvent
  /-- The model's own: the value the last register read returned (R222; log 11). -/
  rdata : Word
  /-- The model's own: the byte the last host memory read returned (log 11). -/
  mdata : Byte
  /-- The model's own: how many free values have been drawn (R71, R271; log 9). -/
  draws : Nat
  deriving DecidableEq, Repr

/-- Which duty of the host was broken (70_reset_and_hazards.md R280). -/
inductive Violation where
  /-- R280(a), R223: the output range meets the input range or is longer than the memory. -/
  | overlap
  /-- R280(b), R276: the host wrote a byte of a running command's input range. -/
  | inputWritten
  /-- R280(b), R277: the host wrote a byte of a running command's output range. -/
  | outputWritten
  /-- R280(c), R66: a buffer lies on memory with read side effects. -/
  | deviceMemory
  /-- R280(d), R281: the output range of a running command meets a range of a command of another instance. -/
  | sharedRange
  deriving DecidableEq, Repr

/-- The machine stops with a fault. -/
inductive Fault where
  /-- R258: the host broke a duty and the spec gives the command no outcome. Raised by DIRECT_COPY and by
  FRAME_MARKER_S and DECRYPT when about to write (overlap, deviceMemory), by the start of a command (deviceMemory) and
  its acceptance (sharedRange), by host memory accesses and a reset while a command runs. Safe: the hardware goes on with
  some outcome. -/
  | hostContract (v : Violation)
  /-- A host memory access outside the 2^ADDR_W bytes of R60; no such address exists. Raised by the host's memory
  events. Safe. -/
  | noSuchAddress
  deriving DecidableEq, Repr

/-- The machine gives no meaning. -/
inductive Refusal where
  /-- An instruction without a meaning yet. Raised by a dispatch arm. Safe. -/
  | notModelled (mnemonic : String)
  /-- R22: a register access of another size or at another offset; "a model refuses it". Raised by REG_WRITE, REG_READ
  and the host's access events. Safe. -/
  | badAccess
  /-- R170, U16: KEY_SETUP with klen not 16 or 32; "a model refuses it". Raised by KEY_SETUP. Safe. -/
  | badKeyLength
  /-- A host access to a memory range with read side effects, whose device the spec does not describe (R66). Raised by
  the host's memory events. Safe. -/
  | deviceAccess
  /-- A host event for an instance index that does not exist. Raised by the select event. Safe. -/
  | noSuchEngine
  deriving DecidableEq, Repr

/-- What a step or a meaning answers. -/
abbrev Result := Host.Outcome State Fault Refusal

/-- One instance after reset: the host-visible registers and PHASE as R46 and R270 say; the internal registers, which
R46 leaves unspecified, at 0 (DESIGN CHOICE, log 4). -/
def Engine.reset : Engine :=
  { busy := false, done := false, fatal := false, code := 0
    inAddr := 0, inLen := 0, outAddr := 0, outLen := 0, frameIndex := 0
    x := Vector.replicate 16 0, z := Vector.replicate 16 0
    kis := 0, keyId := 0, ivs := 0, baseIv := Vector.replicate 8 0, marker := 0, poff := 0
    key := Vector.replicate 16 0, eiv := Vector.replicate 8 0, ks := Vector.replicate 64 0
    p := 0, pos := 0, phase := .idle, op := 0, field := none, hit := false }

/-- The machine right after reset (R46, R270): one instance, memory with nothing listed, no host event pending. -/
def State.reset : State :=
  { cfg := Config.standard, mem := [], eng := Engine.reset, left := [], right := [], script := []
    rdata := 0, mdata := 0, draws := 0 }

end Sys2Proof.Machine
end

