-- ==== Sys2Proof/Machine/Flags.lean ====
section
/-! DEFINITION. STATUS: the status codes (60_exceptions.md R240) and the word the host reads (10_state.md R24). The
engine has no other flags (R48). -/

namespace Sys2Proof.Machine

/-- The status codes (R240). -/
inductive StatusCode where
  | success | fileCorrupt | notSupported | insufficientBuffer | fileEncrypted | illegalCommand | internalError
  deriving DecidableEq, Repr

/-- The 4-bit CODE of a status (R240). -/
def StatusCode.bits : StatusCode → BitVec 4
  | .success => 0
  | .fileCorrupt => 1
  | .notSupported => 2
  | .insufficientBuffer => 3
  | .fileEncrypted => 4
  | .illegalCommand => 5
  | .internalError => 6

/-- A flag as a u32. -/
def bit (b : Bool) : Word := if b then 1 else 0

/-- `BUSY | (DONE << 1) | (FATAL << 2) | (CODE << 4)`, the other bits 0 (R95, R222). -/
def Engine.statusWord (e : Engine) : Word :=
  bit e.busy ||| (bit e.done <<< 1) ||| (bit e.fatal <<< 2) ||| (e.code.zeroExtend 32 <<< 4)

end Sys2Proof.Machine
end

