-- ==== Sys2Proof/Machine/Operands.lean ====
section
/-! DEFINITION. The operand forms of 00_scope.md R11 to R13: memory bytes, the input and output strings of a command,
lengths as naturals, words from bytes, ranges of addresses. -/

namespace Sys2Proof

/-! ### Addresses -/

/-- 2^ADDR_W, the number of bytes of the memory (R60). -/
def Config.size (c : Config) : Nat := 2 ^ c.addrW

/-- The address of byte i of a buffer (R61). -/
def Config.addr (c : Config) (base : Word) (i : Nat) : Nat := (base.toNat + i) % c.size

/-- Whether address a lies among the `len` addresses from `base` on, modulo `size` (R61). -/
def inRange (size base len a : Nat) : Bool := decide ((a + size - base % size) % size < len)

/-- Whether two ranges of addresses meet (R223): the start of one lies in the other, and both have bytes. -/
def rangesMeet (size a la b lb : Nat) : Bool :=
  decide (0 < la) && decide (0 < lb) && (inRange size a la b || inRange size b lb a)

/-- Whether a buffer lies on memory with read side effects (R66). -/
def Config.onDevice (c : Config) (base len : Nat) : Bool :=
  c.devices.any fun d => rangesMeet c.size d.1 d.2 base len

end Sys2Proof

namespace Sys2Proof.Machine

/-! ### Memory -/

/-- What a byte that nothing has written reads as (DESIGN CHOICE, log 3). -/
def memDefault : Byte := 0x00

/-- The canonical form: addresses strictly rising, no byte listed that equals the default. -/
abbrev Memory.Wf (m : Memory) : Prop :=
  m.Pairwise (fun a b => a.1 < b.1) ∧ ∀ c ∈ m, c.2 ≠ memDefault

/-- `MemRead(addr, 1)` at an address already reduced (R13, R62). -/
def Memory.read : Memory → Nat → Byte
  | [], _ => memDefault
  | (a, b) :: m, k => if a = k then b else Memory.read m k

/-- `MemWrite(addr, 1, v)` at an address already reduced (R13, R62); keeps the canonical form. -/
def Memory.write : Memory → Nat → Byte → Memory
  | [], k, v => if v = memDefault then [] else [(k, v)]
  | (a, b) :: m, k, v =>
    if k < a then (if v = memDefault then (a, b) :: m else (k, v) :: (a, b) :: m)
    else if k = a then (if v = memDefault then m else (k, v) :: m)
    else (a, b) :: Memory.write m k v

/-! ### Lengths and buffers of the selected instance -/

/-- n = REG[IN_LEN] as a natural (R11, R130). -/
def State.n (s : State) : Nat := s.eng.inLen.toNat

/-- cap = REG[OUT_LEN] as a natural (R11, R210). -/
def State.cap (s : State) : Nat := s.eng.outLen.toNat

/-- plen = n - POFF (R210, R212). -/
def State.plen (s : State) : Nat := s.n - s.eng.poff

/-- `in(i)` (R13). -/
def State.inByte (s : State) (i : Nat) : Byte := s.mem.read (s.cfg.addr s.eng.inAddr i)

/-- The address `out(i)` names (R13). -/
def State.outAt (s : State) (i : Nat) : Nat := s.cfg.addr s.eng.outAddr i

/-! ### Words from bytes -/

/-- `le32at(B, k)` (R12). -/
def le32at (b : List Byte) (k : Nat) : Word :=
  le32 (b.getD k 0) (b.getD (k + 1) 0) (b.getD (k + 2) 0) (b.getD (k + 3) 0)

/-- `Σ_{i<k} zext_64(f i) << 8i` (R102). -/
def le64 (f : Nat → Byte) (k : Nat) : DWord :=
  (List.range k).foldl (fun acc i => acc ||| ((f i).zeroExtend 64 <<< (8 * i))) 0

/-- `rotl32` (R11). -/
def rotl32 (v : Word) (r : Nat) : Word := (v <<< r) ||| (v >>> (32 - r))

end Sys2Proof.Machine
end

