-- ==== Sys2Proof/Machine/Ops.lean ====
section
/-! DEFINITION. The named operations every meaning is built from: updating the selected instance, memory writes, the end
of a command (60_exceptions.md R244), entering the fatal state (R247), the host-contract check (44_dispatch.md R223),
sequencing. -/

namespace Sys2Proof.Machine

/-- Updates the registers of the selected instance. -/
def State.modEng (s : State) (f : Engine → Engine) : State := { s with eng := f s.eng }

/-- `out(i) <- v` (R13). -/
def State.outByte (s : State) (i : Nat) (v : Byte) : State := { s with mem := s.mem.write (s.outAt i) v }

/-- Runs `f` after an outcome that is a next state. -/
def andThen (o : Result) (f : State → Result) : Result :=
  match o with
  | .next s => f s
  | .fault r => .fault r
  | .refused r => .refused r

/-- Runs `f` when the sequencer is in phase `ph`, else passes on: a step of a command runs only in its phase, and a
command that has ended is in phase IDLE, so no later step of it runs (R14, R40). -/
def inPhase (ph : Phase) (f : State → Result) (s : State) : Result :=
  if s.eng.phase = ph then f s else .next s

/-! ### The end of a command -/

/-- `END(code)` on the registers (R244). -/
def Engine.ended (code : StatusCode) (e : Engine) : Engine :=
  { e with code := code.bits, busy := false, done := true, phase := .idle }

/-- `raise Status(code)` (R13, R244): the exception of this machine. CODE, BUSY, DONE and PHASE are written and nothing
else; OUT_LEN and memory keep their values. -/
def raiseStatus (code : StatusCode) (s : State) : Result :=
  .next (s.modEng (Engine.ended code))

/-- `raise Fatal(InternalError)` (R247): the ending with code 6, and FATAL. -/
def raiseFatal (s : State) : Result :=
  .next (s.modEng fun e => { Engine.ended .internalError e with fatal := true })

/-- `REG[OUT_LEN] <- len; finish(Success)` in one step (R244, R210, R217). -/
def finishSuccess (len : Nat) (s : State) : Result :=
  .next (s.modEng fun e => { Engine.ended .success e with outLen := BitVec.ofNat 32 len })

/-- The return from the fatal state, and the reset of one instance (R248, R270): only reset leaves FATAL = 1. -/
def Engine.toReset (_ : Engine) : Engine := Engine.reset

/-! ### The host's contract -/

/-- Whether a buffer of the instance lies on memory with read side effects (R66, R280(c)): the IN_LEN bytes of its input,
or the output buffer of the capacity the host declares in OUT_LEN (R31), whether or not a byte of it will be written. -/
def Engine.onDevice (c : Config) (e : Engine) : Bool :=
  c.onDevice e.inAddr.toNat e.inLen.toNat || c.onDevice e.outAddr.toNat e.outLen.toNat

/-- `CHECK_CONTRACT(L)` (R223), and R280(c) for the one byte DIRECT_COPY may write past its buffer (R279): the duty the host has broken, if any, when the command
is about to write `len` bytes. `len = 0` never violates it. -/
def contractBroken (len : Nat) (s : State) : Option Violation :=
  if len = 0 then none
  else if s.cfg.size < len ∨ rangesMeet s.cfg.size s.eng.outAddr.toNat len s.eng.inAddr.toNat s.n then some .overlap
  else if s.cfg.onDevice s.eng.outAddr.toNat len then some .deviceMemory
  else none

/-- Faults when the contract is broken (R223, R258), else goes on. -/
def checkContract (len : Nat) (f : State → Result) (s : State) : Result :=
  match contractBroken len s with
  | some v => .fault (.hostContract v)
  | none => f s

end Sys2Proof.Machine
end

