-- ==== Sys2Proof/Machine/Salsa.lean ====
section
/-! DEFINITION. The Salsa20/20 engine (43_salsa20.md): KEY_SETUP, QUARTERROUND, COLUMNROUND, ROWROUND, DOUBLEROUND,
BLOCK, CTR_INC, XOR_STREAM. First the functions on words, then the instructions on the registers. -/

namespace Sys2Proof.Machine

/-- A 4 × 4 matrix of words, `M[4r + c]` in row r, column c (R33). -/
abbrev Matrix16 := Vector Word 16

/-! ### Functions -/

/-- TAU, "expand 16-byte k" (R171; general knowledge G1). -/
def tau : List Byte :=
  [0x65, 0x78, 0x70, 0x61, 0x6E, 0x64, 0x20, 0x31, 0x36, 0x2D, 0x62, 0x79, 0x74, 0x65, 0x20, 0x6B]

/-- SIGMA, "expand 32-byte k" (R171; general knowledge G1). -/
def sigma : List Byte :=
  [0x65, 0x78, 0x70, 0x61, 0x6E, 0x64, 0x20, 0x33, 0x32, 0x2D, 0x62, 0x79, 0x74, 0x65, 0x20, 0x6B]

/-- KEY_SETUP(key, klen, iv) (R170), klen the key's length. -/
def keyMatrix (key : List Byte) (iv : List Byte) : Matrix16 :=
  let c := if key.length = 32 then sigma else tau
  let kx := key.length - 16
  #v[le32at c 0, le32at key 0, le32at key 4, le32at key 8,
     le32at key 12, le32at c 4, le32at iv 0, le32at iv 4,
     0, 0, le32at c 8, le32at key kx,
     le32at key (kx + 4), le32at key (kx + 8), le32at key (kx + 12), le32at c 12]

/-- QUARTERROUND(a, b, c, d) (R173): each line uses the values the lines before wrote. -/
def quarterRound (a b c d : Fin 16) (z : Matrix16) : Matrix16 :=
  let z := z.set b (z[b] ^^^ rotl32 (z[a] + z[d]) 7)
  let z := z.set c (z[c] ^^^ rotl32 (z[b] + z[a]) 9)
  let z := z.set d (z[d] ^^^ rotl32 (z[c] + z[b]) 13)
  z.set a (z[a] ^^^ rotl32 (z[d] + z[c]) 18)

/-- COLUMNROUND (R174; the index tuples are general knowledge G2). -/
def columnRound (z : Matrix16) : Matrix16 :=
  quarterRound 15 3 7 11 (quarterRound 10 14 2 6 (quarterRound 5 9 13 1 (quarterRound 0 4 8 12 z)))

/-- ROWROUND (R175; the index tuples are general knowledge G2). -/
def rowRound (z : Matrix16) : Matrix16 :=
  quarterRound 15 12 13 14 (quarterRound 10 11 8 9 (quarterRound 5 6 7 4 (quarterRound 0 1 2 3 z)))

/-- DOUBLEROUND (R176). -/
def doubleRound (z : Matrix16) : Matrix16 := rowRound (columnRound z)

/-- `repeat k times: DOUBLEROUND` (R177). Irreducible to the elaborator, so that comparing two states never runs it; the
kernel still does. -/
@[irreducible] def doubleRounds : Nat → Matrix16 → Matrix16
  | 0, z => z
  | k + 1, z => doubleRounds k (doubleRound z)

/-- `KS[4i + j] <- byte_j(Z[i] +32 X[i])` (R177, R178). -/
def feedForward (z x : Matrix16) : Vector Byte 64 :=
  Vector.ofFn fun k : Fin 64 => byteOf (k.val % 4) (z[k.val / 4] + x[k.val / 4])

/-- The keystream block of a matrix (R177): 10 double-rounds and the feed-forward. -/
def blockBytes (x : Matrix16) : Vector Byte 64 := feedForward (doubleRounds 10 x) x

/-- CTR_INC on a matrix (R179). -/
def counterUp (x : Matrix16) : Matrix16 :=
  let x := x.set 8 (x[8] + 1)
  if x[8] = 0 then x.set 9 (x[9] + 1) else x

/-- A matrix with its 64-bit block counter set to `c` (R47). -/
def withCounter (x : Matrix16) (c : DWord) : Matrix16 :=
  (x.set 8 (c.setWidth 32)).set 9 ((c >>> 32).setWidth 32)

/-- `KSTREAM(key, iv)[j]` (R181): byte `j mod 64` of the block with counter `j / 64`. -/
def kstream (key : Vector Byte 16) (iv : Vector Byte 8) (j : Nat) : Byte :=
  (blockBytes (withCounter (keyMatrix key.toList iv.toList) (BitVec.ofNat 64 (j / 64))))[j % 64]'(Nat.mod_lt _ (by decide))

/-! ### The registers -/

/-- BLOCK on the registers (R177): writes Z and KS, not X. -/
def Engine.blockStep (e : Engine) : Engine :=
  { e with z := doubleRounds 10 e.x, ks := feedForward (doubleRounds 10 e.x) e.x }

/-- CTR_INC on the registers (R179). -/
def Engine.ctrStep (e : Engine) : Engine := { e with x := counterUp e.x }

/-- `for i < m: out(dst + POS + i) <- in(src + POS + i) ^ KS[i]` (R180). -/
def xorBytes (src dst : Nat) : Nat → State → State
  | 0, s => s
  | m + 1, s =>
    let s := xorBytes src dst m s
    s.outByte (dst + s.eng.pos + m) (s.inByte (src + s.eng.pos + m) ^^^ s.eng.ks.toList.getD m 0)

/-- One turn of XOR_STREAM's loop (R180): BLOCK, up to 64 bytes, `POS <- POS + m`, CTR_INC. -/
def xorTurn (src dst len : Nat) (s : State) : State :=
  let s := s.modEng Engine.blockStep
  let m := min 64 (len - s.eng.pos)
  let s := xorBytes src dst m s
  s.modEng fun e => Engine.ctrStep { e with pos := e.pos + m }

/-- `while POS < len` (R180), at most `turns` times. -/
def xorLoop (src dst len : Nat) : Nat → State → State
  | 0, s => s
  | turns + 1, s => if s.eng.pos < len then xorLoop src dst len turns (xorTurn src dst len s) else s

/-- XOR_STREAM(src, dst, len) (R180): from POS = 0, ⌈len / 64⌉ turns. -/
def xorStream (src dst len : Nat) (s : State) : State :=
  xorLoop src dst len ((len + 63) / 64) (s.modEng fun e => { e with pos := 0 })

/-! ### The instructions -/

/-- KEY_SETUP (R170) with the effective IV register. Its key is KEY (klen = 16), or one given outright of 16 or 32
bytes; any other klen is refused (U16). -/
def execKeySetup (k : KeyArg) (s : State) : Result :=
  match k with
  | .keyReg => .next (s.modEng fun e => { e with x := keyMatrix e.key.toList e.eiv.toList })
  | .bytes key =>
    if key.length = 16 ∨ key.length = 32 then .next (s.modEng fun e => { e with x := keyMatrix key e.eiv.toList })
    else .refused .badKeyLength

/-- QUARTERROUND (R173) on the working matrix. -/
def execQuarterRound (a b c d : Fin 16) (s : State) : Result :=
  .next (s.modEng fun e => { e with z := quarterRound a b c d e.z })

/-- COLUMNROUND (R174) on the working matrix. -/
def execColumnRound (s : State) : Result := .next (s.modEng fun e => { e with z := columnRound e.z })

/-- ROWROUND (R175) on the working matrix. -/
def execRowRound (s : State) : Result := .next (s.modEng fun e => { e with z := rowRound e.z })

/-- DOUBLEROUND (R176) on the working matrix. -/
def execDoubleRound (s : State) : Result := .next (s.modEng fun e => { e with z := doubleRound e.z })

/-- BLOCK (R177). -/
def execBlock (s : State) : Result := .next (s.modEng Engine.blockStep)

/-- CTR_INC (R179). -/
def execCtrInc (s : State) : Result := .next (s.modEng Engine.ctrStep)

/-- XOR_STREAM (R180) with the operands R180 gives it: src = POFF, dst = 0, len = plen. -/
def execXorStream (s : State) : Result := .next (xorStream s.eng.poff 0 s.plen s)

end Sys2Proof.Machine
end

