-- ==== Sys2Proof/Machine/Header.lean ====
section
/-! DEFINITION. The frame-header parser (41_header_parser.md): one meaning per header byte (30_encoding.md R101, R103,
R105), PARSE over them, and the dispatch of DECRYPT on the marker (44_dispatch.md R215). -/

namespace Sys2Proof.Machine

/-! ### The steps of PARSE -/

/-- Steps 1 and 2 of R130 once the keyIdSize byte is read and legal: `KIS`, the bound of R132, `KEYID`. -/
def takeKeyId (k : Byte) (s : State) : Result :=
  let s := s.modEng fun e => { e with kis := k, p := e.p + 1 }
  if s.eng.p + k.toNat < s.n then
    .next (s.modEng fun e =>
      { e with
        keyId := le64 (fun i => s.inByte (e.p + i)) k.toNat
        p := e.p + k.toNat
        field := some .ivs })
  else raiseStatus .fileCorrupt s

/-- Steps 3 and 4 of R130 once the ivSize byte is read and legal: `IVS`, the bound of R132, `BASE_IV` (R104). -/
def takeIv (v : Byte) (s : State) : Result :=
  let s := s.modEng fun e => { e with ivs := v, p := e.p + 1 }
  if s.eng.p + v.toNat < s.n then
    .next (s.modEng fun e =>
      { e with
        baseIv := Vector.ofFn fun i : Fin 8 => if i.val < v.toNat then s.inByte (e.p + i.val) else 0x00
        p := e.p + v.toNat
        field := some .marker })
  else raiseStatus .fileCorrupt s

/-- Step 5 of R130 once the cipherMarker byte is read and legal: `MARKER`, `POFF`; the header is complete. -/
def takeMarker (m : Byte) (s : State) : Result :=
  .next (s.modEng fun e => { e with marker := m, p := e.p + 1, poff := e.p + 1, field := none })

/-! ### Step 5 of DECRYPT -/

/-- MARKER = 0x53 (R215): CHECK_CONTRACT(plen), KEY_SETUP(KEY, 16, EIV), and on to XOR_STREAM. -/
def dispatchSalsa (s : State) : Result :=
  checkContract s.plen (fun s => andThen (execKeySetup .keyReg s) fun s => .next (s.modEng fun e => { e with phase := .stream })) s

/-! ### The header bytes -/

/-- FRAME_KIS_0: keyIdSize 0, no keyId bytes, KEYID = 0 (R101, R102, R130). -/
def execFrameKis0 (s : State) : Result := takeKeyId 0x00 s

/-- FRAME_KIS_8: keyIdSize 8, keyId little-endian (R101, R102, R130). -/
def execFrameKis8 (s : State) : Result := takeKeyId 0x08 s

/-- FRAME_KIS_OTHER: every other keyIdSize value ends the command with NotSupported (R101, R130). -/
def execFrameKisOther (b : Byte) (s : State) : Result :=
  raiseStatus .notSupported (s.modEng fun e => { e with kis := b })

/-- FRAME_IVS_4: ivSize 4, four IV bytes and four zero bytes (R103, R104, R130). -/
def execFrameIvs4 (s : State) : Result := takeIv 0x04 s

/-- FRAME_IVS_8: ivSize 8, eight IV bytes (R103, R104, R130). -/
def execFrameIvs8 (s : State) : Result := takeIv 0x08 s

/-- FRAME_IVS_OTHER: every other ivSize value ends the command with NotSupported (R103, R130). -/
def execFrameIvsOther (b : Byte) (s : State) : Result :=
  raiseStatus .notSupported (s.modEng fun e => { e with ivs := b })

/-- FRAME_MARKER_S, 0x53: accepted by PARSE (R105, R130 step 5); when DECRYPT dispatches on it (phase SETUP) the
payload goes to the Salsa20 engine (R215; log 19). -/
def execFrameMarkerS (s : State) : Result :=
  if s.eng.phase = .setup then dispatchSalsa s else takeMarker 0x53 s

/-- FRAME_MARKER_A, 0x41: accepted by PARSE (R105, R130 step 5); when DECRYPT dispatches on it (phase SETUP) it raises
Fatal(InternalError) (R215, R247; log 19). -/
def execFrameMarkerA (s : State) : Result :=
  if s.eng.phase = .setup then raiseFatal s else takeMarker 0x41 s

/-- FRAME_MARKER_OTHER: every other marker ends the command with NotSupported (R105, R130 step 5). PARSE admits none to
the dispatch; were one there, R215's "any other" makes it fatal. -/
def execFrameMarkerOther (b : Byte) (s : State) : Result :=
  if s.eng.phase = .setup then raiseFatal s
  else raiseStatus .notSupported (s.modEng fun e => { e with marker := b })

/-- The meaning of a header byte by the field it stands in (R101, R103, R105), the values of a row before the row
"every other value". -/
def headerByte (f : FrameField) (b : Byte) (s : State) : Result :=
  match f with
  | .kis => if b = 0x00 then execFrameKis0 s else if b = 0x08 then execFrameKis8 s else execFrameKisOther b s
  | .ivs => if b = 0x04 then execFrameIvs4 s else if b = 0x08 then execFrameIvs8 s else execFrameIvsOther b s
  | .marker =>
    if b = 0x53 then execFrameMarkerS s else if b = 0x41 then execFrameMarkerA s else execFrameMarkerOther b s

/-! ### PARSE -/

/-- One field of the header (R131): the byte at P must exist, else FileCorrupt; then it is decoded by its field. With
the header complete nothing is left to do. -/
def parseField (s : State) : Result :=
  match s.eng.field with
  | none => .next s
  | some f => if s.eng.p < s.n then headerByte f (s.inByte s.eng.p) s else raiseStatus .fileCorrupt s

/-- The fields that are left, at most three, while no check has ended the command (R14, R130, R133). -/
def parseFields (s : State) : Result :=
  andThen (inPhase .parse parseField s) fun s =>
  andThen (inPhase .parse parseField s) fun s =>
  inPhase .parse parseField s

/-- The start of PARSE (R130): P = 0 and the keyIdSize field next. -/
def Engine.parseStart (e : Engine) : Engine := { e with phase := .parse, p := 0, field := some .kis }

/-- PARSE(n) (R130). -/
def execParse (s : State) : Result := parseFields (s.modEng Engine.parseStart)

end Sys2Proof.Machine
end

