-- ==== Sys2Proof/Machine/IvMixer.lean ====
section
/-! DEFINITION. The IV mixer: DERIVE_IV (42_iv_derivation.md). -/

namespace Sys2Proof.Machine

/-- DERIVE_IV(baseIv, fi) (R160): bytes 0..3 are XORed with the bytes of the frame index, least-significant first. -/
def mixIv (iv : Vector Byte 8) (fi : Word) : Vector Byte 8 :=
  Vector.ofFn fun i : Fin 8 => if i.val < 4 then iv[i] ^^^ byteOf i.val fi else iv[i]

/-- DERIVE_IV (R160). -/
def execDeriveIv (s : State) : Result :=
  .next (s.modEng fun e => { e with eiv := mixIv e.baseIv e.frameIndex })

end Sys2Proof.Machine
end

