-- ==== Sys2Proof/Machine/KeyStore.lean ====
section
/-! DEFINITION. The key store: LOOKUP (40_keystore.md). -/

namespace Sys2Proof.Machine

/-- The scan of R120 and R122: entries in table order, the sentinel ends it, the first match wins. A table without a
sentinel ends with its list (log 8). -/
def scanKeys : List KeyEntry → DWord → Option (Vector Byte 16)
  | [], _ => none
  | e :: es, k => if e.keyId = 0 then none else if e.keyId = k then some e.key else scanKeys es k

/-- LOOKUP(keyId) (R120, R121): keyId 0 is never a match. -/
def lookupKey (t : List KeyEntry) (k : DWord) : Option (Vector Byte 16) :=
  if k = 0 then none else scanKeys t k

/-- LOOKUP (R120): `KEY` is written on Found; the answer stands in `hit`. -/
def execLookup (s : State) : Result :=
  match lookupKey s.cfg.keyTable s.eng.keyId with
  | some k => .next (s.modEng fun e => { e with key := k, hit := true })
  | none => .next (s.modEng fun e => { e with hit := false })

end Sys2Proof.Machine
end

