-- ==== Sys2Proof/Machine/Commands.lean ====
section
/-! DEFINITION. The commands (44_dispatch.md): DECRYPT, DIRECT_COPY, ILLEGAL_CMD, each from the phase the sequencer is
in to its end, and the phases they are made of (10_state.md R40). -/

namespace Sys2Proof.Machine

/-! ### The start -/

/-- A command has no outcome when its input or its output buffer lies on memory with read side effects (R66, R280(c)),
however it would end (log 13). -/
def checkBuffers (f : State → Result) (s : State) : Result :=
  if s.eng.onDevice s.cfg then .fault (.hostContract .deviceMemory) else f s

/-- DECRYPT begins with PARSE (R40, R210). -/
def decryptStart (s : State) : Result := checkBuffers (fun s => .next (s.modEng Engine.parseStart)) s

/-- DIRECT_COPY begins with its capacity check (R40, R217). -/
def copyStart (s : State) : Result := checkBuffers (fun s => .next (s.modEng fun e => { e with phase := .checkCap })) s

/-! ### The phases -/

/-- Phase PARSE, from the field it has reached (R210 step 1, R211). -/
def parsePhase (s : State) : Result :=
  andThen (parseFields s) fun s =>
  inPhase .parse (fun s => .next (s.modEng fun e => { e with phase := .checkCap })) s

/-- Phase CHECK_CAP of DECRYPT (R210 step 2, R212): `plen > cap` on naturals. -/
def decryptCap (s : State) : Result :=
  if s.cap < s.plen then raiseStatus .insufficientBuffer s
  else .next (s.modEng fun e => { e with phase := .lookup })

/-- After LOOKUP (R210 step 3, R213): NotFound becomes FileEncrypted. -/
def afterLookup (s : State) : Result :=
  if s.eng.hit then .next (s.modEng fun e => { e with phase := .derive }) else raiseStatus .fileEncrypted s

/-- After DERIVE_IV (R210 step 4, R214). -/
def afterDerive (s : State) : Result := .next (s.modEng fun e => { e with phase := .setup })

/-- Phase SETUP (R210 step 5, R215): the choice on MARKER. -/
def setupPhase (s : State) : Result := headerByte .marker s.eng.marker s

/-- After XOR_STREAM (R210, R216): OUT_LEN and the success. -/
def afterStream (s : State) : Result := finishSuccess s.plen s

/-- Phase CHECK_CAP of DIRECT_COPY (R217): `n > cap + 1` on naturals (C5, D21); then the contract. -/
def copyCap (s : State) : Result :=
  if s.cap + 1 < s.n then raiseStatus .insufficientBuffer s
  else checkContract s.n (fun s => .next (s.modEng fun e => { e with phase := .copy })) s

/-- `for i < n: out(i) <- in(i)` (R217). -/
def copyBytes : Nat → State → State
  | 0, s => s
  | m + 1, s =>
    let s := copyBytes m s
    s.outByte m (s.inByte m)

/-- Phase COPY (R217): the bytes, OUT_LEN and the success. -/
def copyPhase (s : State) : Result := finishSuccess s.n (copyBytes s.n s)

/-! ### The commands -/

/-- DECRYPT up to its dispatch on MARKER (R210 steps 1 to 4): its phases in R40's order, from the one it is in. -/
def decryptToSetup (s : State) : Result :=
  andThen (inPhase .idle decryptStart s) fun s =>
  andThen (inPhase .parse parsePhase s) fun s =>
  andThen (inPhase .checkCap decryptCap s) fun s =>
  andThen (inPhase .lookup (fun s => andThen (execLookup s) afterLookup) s) fun s =>
  inPhase .derive (fun s => andThen (execDeriveIv s) afterDerive) s

/-- DECRYPT (R210): its phases in R40's order, from the one it is in to the command's end. -/
def execDecrypt (s : State) : Result :=
  andThen (decryptToSetup s) fun s =>
  andThen (inPhase .setup setupPhase s) fun s =>
  inPhase .stream (fun s => andThen (execXorStream s) afterStream) s

/-- DIRECT_COPY (R217): its phases in R40's order, from the one it is in to the command's end. -/
def execDirectCopy (s : State) : Result :=
  andThen (inPhase .idle copyStart s) fun s =>
  andThen (inPhase .checkCap copyCap s) fun s =>
  inPhase .copy copyPhase s

/-- ILLEGAL_CMD (R218): `raise Status(IllegalCommand)`, whatever the opcode. -/
def execIllegalCmd (_op : Word) (s : State) : Result := raiseStatus .illegalCommand s

/-- The command the captured opcode selects (R90, R91, R92), run to its end. -/
def runCommand (s : State) : Result :=
  if s.eng.op = 0x00000001 then execDecrypt s
  else if s.eng.op = 0x00000002 then execDirectCopy s
  else execIllegalCmd s.eng.op s

/-- How many bytes the running command is going to write (R65), the L of its CHECK_CONTRACT (R223), whether or not it
keeps that contract: plen for a DECRYPT that reaches the marker 'S', n for a DIRECT_COPY that fits, else none. -/
def bytesToWrite (s : State) : Nat :=
  if s.eng.op = 0x00000001 then
    match decryptToSetup s with
    | .next t => if t.eng.phase = .stream ∨ t.eng.phase = .setup ∧ t.eng.marker = 0x53 then t.plen else 0
    | .fault _ => 0
    | .refused _ => 0
  else if s.eng.op = 0x00000002 then
    if s.eng.phase = .copy ∨ s.n ≤ s.cap + 1 then s.n else 0
  else 0

end Sys2Proof.Machine
end

