-- ==== Sys2Proof/Machine/HostPort.lean ====
section
/-! DEFINITION. The register window (44_dispatch.md R219 to R222): the acceptance of a command, REG_WRITE, REG_READ. -/

namespace Sys2Proof.Machine

/-! ### The bytes a running command is going to write -/

/-- How many bytes a command that has ended wrote (R65): OUT_LEN after Success, none after any other status. -/
def Engine.written (e : Engine) : Nat := if e.code = StatusCode.success.bits then e.outLen.toNat else 0

/-- How many bytes the running command of instance `e` is going to write (R65). -/
def State.willWrite (s : State) (e : Engine) : Nat := bytesToWrite { s with eng := e }

/-- The other instances (R255). -/
def State.others (s : State) : List Engine := s.left ++ s.right

/-- Every instance, by index (R255). -/
def State.engines (s : State) : List Engine := s.left ++ s.eng :: s.right

/-- Whether the commands of two instances that run at the same time break R281: an output range meets an input or
output range of the other. -/
def State.conflict (s : State) (a b : Engine) : Bool :=
  rangesMeet s.cfg.size a.outAddr.toNat (s.willWrite a) b.inAddr.toNat b.inLen.toNat
    || rangesMeet s.cfg.size a.outAddr.toNat (s.willWrite a) b.outAddr.toNat (s.willWrite b)
    || rangesMeet s.cfg.size b.outAddr.toNat (s.willWrite b) a.inAddr.toNat a.inLen.toNat

/-- R281 at the acceptance of a command, against every command that is running. -/
def checkShared (s : State) : Result :=
  if s.eng.busy && s.others.any (fun o => o.busy && s.conflict s.eng o) then .fault (.hostContract .sharedRange)
  else .next s

/-! ### Acceptance -/

/-- The registers at acceptance (R219, R25, R26): BUSY ← 1, DONE ← 0, the opcode captured. -/
def Engine.accepted (v : Word) (e : Engine) : Engine := { e with busy := true, done := false, op := v }

/-- The start of the command a CMD word selects (R90 to R92, R219). ILLEGAL_CMD visits no phase (R40), so its end is
in the same step (log 2). -/
def startCommand (v : Word) (s : State) : Result :=
  if v = 0x00000001 then decryptStart s
  else if v = 0x00000002 then copyStart s
  else execIllegalCmd v s

/-- A write to CMD (R219, R220). -/
def writeCmd (v : Word) (s : State) : Result :=
  if s.eng.busy ∨ s.eng.fatal then .next s
  else andThen (startCommand v (s.modEng (Engine.accepted v))) checkShared

/-! ### The registers by offset -/

/-- The bits an address register holds of a value: v[ADDR_W-1:0] (R29, R221). -/
def addrBits (c : Config) (v : Word) : Word := BitVec.ofNat 32 (v.toNat % c.size)

/-- R221 for an instance that is not busy, by offset; CMD, STATUS and the reserved word store nothing. -/
def Engine.writeReg (c : Config) (off : Nat) (v : Word) (e : Engine) : Engine :=
  match off with
  | 0x08 => { e with inAddr := addrBits c v }
  | 0x0C => { e with inLen := v }
  | 0x10 => { e with outAddr := addrBits c v }
  | 0x14 => { e with outLen := v }
  | 0x18 => { e with frameIndex := v }
  | _ => e

/-- The value of a register, by offset (R222); CMD and the reserved word read 0 (R23, R43). -/
def Engine.readReg (off : Nat) (e : Engine) : Word :=
  match off with
  | 0x04 => e.statusWord
  | 0x08 => e.inAddr
  | 0x0C => e.inLen
  | 0x10 => e.outAddr
  | 0x14 => e.outLen
  | 0x18 => e.frameIndex
  | _ => 0

/-! ### The instructions -/

/-- REG_WRITE(offset, v) (R219 to R221); any access R22 gives no meaning is refused. -/
def execRegWrite (size off : Nat) (v : Word) (s : State) : Result :=
  if size ≠ 4 ∨ ¬ offsetOk off then .refused .badAccess
  else if off = 0x00 then writeCmd v s
  else if s.eng.busy then .next s
  else .next (s.modEng (Engine.writeReg s.cfg off v))

/-- REG_READ(offset) (R222): the value goes to the host, no other state changes; any access R22 gives no meaning is
refused. -/
def execRegRead (size off : Nat) (s : State) : Result :=
  if size ≠ 4 ∨ ¬ offsetOk off then .refused .badAccess
  else .next { s with rdata := s.eng.readReg off }

end Sys2Proof.Machine
end

