-- ==== Sys2Proof/Machine/HostMemory.lean ====
section
/-! DEFINITION. What the host does beside register accesses: reading and writing its memory (20_memory.md R69 to R71,
70_reset_and_hazards.md R276, R277), resetting the platform (R270, R271), turning to another instance (R255). -/

namespace Sys2Proof.Machine

/-- A draw between two values the spec allows, by a free bit (log 9). -/
def pick (b : Bool) (old new : Byte) : Byte := if b then new else old

/-- The byte some running command is going to write at address `a`, if one is (R71, R277); the fault of a command that
is going to break the host's contract (log 15). -/
def State.pendingByte (s : State) (a : Nat) : List Engine → Except Fault (Option Byte)
  | [] => .ok none
  | e :: es =>
    if e.busy then
      match runCommand { s with eng := e } with
      | .next t =>
        if inRange s.cfg.size e.outAddr.toNat t.eng.written a then .ok (some (t.mem.read a)) else s.pendingByte a es
      | .fault r => .error r
      | .refused _ => s.pendingByte a es
    else s.pendingByte a es

/-- A host access goes on at an address of the memory (R60) that is no device's (log 14, log 22). -/
def hostAddress (a : Nat) (f : State → Result) (s : State) : Result :=
  if s.cfg.size ≤ a then .fault .noSuchAddress
  else if s.cfg.onDevice a 1 then .refused .deviceAccess
  else f s

/-- The host reads a byte: the byte in memory, or while a command that is going to write it runs, a draw between that
byte and the byte it is going to write (R71). -/
def hostRead (a : Nat) : State → Result :=
  hostAddress a fun s =>
    match s.pendingByte a s.engines with
    | .error r => .fault r
    | .ok none => .next { s with mdata := s.mem.read a }
    | .ok (some new) =>
      .next { s with mdata := pick (Config.freeBit s.draws) (s.mem.read a) new, draws := s.draws + 1 }

/-- Whether `a` lies in the input range of a running command (R276). -/
def State.inputInUse (s : State) (a : Nat) : Bool :=
  s.engines.any fun e => e.busy && inRange s.cfg.size e.inAddr.toNat e.inLen.toNat a

/-- The host writes a byte; a byte of a running command's input or output range it must not write (R276, R277). -/
def hostWrite (a : Nat) (b : Byte) : State → Result :=
  hostAddress a fun s =>
    if s.inputInUse a then .fault (.hostContract .inputWritten)
    else
      match s.pendingByte a s.engines with
      | .error r => .fault r
      | .ok (some _) => .fault (.hostContract .outputWritten)
      | .ok none => .next { s with mem := s.mem.write a b }

/-- Each of `len` output bytes becomes its old or its would-be value, drawn byte by byte (R271). -/
def drawBytes (base : Word) (new : Memory) : Nat → State → State
  | 0, s => s
  | k + 1, s =>
    let s := drawBytes base new k s
    let a := s.cfg.addr base k
    { s with
      mem := s.mem.write a (pick (Config.freeBit s.draws) (s.mem.read a) (new.read a))
      draws := s.draws + 1 }

/-- The running command of instance `e`, if any, is abandoned (R271). -/
def abandon (e : Engine) (s : State) : Result :=
  if e.busy then
    match runCommand { s with eng := e } with
    | .next t => .next (drawBytes e.outAddr t.mem t.eng.written s)
    | .fault r => .fault r
    | .refused r => .refused r
  else .next s

/-- The running commands of a list of instances are abandoned. -/
def abandonAll : List Engine → State → Result
  | [], s => .next s
  | e :: es, s => andThen (abandon e s) (abandonAll es)

/-- Every instance's registers at their reset values; memory, key ROM and the host's own fields stay (R270, R273). -/
def State.resetEngines (s : State) : State :=
  { s with
    eng := s.eng.toReset
    left := s.left.map Engine.toReset
    right := s.right.map Engine.toReset }

/-- The reset event (R270, R271), of the whole platform (log 21). -/
def hostReset (s : State) : Result := andThen (abandonAll s.engines s) fun s => .next s.resetEngines

/-- The accesses that follow go to instance `k` (R255). -/
def selectEngine (k : Nat) (s : State) : Result :=
  match s.engines.drop k with
  | e :: es => .next { s with left := s.engines.take k, eng := e, right := es }
  | [] => .refused .noSuchEngine

/-- The index of the first busy instance, if any (R285: an engine that is busy eventually takes its next step). -/
def State.firstBusy (s : State) : Option Nat := s.engines.findIdx? fun e => e.busy

end Sys2Proof.Machine
end

