-- ==== Sys2Proof/Machine/Sequencer.lean ====
section
/-! DEFINITION. The sequencer of one engine step (10_state.md R40): which instruction of the opcode table it issues in
the phase it is in, and what it does around it. -/

namespace Sys2Proof.Machine

/-- The instruction the sequencer issues next, if its phase issues one: the header byte at P (PARSE), LOOKUP,
DERIVE_IV, the marker (SETUP), XOR_STREAM. A busy instance in phase IDLE has a captured opcode it has not begun. -/
def State.issue (s : State) : Option Instr :=
  if s.eng.busy then
    match s.eng.phase with
    | .idle => some (decodeCmd s.eng.op)
    | .parse =>
      match s.eng.field with
      | some f => if s.eng.p < s.n then some (decodeHeaderByte f (s.inByte s.eng.p)) else none
      | none => none
    | .checkCap => none
    | .lookup => some .lookup
    | .derive => some .deriveIv
    | .setup => some (decodeHeaderByte .marker s.eng.marker)
    | .stream => some .xorStream
    | .copy => none
  else none

/-- What the sequencer does after the instruction it issued in phase `ph`. -/
def advance (ph : Phase) (s : State) : Result :=
  match ph with
  | .lookup => afterLookup s
  | .derive => afterDerive s
  | .stream => afterStream s
  | .idle => .next s
  | .parse => .next s
  | .checkCap => .next s
  | .setup => .next s
  | .copy => .next s

/-- A step that issues no instruction: a header that is complete or cut short (PARSE), the capacity checks, the copy.
An instance that is not busy stays as it is. -/
def controlStep (s : State) : Result :=
  if s.eng.busy then
    match s.eng.phase with
    | .parse =>
      match s.eng.field with
      | some _ => raiseStatus .fileCorrupt s
      | none => .next (s.modEng fun e => { e with phase := .checkCap })
    | .checkCap => if s.eng.op = 0x00000001 then decryptCap s else copyCap s
    | .copy => copyPhase s
    | .idle => .next s
    | .lookup => .next s
    | .derive => .next s
    | .setup => .next s
    | .stream => .next s
  else .next s

/-! ### Placing an instruction -/

/-- The registers with a CMD word accepted and its command not yet run: the phase it begins in (R40), the opcode
captured (R219). -/
def Engine.placeCmd (v : Word) (e : Engine) : Engine :=
  { e with busy := true, done := false, fatal := false, op := v, phase := .idle }

/-- Where a field stands in the shortest header that holds it: keyIdSize at 0, ivSize at 1 (K = 0), cipherMarker at 6
(K = 0, V = 4) (R100). -/
def fieldOffset : FrameField → Nat
  | .kis => 0
  | .ivs => 1
  | .marker => 6

/-- The registers with a DECRYPT in phase PARSE about to decode field `f` of an input that is long enough for the
longest header (19 bytes, R134). -/
def Engine.placeField (f : FrameField) (e : Engine) : Engine :=
  { e with
    busy := true, done := false, fatal := false, op := 0x00000001, phase := .parse
    field := some f, p := fieldOffset f, inLen := 19 }

/-- A state whose very next step runs the instruction of a table word (log 17). -/
def State.place (s : State) : Slot × List Byte → State
  | (.cmd, bs) => { s.modEng (Engine.placeCmd (le32at bs 0)) with script := [] }
  | (.header f, bs) =>
    let s := s.modEng (Engine.placeField f)
    { s with mem := s.mem.write (s.cfg.addr s.eng.inAddr s.eng.p) (bs.getD 0 0), script := [.engineTurn] }

end Sys2Proof.Machine
end

