-- ==== Sys2Proof/Machine/Dispatch.lean ====
section
/-! DEFINITION. The dispatch: one arm per constructor of Instr. -/

namespace Sys2Proof.Machine

def exec (i : Instr) (s : State) : Host.Outcome State Fault Refusal :=
  match i with
  | .decrypt => Sys2Proof.Machine.execDecrypt s
  | .directCopy => Sys2Proof.Machine.execDirectCopy s
  | .illegalCmd op => Sys2Proof.Machine.execIllegalCmd op s
  | .regWrite size off v => Sys2Proof.Machine.execRegWrite size off v s
  | .regRead size off => Sys2Proof.Machine.execRegRead size off s
  | .frameKis0 => Sys2Proof.Machine.execFrameKis0 s
  | .frameKis8 => Sys2Proof.Machine.execFrameKis8 s
  | .frameKisOther b => Sys2Proof.Machine.execFrameKisOther b s
  | .frameIvs4 => Sys2Proof.Machine.execFrameIvs4 s
  | .frameIvs8 => Sys2Proof.Machine.execFrameIvs8 s
  | .frameIvsOther b => Sys2Proof.Machine.execFrameIvsOther b s
  | .frameMarkerS => Sys2Proof.Machine.execFrameMarkerS s
  | .frameMarkerA => Sys2Proof.Machine.execFrameMarkerA s
  | .frameMarkerOther b => Sys2Proof.Machine.execFrameMarkerOther b s
  | .lookup => Sys2Proof.Machine.execLookup s
  | .parse => Sys2Proof.Machine.execParse s
  | .deriveIv => Sys2Proof.Machine.execDeriveIv s
  | .keySetup k => Sys2Proof.Machine.execKeySetup k s
  | .quarterRound a b c d => Sys2Proof.Machine.execQuarterRound a b c d s
  | .columnRound => Sys2Proof.Machine.execColumnRound s
  | .rowRound => Sys2Proof.Machine.execRowRound s
  | .doubleRound => Sys2Proof.Machine.execDoubleRound s
  | .block => Sys2Proof.Machine.execBlock s
  | .ctrInc => Sys2Proof.Machine.execCtrInc s
  | .xorStream => Sys2Proof.Machine.execXorStream s

end Sys2Proof.Machine
end

