-- ==== Sys2Proof/Machine/Turns.lean ====
section
/-! DEFINITION. The turns of the agents: an engine step, a running command's run to its end, an event of the host. -/

namespace Sys2Proof.Machine

/-- One engine step of the selected instance (R285): the instruction its phase issues, and what the sequencer does
around it. -/
def engineStep (s : State) : Result :=
  match s.issue with
  | some i => andThen (exec i s) (advance s.eng.phase)
  | none => controlStep s

/-- The selected instance's running command, from where it is to its end. -/
def engineRun (s : State) : Result := exec (decodeCmd s.eng.op) s

/-- The running command of instance `k` runs to its end; the instance selected before stays the selected one (R255). -/
def runInstance (k : Nat) (s : State) : Result :=
  andThen (selectEngine k s) fun u => andThen (engineRun u) (selectEngine s.left.length)

/-- The engines' turn (R285, R219): a busy instance runs its command, the selected one first, else the first of the
others; with no busy instance nothing changes (R272; log 12). -/
def enginesRun (s : State) : Result :=
  if s.eng.busy then engineRun s
  else
    match s.firstBusy with
    | some k => runInstance k s
    | none => .next s

/-- One event of the host (R110), taken from the front of its queue; `s` is the state with the event taken off.
WAIT reads STATUS; while neither DONE nor FATAL is set the engines get the turn and the WAIT stays. -/
def hostStep (ev : HostEvent) (s : State) : Result :=
  match ev with
  | .access a =>
    match decodeAccess a with
    | .ok i => exec i s
    | .error _ => .refused .badAccess
  | .wait =>
    let r := { s with rdata := s.eng.statusWord }
    if s.eng.done ∨ s.eng.fatal then .next r else enginesRun { r with script := HostEvent.wait :: r.script }
  | .memWrite a b => hostWrite a b s
  | .memRead a => hostRead a s
  | .reset => hostReset s
  | .select k => selectEngine k s
  | .engineTurn => engineStep s

end Sys2Proof.Machine
end

