-- ==== Sys2Proof/Machine/Step.lean ====
section
/-! DEFINITION. One step of the machine: the host's next event, or with none pending the engines' turn. -/

namespace Sys2Proof.Machine

/-- One step: the host's next event; with none pending the engines' turn (log 12). -/
def step (s : State) : Host.Outcome State Fault Refusal :=
  match s.script with
  | ev :: rest => hostStep ev { s with script := rest }
  | [] => enginesRun s

/-- `s` with the instruction of a table word placed so that the very next step runs it (log 17). A word of no row's
width places nothing. -/
def State.withFetchWord (s : State) (nbits w : Nat) : State :=
  match tableSlot nbits w with
  | some slot => s.place slot
  | none => s

end Sys2Proof.Machine
end

