-- ==== Sys2Proof/Machine/Script.lean ====
section
/-! DEFINITION. The host-script notation and its pseudo-instructions (30_encoding.md R110, R111). -/

namespace Sys2Proof.Machine

/-- Offsets of the register window (10_state.md R21). -/
inductive HostReg where
  | cmd | status | inAddr | inLen | outAddr | outLen | frameIndex | reserved
  deriving DecidableEq, Repr

/-- The byte offset of a register (R21). -/
def HostReg.offset : HostReg → Nat
  | .cmd => 0x00
  | .status => 0x04
  | .inAddr => 0x08
  | .inLen => 0x0C
  | .outAddr => 0x10
  | .outLen => 0x14
  | .frameIndex => 0x18
  | .reserved => 0x1C

/-- `W <REG>, <value>` (R110). -/
def hostW (r : HostReg) (v : Word) : HostEvent := .access ⟨true, 4, r.offset, v⟩

/-- `R <REG>` (R110); the result goes to `rdata`. -/
def hostR (r : HostReg) : HostEvent := .access ⟨false, 4, r.offset, 0⟩

/-- `MEM[a] = b0 b1 ...` (R110). -/
def hostMem (a : Nat) : List Byte → List HostEvent
  | [] => []
  | b :: bs => .memWrite a b :: hostMem (a + 1) bs

/-- `DECRYPT in, n, out, cap, fi` (R111). -/
def scriptDecrypt (inA n out cap fi : Word) : List HostEvent :=
  [hostW .inAddr inA, hostW .inLen n, hostW .outAddr out, hostW .outLen cap, hostW .frameIndex fi,
    hostW .cmd 0x00000001, .wait]

/-- `COPY in, n, out, cap` (R111). -/
def scriptCopy (inA n out cap : Word) : List HostEvent :=
  [hostW .inAddr inA, hostW .inLen n, hostW .outAddr out, hostW .outLen cap, hostW .cmd 0x00000002, .wait]

/-- A 64-bit value as 8 little-endian bytes (R67). -/
def leBytes64 (k : DWord) : List Byte := leBytes (k.setWidth 32) ++ leBytes ((k >>> 32).setWidth 32)

/-- `FRAME(kid0 | kid8=k, iv, m, payload)` (R111): the bytes of a frame, its ivSize the length of `iv`. -/
def frameBytes (kid : Option DWord) (iv : List Byte) (m : Byte) (payload : List Byte) : List Byte :=
  (match kid with
    | none => [0x00]
    | some k => 0x08 :: leBytes64 k)
    ++ BitVec.ofNat 8 iv.length :: iv ++ m :: payload

end Sys2Proof.Machine
end

