-- ==== Sys2Proof/Safety.lean ====
section
/-! DEFINITION. The terms claims use: safe states and runs, what is visible, the machine's invariants, the reading of a
frame header that 30_encoding.md gives. -/

namespace Sys2Proof.Machine

/-! ### Safe runs -/

/-- An instance in the fatal state is no safe end: R248 has a model treat FATAL = 1 as a fault that is never final
(log 16). -/
abbrev State.Safe (s : State) : Prop := ∀ e ∈ s.engines, e.fatal = false

/-- A run of k steps that stops at no fault and no refusal and passes through safe states only. -/
def SafeRun : Nat → State → Prop
  | 0, s => s.Safe
  | k + 1, s => s.Safe ∧ ∃ t, step s = .next t ∧ SafeRun k t

/-- `k` engine steps of the selected instance. -/
def engineSteps : Nat → State → Result
  | 0, s => .next s
  | k + 1, s => andThen (engineStep s) (engineSteps k)

/-! ### What is visible -/

/-- The operand registers the engine never writes (R29, R30, R32) are equal. -/
abbrev Engine.SameOperands (a b : Engine) : Prop :=
  a.inAddr = b.inAddr ∧ a.inLen = b.inLen ∧ a.outAddr = b.outAddr ∧ a.frameIndex = b.frameIndex

/-- The host-visible registers (R21, R24) are equal. -/
abbrev Engine.SameVisible (a b : Engine) : Prop :=
  a.SameOperands b ∧ a.outLen = b.outLen ∧ a.busy = b.busy ∧ a.done = b.done ∧ a.fatal = b.fatal ∧ a.code = b.code

/-- Everything but the memory and the selected instance is equal. -/
abbrev State.SameAround (s t : State) : Prop :=
  t.cfg = s.cfg ∧ t.left = s.left ∧ t.right = s.right ∧ t.script = s.script ∧ t.rdata = s.rdata ∧ t.mdata = s.mdata ∧
    t.draws = s.draws

/-- `t` is `s` with its command ended by status `c` and nothing else visible changed: no memory byte, no register but
STATUS (R244, R252). -/
abbrev State.EndedWith (c : StatusCode) (s t : State) : Prop :=
  t.mem = s.mem ∧ s.SameAround t ∧ t.eng.SameOperands s.eng ∧ t.eng.outLen = s.eng.outLen ∧ t.eng.fatal = s.eng.fatal ∧
    t.eng.code = c.bits ∧ t.eng.busy = false ∧ t.eng.done = true ∧ t.eng.phase = .idle

/-! ### Invariants -/

/-- What holds of one instance in every reachable state: PHASE is IDLE exactly when BUSY = 0 (R40), never BUSY and DONE
together (R25), no CODE above 6 (R240), address registers below 2^ADDR_W (R29), FATAL only with the registers of R247,
a running command is DECRYPT or DIRECT_COPY in one of its own phases (R40), with no buffer on memory with read side
effects (R66). -/
abbrev Engine.Inv (c : Config) (e : Engine) : Prop :=
  (e.phase = .idle ↔ e.busy = false) ∧ ¬ (e.busy = true ∧ e.done = true) ∧ e.code.toNat ≤ 6 ∧
    e.inAddr.toNat < c.size ∧ e.outAddr.toNat < c.size ∧
    (e.fatal = true → e.busy = false ∧ e.done = true ∧ e.code = 6) ∧
    (e.busy = true →
      (e.op = 0x00000001 ∧ e.phase ≠ .copy) ∨ (e.op = 0x00000002 ∧ (e.phase = .checkCap ∨ e.phase = .copy))) ∧
    (e.busy = true → e.onDevice c = false)

/-- What holds in every reachable state: R8's constraints on the parameters, the canonical form of the memory inside its
address space (R60), and `Engine.Inv` of every instance. -/
abbrev State.Inv (s : State) : Prop :=
  s.cfg.Ok ∧ s.mem.Wf ∧ (∀ c ∈ s.mem, c.1 < s.cfg.size) ∧ ∀ e ∈ s.engines, e.Inv s.cfg

/-- The header registers of a complete header (R134): legal sizes and marker, POFF = 3 + KIS + IVS ≤ n. -/
abbrev Engine.HeaderComplete (e : Engine) : Prop :=
  (e.kis = 0x00 ∨ e.kis = 0x08) ∧ (e.ivs = 0x04 ∨ e.ivs = 0x08) ∧ (e.marker = 0x53 ∨ e.marker = 0x41) ∧
    e.poff = 3 + e.kis.toNat + e.ivs.toNat ∧ e.poff ≤ e.inLen.toNat

/-- Where a running DECRYPT stands in its header (R130, R134, R135): P at the field it decodes next and that byte in
the input, the fields before it legal; complete once PARSE is over; XOR_STREAM only for the marker 'S' (R215). -/
def Engine.HeaderInv (e : Engine) : Prop :=
  e.busy = true → e.op = 0x00000001 →
    match e.phase with
    | .parse =>
      match e.field with
      | some .kis => e.p = 0
      | some .ivs => (e.kis = 0x00 ∨ e.kis = 0x08) ∧ e.p = 1 + e.kis.toNat ∧ e.p < e.inLen.toNat
      | some .marker =>
        (e.kis = 0x00 ∨ e.kis = 0x08) ∧ (e.ivs = 0x04 ∨ e.ivs = 0x08) ∧ e.p = 2 + e.kis.toNat + e.ivs.toNat ∧
          e.p < e.inLen.toNat
      | none => e.HeaderComplete
    | .checkCap => e.HeaderComplete
    | .lookup => e.HeaderComplete
    | .derive => e.HeaderComplete
    | .setup => e.HeaderComplete
    | .stream => e.HeaderComplete ∧ e.marker = 0x53
    | .idle => True
    | .copy => True

/-! ### A frame header, read as 30_encoding.md R100 lays it out -/

/-- keyIdSize (R101). -/
abbrev frameK (inp : Nat → Byte) : Byte := inp 0

/-- ivSize (R103). -/
abbrev frameV (inp : Nat → Byte) : Byte := inp (1 + (frameK inp).toNat)

/-- cipherMarker (R105). -/
abbrev frameM (inp : Nat → Byte) : Byte := inp (2 + (frameK inp).toNat + (frameV inp).toNat)

/-- The header length (R106). -/
abbrev framePoff (inp : Nat → Byte) : Nat := 3 + (frameK inp).toNat + (frameV inp).toNat

/-- KEYID (R102). -/
def frameKeyId (inp : Nat → Byte) : DWord := le64 (fun i => inp (1 + i)) (frameK inp).toNat

/-- BASE_IV (R104). -/
def frameIv (inp : Nat → Byte) : Vector Byte 8 :=
  Vector.ofFn fun i : Fin 8 => if i.val < (frameV inp).toNat then inp (2 + (frameK inp).toNat + i.val) else 0x00

/-- The status PARSE ends a command with, none when it accepts the header: the exact causes of R241 and R242 in the
order of R133 and R250. -/
def frameStatus (n : Nat) (inp : Nat → Byte) : Option StatusCode :=
  if n = 0 then some .fileCorrupt
  else if frameK inp ≠ 0x00 ∧ frameK inp ≠ 0x08 then some .notSupported
  else if n ≤ 1 + (frameK inp).toNat then some .fileCorrupt
  else if frameV inp ≠ 0x04 ∧ frameV inp ≠ 0x08 then some .notSupported
  else if n ≤ 2 + (frameK inp).toNat + (frameV inp).toNat then some .fileCorrupt
  else if frameM inp ≠ 0x53 ∧ frameM inp ≠ 0x41 then some .notSupported
  else none

/-- The place of a DECRYPT just accepted (R219, R130). -/
abbrev Engine.InFirstField (e : Engine) : Prop := e.phase = .parse ∧ e.p = 0 ∧ e.field = some .kis

/-- DECRYPT has everything still to do: it has been selected and has not begun, or has just been accepted (R219). -/
abbrev State.Fresh (s : State) : Prop :=
  (s.eng.phase = .idle ∧ s.eng.onDevice s.cfg = false) ∨ s.eng.InFirstField

/-! ### Acceptance, and commands that run at the same time -/

/-- The registers of an accepted DECRYPT (R219): BUSY, not DONE, the opcode captured, in the first phase (R40). -/
abbrev Engine.decryptStarted (e : Engine) : Engine :=
  { e with busy := true, done := false, op := 0x00000001, phase := .parse, p := 0, field := some .kis }

/-- The registers of an accepted DIRECT_COPY (R219). -/
abbrev Engine.copyStarted (e : Engine) : Engine :=
  { e with busy := true, done := false, op := 0x00000002, phase := .checkCap }

/-- Two ranges share an address (R61, R281). -/
abbrev State.Meet (s : State) (a : Word) (la : Nat) (b : Word) (lb : Nat) : Prop :=
  ∃ i, i < la ∧ ∃ j, j < lb ∧ s.cfg.addr a i = s.cfg.addr b j

/-- The commands of two instances break R281: the output range of one, the bytes it is going to write, meets an input or
output range of the other. -/
abbrev State.Conflict (s : State) (a b : Engine) : Prop :=
  s.Meet a.outAddr (s.willWrite a) b.inAddr b.inLen.toNat ∨
    s.Meet a.outAddr (s.willWrite a) b.outAddr (s.willWrite b) ∨
    s.Meet b.outAddr (s.willWrite b) a.inAddr a.inLen.toNat

/-! ### The keystream of a matrix -/

/-- The 64-bit block counter of a matrix (R47). -/
def counterOf (x : Matrix16) : DWord := x[9] ++ x[8]

/-- Byte j of the keystream that starts at the counter of `x` (R181): byte `j mod 64` of the block whose counter is
`j / 64` further. -/
def streamByte (x : Matrix16) (j : Nat) : Byte :=
  (blockBytes (withCounter x (counterOf x + BitVec.ofNat 64 (j / 64)))).toList.getD (j % 64) 0

end Sys2Proof.Machine
end

