-- ==== Sys2Proof/Certificates/Slice0/Obligations.lean ====
section
/-! DEFINITION. The statements for the provers. -/

open Sys2Proof Sys2Proof.Machine

/-! ### Encodings and the step -/

/-- Decoding the encoding of a well-formed instruction gives it back, with every operand, from its bytes alone or with
bytes behind them; only the INTERNAL rows have no encoding (30_encoding.md R90 to R96, R101, R103, R105). -/
def Obligations.DecodeOfEncode : Prop :=
  ∀ i : Instr, i.wellFormed = true →
    (∀ e, encode i = some e → decode e = .ok i) ∧
    (∀ slot bs rest, encode i = some (.bytes slot bs) → decodeBytes slot (bs ++ rest) = .ok (i, rest)) ∧
    (encode i = none ↔ i.format = .internal)

/-- Whatever the decoder reads from bytes is well-formed, and its encoding is those bytes: each encoding has one
meaning and every CMD word and every header byte has one (R92, R93, R101, R103, R105). -/
def Obligations.EncodeOfDecode : Prop :=
  ∀ slot bs i rest, decodeBytes slot bs = .ok (i, rest) →
    i.wellFormed = true ∧ ∃ enc, encode i = some (.bytes slot enc) ∧ bs = enc ++ rest

/-- R91 and R92: the opcode assignments of the CMD word, and every other value illegal. That a table word of 32 bits is
such a word is the model's choice (log 17). -/
def Obligations.OpcodeAssignments : Prop :=
  decodeCmd 0x00000001 = .decrypt ∧ decodeCmd 0x00000002 = .directCopy ∧
    decodeTableWord 32 0x00000001 = some .decrypt ∧ decodeTableWord 32 0x00000002 = some .directCopy ∧
    ∀ v, v ≠ 0x00000001 → v ≠ 0x00000002 → decodeCmd v = .illegalCmd v

/-- The header bytes of R101, R103 and R105, written out, decode by their field; every other value is the field's row
"every other value". -/
def Obligations.HeaderByteCodes : Prop :=
  decodeHeaderByte .kis 0b00000000 = .frameKis0 ∧ decodeHeaderByte .kis 0b00001000 = .frameKis8 ∧
    decodeHeaderByte .ivs 0b00000100 = .frameIvs4 ∧ decodeHeaderByte .ivs 0b00001000 = .frameIvs8 ∧
    decodeHeaderByte .marker 0b01010011 = .frameMarkerS ∧ decodeHeaderByte .marker 0b01000001 = .frameMarkerA ∧
    (∀ b, b ≠ 0x00 → b ≠ 0x08 → decodeHeaderByte .kis b = .frameKisOther b) ∧
    (∀ b, b ≠ 0x04 → b ≠ 0x08 → decodeHeaderByte .ivs b = .frameIvsOther b) ∧
    ∀ b, b ≠ 0x53 → b ≠ 0x41 → decodeHeaderByte .marker b = .frameMarkerOther b

/-- A step runs the decoded instruction: a register access at the head of the host's queue; the header byte at P on an
engine step in PARSE; the instruction the sequencer issues, then what it does around it; with no host event the running
command, of the selected instance or else of the first busy one, after which the selected instance is selected again
(log 12). The step takes the host's event off its queue and does nothing else. -/
def Obligations.StepRunsDecoded : Prop :=
  (∀ (s : State) (a : BusAccess) (rest : List HostEvent) (i : Instr), s.script = .access a :: rest → decodeAccess a = .ok i →
    step s = exec i { s with script := rest }) ∧
  (∀ (s : State) (rest : List HostEvent) (f : FrameField) (i : Instr), s.script = .engineTurn :: rest → s.eng.busy = true → s.eng.phase = .parse → s.eng.field = some f →
    s.eng.p < s.n → decodeBytes (.header f) [s.inByte s.eng.p] = .ok (i, []) →
    step s = exec i { s with script := rest }) ∧
  (∀ (s : State) (rest : List HostEvent) (i : Instr), s.script = .engineTurn :: rest → s.issue = some i →
    step s = andThen (exec i { s with script := rest }) (advance s.eng.phase)) ∧
  (∀ s : State, s.script = [] → s.eng.busy = true → step s = exec (decodeCmd s.eng.op) s) ∧
  ∀ (s : State) (k : Nat) (o : Engine), s.script = [] → s.eng.busy = false → s.engines[k]? = some o → o.busy = true →
    (∀ e ∈ s.engines.take k, e.busy = false) →
    step s = andThen (exec (decodeCmd o.op) { s with left := s.engines.take k, eng := o, right := s.engines.drop (k + 1) })
      (selectEngine s.left.length)

/-- A word placed by `withFetchWord` is the instruction the decoder reads from it, and the very next step is that
instruction (log 17). -/
def Obligations.PlacedWordRuns : Prop :=
  ∀ (s : State) (nbits w : Nat) (i : Instr), s.mem.Wf → decodeTableWord nbits w = some i →
    step (s.withFetchWord nbits w) = exec i { s.withFetchWord nbits w with script := [] }

/-! ### The register window -/

/-- R22: a register access of another size or at another offset is refused, and no other is. -/
def Obligations.RegisterAccessRefused : Prop :=
  ∀ (size off : Nat) (v : Word) (s : State),
    (exec (.regWrite size off v) s = .refused .badAccess ↔ ¬ (size = 4 ∧ off % 4 = 0 ∧ off ≤ 0x1C)) ∧
    (exec (.regRead size off) s = .refused .badAccess ↔ ¬ (size = 4 ∧ off % 4 = 0 ∧ off ≤ 0x1C)) ∧
    ∀ w rest, s.script = .access ⟨w, size, off, v⟩ :: rest →
      (step s = .refused .badAccess ↔ ¬ (size = 4 ∧ off % 4 = 0 ∧ off ≤ 0x1C))

/-- R220 and R221: a write to CMD while BUSY or FATAL is ignored; a write to another offset, by offset, the operand
registers only while BUSY = 0 and whatever FATAL is. Nothing else changes. -/
def Obligations.RegisterWriteByOffset : Prop :=
  ∀ (v : Word) (s : State),
    (s.eng.busy = true ∨ s.eng.fatal = true → exec (.regWrite 4 0x00 v) s = .next s) ∧
    exec (.regWrite 4 0x04 v) s = .next s ∧
    exec (.regWrite 4 0x1C v) s = .next s ∧
    (s.eng.busy = true → ∀ off, off = 0x08 ∨ off = 0x0C ∨ off = 0x10 ∨ off = 0x14 ∨ off = 0x18 →
      exec (.regWrite 4 off v) s = .next s) ∧
    (s.eng.busy = false →
      exec (.regWrite 4 0x08 v) s
        = .next { s with eng := { s.eng with inAddr := BitVec.ofNat 32 (v.toNat % 2 ^ s.cfg.addrW) } } ∧
      exec (.regWrite 4 0x0C v) s = .next { s with eng := { s.eng with inLen := v } } ∧
      exec (.regWrite 4 0x10 v) s
        = .next { s with eng := { s.eng with outAddr := BitVec.ofNat 32 (v.toNat % 2 ^ s.cfg.addrW) } } ∧
      exec (.regWrite 4 0x14 v) s = .next { s with eng := { s.eng with outLen := v } } ∧
      exec (.regWrite 4 0x18 v) s = .next { s with eng := { s.eng with frameIndex := v } })

/-- R222: the value a register read returns, by offset, STATUS as BUSY + 2·DONE + 4·FATAL + 16·CODE; no other state
changes, at any time. -/
def Obligations.RegisterReadByOffset : Prop :=
  ∀ s : State,
    exec (.regRead 4 0x00) s = .next { s with rdata := 0 } ∧
    (∃ w : Word, exec (.regRead 4 0x04) s = .next { s with rdata := w } ∧
      w.toNat = s.eng.busy.toNat + 2 * s.eng.done.toNat + 4 * s.eng.fatal.toNat + 16 * s.eng.code.toNat) ∧
    exec (.regRead 4 0x08) s = .next { s with rdata := s.eng.inAddr } ∧
    exec (.regRead 4 0x0C) s = .next { s with rdata := s.eng.inLen } ∧
    exec (.regRead 4 0x10) s = .next { s with rdata := s.eng.outAddr } ∧
    exec (.regRead 4 0x14) s = .next { s with rdata := s.eng.outLen } ∧
    exec (.regRead 4 0x18) s = .next { s with rdata := s.eng.frameIndex } ∧
    exec (.regRead 4 0x1C) s = .next { s with rdata := 0 }

/-- R219: an accepted write of DECRYPT's or DIRECT_COPY's opcode sets BUSY, clears DONE and starts the command in its
first phase (R40); the operand registers, the memory and every other instance stay, whether or not commands run there, as
long as none of them breaks R281 with the new one. A buffer on memory with read side effects breaks the contract (R66,
R280(c)), at acceptance (log 13). -/
def Obligations.CommandAcceptance : Prop :=
  ∀ s : State, s.eng.busy = false → s.eng.fatal = false →
    (s.eng.onDevice s.cfg = true →
      exec (.regWrite 4 0x00 0x00000001) s = .fault (.hostContract .deviceMemory) ∧
      exec (.regWrite 4 0x00 0x00000002) s = .fault (.hostContract .deviceMemory)) ∧
    (s.eng.onDevice s.cfg = false →
      ((∀ o ∈ s.others, o.busy = true → ¬ s.Conflict s.eng.decryptStarted o) →
        exec (.regWrite 4 0x00 0x00000001) s = .next { s with eng := s.eng.decryptStarted }) ∧
      ((∀ o ∈ s.others, o.busy = true → ¬ s.Conflict s.eng.copyStarted o) →
        exec (.regWrite 4 0x00 0x00000002) s = .next { s with eng := s.eng.copyStarted }))

/-- R218: every other CMD value ends with IllegalCommand: CODE = 5, DONE, not BUSY, FATAL and OUT_LEN and the memory
unchanged, whatever the operand registers and the memory hold; an accepted write of it leaves STATUS = 0x52 when it is
read (the model's reading of R40: in the same step, log 2). -/
def Obligations.IllegalCommandEnds : Prop :=
  ∀ (op : Word) (s : State),
    exec (.illegalCmd op) s
      = .next { s with eng := { s.eng with code := 5, busy := false, done := true, phase := .idle } } ∧
    (op ≠ 0x00000001 → op ≠ 0x00000002 → s.eng.busy = false → s.eng.fatal = false →
      ∃ t, exec (.regWrite 4 0x00 op) s = .next t ∧ t.eng.statusWord = 0x52 ∧ t.mem = s.mem ∧
        t.eng.outLen = s.eng.outLen ∧ t.eng.SameOperands s.eng)

/-! ### The key store -/

/-- R120 and R122: LOOKUP of keyId 0 is NotFound; else the scan examines the entries in table order, the first live
entry with the argument's keyId gives KEY, the sentinel ends the scan with NotFound and KEY unchanged, and an entry
after it is never reached. Nothing else is written. -/
def Obligations.LookupScan : Prop :=
  ∀ s : State,
    (s.eng.keyId = 0 → exec .lookup s = .next { s with eng := { s.eng with hit := false } }) ∧
    ∀ before e after, s.eng.keyId ≠ 0 → s.cfg.keyTable = before ++ e :: after →
      (∀ o ∈ before, o.keyId ≠ 0 ∧ o.keyId ≠ s.eng.keyId) →
      (e.keyId = s.eng.keyId → exec .lookup s = .next { s with eng := { s.eng with key := e.key, hit := true } }) ∧
      (e.keyId = 0 → exec .lookup s = .next { s with eng := { s.eng with hit := false } })

/-! ### The IV mixer -/

/-- R160: DERIVE_IV XORs bytes 0..3 of the base IV with the bytes of the frame index, least-significant first, and
copies bytes 4..7; only EIV is written. -/
def Obligations.DeriveIvBytes : Prop :=
  ∀ s : State, ∃ iv : Vector Byte 8,
    exec .deriveIv s = .next { s with eng := { s.eng with eiv := iv } } ∧
    (∀ i, (h : i < 4) → iv[i] = s.eng.baseIv[i] ^^^ (s.eng.frameIndex >>> (8 * i)).setWidth 8) ∧
    ∀ i, (h : i < 8) → 4 ≤ i → iv[i] = s.eng.baseIv[i]

/-- R161: as words the effective IV is the base IV with the frame index XORed into its first word; a second mixing
with the same index restores it; two frame indices never give the same effective IV. -/
def Obligations.DeriveIvWords : Prop :=
  ∀ (iv : Vector Byte 8) (fi : Word),
    le32at (mixIv iv fi).toList 0 = le32at iv.toList 0 ^^^ fi ∧
    le32at (mixIv iv fi).toList 4 = le32at iv.toList 4 ∧
    mixIv (mixIv iv fi) fi = iv ∧
    ∀ gi, mixIv iv gi = mixIv iv fi → gi = fi

/-! ### The Salsa20 engine -/

/-- R170 with R171's words: KEY_SETUP from the register KEY, from a key of 16 bytes (the key words twice) and from one
of 32 bytes; the counter is 0; only X is written. R170, U16: any other key length is refused. -/
def Obligations.KeySetupMatrix : Prop :=
  ∀ s : State,
    (∃ x, exec (.keySetup .keyReg) s = .next { s with eng := { s.eng with x := x } } ∧
      exec (.keySetup (.bytes s.eng.key.toList)) s = .next { s with eng := { s.eng with x := x } }) ∧
    (∀ k : List Byte, k.length = 16 ∨ k.length = 32 → ∃ x : Matrix16,
      exec (.keySetup (.bytes k)) s = .next { s with eng := { s.eng with x := x } } ∧
      x[1] = le32at k 0 ∧ x[2] = le32at k 4 ∧ x[3] = le32at k 8 ∧ x[4] = le32at k 12 ∧
      x[6] = le32at s.eng.eiv.toList 0 ∧ x[7] = le32at s.eng.eiv.toList 4 ∧ x[8] = 0 ∧ x[9] = 0 ∧
      (k.length = 16 →
        x[0] = 0x61707865 ∧ x[5] = 0x3120646E ∧ x[10] = 0x79622D36 ∧ x[15] = 0x6B206574 ∧
        x[11] = le32at k 0 ∧ x[12] = le32at k 4 ∧ x[13] = le32at k 8 ∧ x[14] = le32at k 12) ∧
      (k.length = 32 →
        x[0] = 0x61707865 ∧ x[5] = 0x3320646E ∧ x[10] = 0x79622D32 ∧ x[15] = 0x6B206574 ∧
        x[11] = le32at k 16 ∧ x[12] = le32at k 20 ∧ x[13] = le32at k 24 ∧ x[14] = le32at k 28)) ∧
    ∀ k : List Byte, k.length ≠ 16 → k.length ≠ 32 → exec (.keySetup (.bytes k)) s = .refused .badKeyLength

/-- R173: QUARTERROUND on four distinct positions: the four words, each line using the values the lines before wrote;
no other word and no other state changes; all-zero gives all-zero; the operation is invertible; R173's example. -/
def Obligations.QuarterRoundWords : Prop :=
  ∀ a b c d : Fin 16, [a, b, c, d].Nodup →
    (∀ s : State, ∃ z : Matrix16,
      exec (.quarterRound a b c d) s = .next { s with eng := { s.eng with z := z } } ∧
      z[b] = s.eng.z[b] ^^^ (s.eng.z[a] + s.eng.z[d]).rotateLeft 7 ∧
      z[c] = s.eng.z[c] ^^^ (z[b] + s.eng.z[a]).rotateLeft 9 ∧
      z[d] = s.eng.z[d] ^^^ (z[c] + z[b]).rotateLeft 13 ∧
      z[a] = s.eng.z[a] ^^^ (z[d] + z[c]).rotateLeft 18 ∧
      (∀ i : Fin 16, i ≠ a → i ≠ b → i ≠ c → i ≠ d → z[i] = s.eng.z[i]) ∧
      (s.eng.z[a] = 0 → s.eng.z[b] = 0 → s.eng.z[c] = 0 → s.eng.z[d] = 0 →
        z[a] = 0 ∧ z[b] = 0 ∧ z[c] = 0 ∧ z[d] = 0) ∧
      (s.eng.z[a] = 1 → s.eng.z[b] = 0 → s.eng.z[c] = 0 → s.eng.z[d] = 0 →
        z[a] = 0x08008145 ∧ z[b] = 0x00000080 ∧ z[c] = 0x00010200 ∧ z[d] = 0x20500000)) ∧
    ∀ y z : Matrix16, quarterRound a b c d y = quarterRound a b c d z → y = z

/-- R174 to R176: a column round and a row round are the four quarter-rounds of R174 and R175 in any order; a double
round is a column round and then a row round. Only Z is written. -/
def Obligations.RoundsInAnyOrder : Prop :=
  ∀ s : State,
    (∀ l : List (Fin 16 × Fin 16 × Fin 16 × Fin 16),
      l.Perm [(0, 4, 8, 12), (5, 9, 13, 1), (10, 14, 2, 6), (15, 3, 7, 11)] →
      exec .columnRound s = l.foldl (fun o q => andThen o (exec (.quarterRound q.1 q.2.1 q.2.2.1 q.2.2.2))) (.next s)) ∧
    (∀ l : List (Fin 16 × Fin 16 × Fin 16 × Fin 16),
      l.Perm [(0, 1, 2, 3), (5, 6, 7, 4), (10, 11, 8, 9), (15, 12, 13, 14)] →
      exec .rowRound s = l.foldl (fun o q => andThen o (exec (.quarterRound q.1 q.2.1 q.2.2.1 q.2.2.2))) (.next s)) ∧
    exec .doubleRound s = andThen (exec .columnRound s) (exec .rowRound) ∧
    (∃ z, exec .columnRound s = .next { s with eng := { s.eng with z := z } }) ∧
    (∃ z, exec .rowRound s = .next { s with eng := { s.eng with z := z } }) ∧
    ∃ z, exec .doubleRound s = .next { s with eng := { s.eng with z := z } }

/-- R177 and R178: BLOCK copies X to Z, applies ten double rounds, and each word of KS read little-endian is the sum of
the words of Z and X; X and all else stay, and the all-zero matrix gives an all-zero block. -/
def Obligations.BlockKeystream : Prop :=
  ∀ s : State, ∃ (z : Matrix16) (ks : Vector Byte 64),
    exec .block s = .next { s with eng := { s.eng with z := z, ks := ks } } ∧
    ((List.replicate 10 Instr.doubleRound).foldl (fun o i => andThen o (exec i))
        (.next { s with eng := { s.eng with z := s.eng.x } })
      = .next { s with eng := { s.eng with z := z } }) ∧
    (∀ i, (h : i < 16) → le32at ks.toList (4 * i) = z[i] + s.eng.x[i]) ∧
    (∀ i j, (hi : i < 16) → (hj : j < 4) → ks[4 * i + j] = ((z[i] + s.eng.x[i]) >>> (8 * j)).setWidth 8) ∧
    (s.eng.x = Vector.replicate 16 0 → ks = Vector.replicate 64 0)

/-- R179: CTR_INC adds 1 to the low counter word, and to the high word when the low one has become 0; as a 64-bit
counter it adds 1 modulo 2^64. Nothing else changes. -/
def Obligations.CounterIncrement : Prop :=
  ∀ s : State, ∃ x : Matrix16,
    exec .ctrInc s = .next { s with eng := { s.eng with x := x } } ∧
    x[8] = s.eng.x[8] + 1 ∧
    (x[8] = 0 → x[9] = s.eng.x[9] + 1) ∧ (x[8] ≠ 0 → x[9] = s.eng.x[9]) ∧
    (∀ i : Fin 16, i ≠ 8 → i ≠ 9 → x[i] = s.eng.x[i]) ∧
    counterOf x = counterOf s.eng.x + 1

/-- R180 and R181: XOR_STREAM with disjoint buffers writes `out(j) = in(POFF + j) ^ keystream(j)` for every j < plen and
no other byte, from whatever counter X holds; POS ends at plen, the counter ⌈plen / 64⌉ further; no register but X, Z, KS
and POS changes. -/
def Obligations.XorStreamBytes : Prop :=
  ∀ s : State, s.mem.Wf → s.eng.poff ≤ s.n → contractBroken s.plen s = none → ∃ (m : Memory) (z : Matrix16) (ks : Vector Byte 64),
    exec .xorStream s
      = .next { s with
          mem := m
          eng := { s.eng with
            x := withCounter s.eng.x (counterOf s.eng.x + BitVec.ofNat 64 ((s.plen + 63) / 64))
            z := z, ks := ks, pos := s.plen } } ∧
    m.Wf ∧
    (∀ j, j < s.plen → m.read (s.outAt j) = s.inByte (s.eng.poff + j) ^^^ streamByte s.eng.x j) ∧
    ∀ a, (∀ j, j < s.plen → a ≠ s.outAt j) → m.read a = s.mem.read a

/-- XOR_STREAM completes in every state, whatever its buffers, and changes no memory byte outside its output range
(R180). -/
def Obligations.XorStreamCompletes : Prop :=
  ∀ s : State, ∃ t, exec .xorStream s = .next t ∧ s.SameAround t ∧ t.eng.SameVisible s.eng ∧
    (s.mem.Wf → t.mem.Wf ∧ ∀ a, (∀ j, j < s.plen → a ≠ s.outAt j) → t.mem.read a = s.mem.read a)

/-- R182(b): XOR_STREAM is its own inverse: run from the same matrix on an input that holds what a first run put out,
it gives the first run's input back. -/
def Obligations.XorStreamSelfInverse : Prop :=
  ∀ s t u v : State, s.mem.Wf → u.mem.Wf → s.eng.poff ≤ s.n → u.eng.poff ≤ u.n →
    contractBroken s.plen s = none → contractBroken u.plen u = none →
    u.eng.x = s.eng.x → u.plen = s.plen →
    exec .xorStream s = .next t →
    (∀ j, j < s.plen → u.inByte (u.eng.poff + j) = t.mem.read (s.outAt j)) →
    exec .xorStream u = .next v →
    ∀ j, j < s.plen → v.mem.read (u.outAt j) = s.inByte (s.eng.poff + j)

/-- R182(a) and (c): from the same matrix, the first L output bytes are a function of the first L payload bytes,
whatever lies behind them, how long the payloads are, where the buffers lie and what the other registers hold. -/
def Obligations.XorStreamOpening : Prop :=
  ∀ (L : Nat) (s t u v : State), s.mem.Wf → u.mem.Wf → s.eng.poff ≤ s.n → u.eng.poff ≤ u.n →
    contractBroken s.plen s = none → contractBroken u.plen u = none →
    u.eng.x = s.eng.x → L ≤ s.plen → L ≤ u.plen →
    (∀ j, j < L → u.inByte (u.eng.poff + j) = s.inByte (s.eng.poff + j)) →
    exec .xorStream s = .next t → exec .xorStream u = .next v →
    ∀ j, j < L → v.mem.read (u.outAt j) = t.mem.read (s.outAt j)

/-! ### The header parser -/

/-- R130: PARSE in every state: the checks in order decide the status it ends the command with, and with none it returns
the header of R100 (every register of R35), P and POFF at 3 + KIS + IVS; no other register and no memory byte
changes. -/
def Obligations.ParseHeader : Prop :=
  ∀ s : State,
    (∀ c, frameStatus s.n s.inByte = some c → ∃ t, exec .parse s = .next t ∧ s.EndedWith c t) ∧
    (frameStatus s.n s.inByte = none →
      exec .parse s
        = .next { s with
            eng := { s.eng with
              phase := .parse, field := none
              kis := frameK s.inByte, keyId := frameKeyId s.inByte, ivs := frameV s.inByte
              baseIv := frameIv s.inByte, marker := frameM s.inByte
              p := framePoff s.inByte, poff := framePoff s.inByte } })

/-- R102 and R104, byte by byte, of a header PARSE accepts: KEYID little-endian and zero-extended from K bytes at offset
1; the IV's V bytes at offset 2 + K copied in order and zero-padded on the right. -/
def Obligations.HeaderFieldBytes : Prop :=
  ∀ s : State, frameStatus s.n s.inByte = none → ∃ t, exec .parse s = .next t ∧
    t.eng.kis = s.inByte 0 ∧ t.eng.ivs = s.inByte (1 + (s.inByte 0).toNat) ∧
    (∀ i, i < 8 → (t.eng.keyId >>> (8 * i)).setWidth 8
      = if i < t.eng.kis.toNat then s.inByte (1 + i) else (0x00 : Byte)) ∧
    ∀ i, (h : i < 8) → t.eng.baseIv[i]
      = if i < t.eng.ivs.toNat then s.inByte (2 + t.eng.kis.toNat + i) else 0x00

/-- R132 with R101 and R102: a legal keyIdSize byte at P: with P + 1 + K < n the keyId is taken and P moves past it,
else the command ends with FileCorrupt. -/
def Obligations.KeyIdSizeByte : Prop :=
  ∀ s : State,
    (s.eng.p + 1 < s.n →
      exec .frameKis0 s
        = .next { s with
            eng := { s.eng with kis := 0x00, keyId := 0, p := s.eng.p + 1, field := some .ivs } }) ∧
    (s.n ≤ s.eng.p + 1 → ∃ t, exec .frameKis0 s = .next t ∧ s.EndedWith .fileCorrupt t) ∧
    (s.eng.p + 9 < s.n → ∃ k : DWord,
      exec .frameKis8 s
        = .next { s with
            eng := { s.eng with kis := 0x08, keyId := k, p := s.eng.p + 9, field := some .ivs } } ∧
      ∀ i, i < 8 → (k >>> (8 * i)).setWidth 8 = s.inByte (s.eng.p + 1 + i)) ∧
    (s.n ≤ s.eng.p + 9 → ∃ t, exec .frameKis8 s = .next t ∧ s.EndedWith .fileCorrupt t)

/-- R132 with R103 and R104: a legal ivSize byte at P: with P + 1 + V < n the IV is taken, zero-padded on the right, and
P moves past it, else the command ends with FileCorrupt. -/
def Obligations.IvSizeByte : Prop :=
  ∀ s : State,
    (s.eng.p + 5 < s.n → ∃ iv : Vector Byte 8,
      exec .frameIvs4 s
        = .next { s with
            eng := { s.eng with ivs := 0x04, baseIv := iv, p := s.eng.p + 5, field := some .marker } } ∧
      (∀ i, (h : i < 8) → iv[i] = if i < 4 then s.inByte (s.eng.p + 1 + i) else 0x00)) ∧
    (s.n ≤ s.eng.p + 5 → ∃ t, exec .frameIvs4 s = .next t ∧ s.EndedWith .fileCorrupt t) ∧
    (s.eng.p + 9 < s.n → ∃ iv : Vector Byte 8,
      exec .frameIvs8 s
        = .next { s with
            eng := { s.eng with ivs := 0x08, baseIv := iv, p := s.eng.p + 9, field := some .marker } } ∧
      (∀ i, (h : i < 8) → iv[i] = s.inByte (s.eng.p + 1 + i))) ∧
    (s.n ≤ s.eng.p + 9 → ∃ t, exec .frameIvs8 s = .next t ∧ s.EndedWith .fileCorrupt t)

/-- R101, R103, R105: every other size byte and, in PARSE, every other marker byte ends the command with NotSupported,
and nothing visible but STATUS changes. -/
def Obligations.UnsupportedByteEnds : Prop :=
  ∀ (b : Byte) (s : State),
    (∃ t, exec (.frameKisOther b) s = .next t ∧ s.EndedWith .notSupported t) ∧
    (∃ t, exec (.frameIvsOther b) s = .next t ∧ s.EndedWith .notSupported t) ∧
    (s.eng.phase ≠ .setup → ∃ t, exec (.frameMarkerOther b) s = .next t ∧ s.EndedWith .notSupported t)

/-- R105 and R130 step 5: PARSE accepts the markers 'S' and 'A' alike: MARKER holds the byte, P moves past it and POFF is
the new P. -/
def Obligations.MarkerByteAccepted : Prop :=
  ∀ s : State, s.eng.phase ≠ .setup →
    exec .frameMarkerS s
      = .next { s with
          eng := { s.eng with marker := 0x53, p := s.eng.p + 1, poff := s.eng.p + 1, field := none } } ∧
    exec .frameMarkerA s
      = .next { s with
          eng := { s.eng with marker := 0x41, p := s.eng.p + 1, poff := s.eng.p + 1, field := none } }

/-- R215 and R247: when DECRYPT dispatches on the marker: 'S' sets X up from KEY and EIV and goes on to XOR_STREAM, or
faults when the host's contract is broken (R223); 'A' and any other (log 19) enter the fatal state: CODE = 6, DONE,
FATAL, not BUSY, STATUS reads 0x66, OUT_LEN and the memory unchanged. -/
def Obligations.MarkerDispatch : Prop :=
  ∀ s : State, s.eng.phase = .setup →
    (contractBroken s.plen s = none →
      exec .frameMarkerS s
        = andThen (exec (.keySetup .keyReg) s) (fun u => .next { u with eng := { u.eng with phase := .stream } })) ∧
    (∀ v, contractBroken s.plen s = some v → exec .frameMarkerS s = .fault (.hostContract v)) ∧
    ∀ i, i = .frameMarkerA ∨ (∃ b, i = .frameMarkerOther b) → ∃ t,
      exec i s = .next t ∧
      t = { s with eng := { s.eng with code := 6, busy := false, done := true, fatal := true, phase := .idle } } ∧
      t.eng.statusWord = 0x66

/-! ### The commands -/

/-- R216: DECRYPT of a frame that parses, fits and names a known key, with marker 'S', ends with Success: the payload
XORed with the keystream of R181 stands at OUT_ADDR, no other byte has changed, OUT_LEN = plen; the operand registers and
FATAL keep their values. No other DECRYPT ends with Success (R210, R249). -/
def Obligations.DecryptSuccess : Prop :=
  ∀ s : State, s.mem.Wf → s.Fresh →
    (∀ k : Vector Byte 16, frameStatus s.n s.inByte = none → s.n - framePoff s.inByte ≤ s.cap →
      lookupKey s.cfg.keyTable (frameKeyId s.inByte) = some k → frameM s.inByte = 0x53 →
      contractBroken (s.n - framePoff s.inByte) s = none →
      ∃ t, exec .decrypt s = .next t ∧ s.SameAround t ∧ t.eng.SameOperands s.eng ∧ t.eng.fatal = s.eng.fatal ∧
        t.eng.code = 0 ∧ t.eng.busy = false ∧ t.eng.done = true ∧ t.eng.phase = .idle ∧
        t.eng.outLen.toNat = s.n - framePoff s.inByte ∧ t.mem.Wf ∧
        (∀ j, j < s.n - framePoff s.inByte →
          t.mem.read (s.outAt j)
            = s.inByte (framePoff s.inByte + j) ^^^ kstream k (mixIv (frameIv s.inByte) s.eng.frameIndex) j) ∧
        ∀ a, (∀ j, j < s.n - framePoff s.inByte → a ≠ s.outAt j) → t.mem.read a = s.mem.read a) ∧
    ∀ t, exec .decrypt s = .next t → t.eng.code = 0 →
      frameStatus s.n s.inByte = none ∧ s.n - framePoff s.inByte ≤ s.cap ∧ frameM s.inByte = 0x53 ∧
        contractBroken (s.n - framePoff s.inByte) s = none ∧
        ∃ k, lookupKey s.cfg.keyTable (frameKeyId s.inByte) = some k

/-- R211 and R212, and the order of R249: the status of a DECRYPT that does not succeed is that of the first failing step
in the order PARSE, capacity, key, marker; nothing visible but STATUS changes (R252), and FATAL only for the marker
step. -/
def Obligations.DecryptPriority : Prop :=
  ∀ s : State, s.Fresh →
    (∀ c, frameStatus s.n s.inByte = some c → ∃ t, exec .decrypt s = .next t ∧ s.EndedWith c t) ∧
    (frameStatus s.n s.inByte = none →
      (s.cap < s.n - framePoff s.inByte → ∃ t, exec .decrypt s = .next t ∧ s.EndedWith .insufficientBuffer t) ∧
      (s.n - framePoff s.inByte ≤ s.cap →
        (lookupKey s.cfg.keyTable (frameKeyId s.inByte) = none →
          ∃ t, exec .decrypt s = .next t ∧ s.EndedWith .fileEncrypted t) ∧
        (∀ k, lookupKey s.cfg.keyTable (frameKeyId s.inByte) = some k → frameM s.inByte = 0x41 →
          ∃ t, exec .decrypt s = .next t ∧ t.eng.statusWord = 0x66 ∧ t.eng.phase = .idle ∧ t.mem = s.mem ∧
            s.SameAround t ∧ t.eng.SameOperands s.eng ∧ t.eng.outLen = s.eng.outLen)))

/-- R223 and R280 where R210 and R217 call CHECK_CONTRACT, after every other check has passed: a broken contract faults
there, with nothing written. A buffer on memory with read side effects faults at the start, however the command would end
(R66); that moment is the model's choice (log 13). -/
def Obligations.BrokenContractFaults : Prop :=
  ∀ (s : State) (v : Violation),
    (s.Fresh → frameStatus s.n s.inByte = none → s.n - framePoff s.inByte ≤ s.cap →
      lookupKey s.cfg.keyTable (frameKeyId s.inByte) ≠ none → frameM s.inByte = 0x53 →
      contractBroken (s.n - framePoff s.inByte) s = some v → exec .decrypt s = .fault (.hostContract v)) ∧
    (s.eng.phase = .idle ∧ s.eng.onDevice s.cfg = false ∨ s.eng.phase = .checkCap → s.n ≤ s.cap + 1 →
      contractBroken s.n s = some v → exec .directCopy s = .fault (.hostContract v)) ∧
    (s.eng.phase = .idle → s.eng.onDevice s.cfg = true →
      exec .decrypt s = .fault (.hostContract .deviceMemory) ∧
      exec .directCopy s = .fault (.hostContract .deviceMemory))

/-- R121 and R282: a frame with keyIdSize = 0 never decrypts, whatever the key table holds: DECRYPT of it ends with one
of the codes 1 to 4 and writes nothing. -/
def Obligations.NoKeyIdNoDecryption : Prop :=
  ∀ s : State, s.Fresh → frameK s.inByte = 0x00 →
    ∃ t, exec .decrypt s = .next t ∧ 1 ≤ t.eng.code.toNat ∧ t.eng.code.toNat ≤ 4 ∧ t.mem = s.mem ∧
      t.eng.outLen = s.eng.outLen ∧ t.eng.fatal = s.eng.fatal

/-- R217: DIRECT_COPY from its beginning: n > cap + 1 ends with InsufficientBuffer and changes nothing else visible; else
CHECK_CONTRACT(n), and with disjoint buffers it writes `out(i) = in(i)` for every i < n and no other byte, OUT_LEN = n,
Success; n = cap + 1 and n = 0 are such cases; FRAME_INDEX plays no part. -/
def Obligations.DirectCopyBytes : Prop :=
  ∀ s : State, s.mem.Wf →
    (s.eng.phase = .idle ∧ s.eng.onDevice s.cfg = false ∨ s.eng.phase = .checkCap) →
    (s.cap + 1 < s.n → ∃ t, exec .directCopy s = .next t ∧ s.EndedWith .insufficientBuffer t) ∧
    (s.n ≤ s.cap + 1 → contractBroken s.n s = some .overlap →
      exec .directCopy s = .fault (.hostContract .overlap)) ∧
    (s.n ≤ s.cap + 1 → contractBroken s.n s = none → ∃ m,
      exec .directCopy s
        = .next { s with
            mem := m
            eng := { s.eng with
              outLen := s.eng.inLen, code := 0, busy := false, done := true, phase := .idle } } ∧
      m.Wf ∧ (∀ i, i < s.n → m.read (s.outAt i) = s.inByte i) ∧
      ∀ a, (∀ i, i < s.n → a ≠ s.outAt i) → m.read a = s.mem.read a)

/-- R223: the contract is broken exactly when the command is about to write and its output is longer than the memory or
meets the input range (on a platform with no memory that has read side effects). -/
def Obligations.ContractIsOverlap : Prop :=
  ∀ (len : Nat) (s : State), s.cfg.devices = [] →
    (contractBroken len s = none ∨ contractBroken len s = some .overlap) ∧
    (contractBroken len s = some .overlap ↔
      0 < len ∧ (2 ^ s.cfg.addrW < len ∨
        ∃ j, j < len ∧ ∃ i, i < s.n ∧
          (s.eng.outAddr.toNat + j) % 2 ^ s.cfg.addrW = (s.eng.inAddr.toNat + i) % 2 ^ s.cfg.addrW))

/-- R65: only DECRYPT, DIRECT_COPY and XOR_STREAM write memory, and a command changes a byte only when it ends with
Success and then only one of its first OUT_LEN output bytes. -/
def Obligations.OnlyOutputsAreWritten : Prop :=
  (∀ (i : Instr) (s t : State), i ≠ .decrypt → i ≠ .directCopy → i ≠ .xorStream → exec i s = .next t → t.mem = s.mem) ∧
  ∀ (i : Instr) (s t : State), i = .decrypt ∨ i = .directCopy → s.mem.Wf → exec i s = .next t → ∀ a, t.mem.read a ≠ s.mem.read a →
    t.eng.code = 0 ∧ t.eng.done = true ∧ ∃ j, j < t.eng.outLen.toNat ∧ a = s.outAt j

/-- R29, R30, R32 and R31: whatever the engine runs, it writes none of IN_ADDR, IN_LEN, OUT_ADDR, FRAME_INDEX, and it
writes OUT_LEN only when a command ends with Success. -/
def Obligations.EngineKeepsOperands : Prop :=
  ∀ (i : Instr) (s t : State), (∀ size off v, i ≠ .regWrite size off v) → exec i s = .next t →
    t.eng.SameOperands s.eng ∧
    (t.eng.outLen ≠ s.eng.outLen → (i = .decrypt ∨ i = .directCopy) ∧ t.eng.code = 0 ∧ t.eng.done = true)

/-- R41, R225 and R274: what a command does depends on no internal register a former command or reset left: from two
states that agree on everything but those, a command that has not begun (PHASE = IDLE) or has just been accepted ends with
the same status, OUT_LEN and memory, or with the same fault. -/
def Obligations.InternalRegistersUnseen : Prop :=
  ∀ (i : Instr) (s u : State), s.cfg = u.cfg → s.mem = u.mem → s.eng.SameVisible u.eng →
    (i = .decrypt ∨ i = .directCopy ∨ ∃ op, i = .illegalCmd op) ∧ s.eng.phase = .idle ∧ u.eng.phase = .idle ∨
      i = .decrypt ∧ s.eng.InFirstField ∧ u.eng.InFirstField ∨
      i = .directCopy ∧ s.eng.phase = .checkCap ∧ u.eng.phase = .checkCap →
    (∀ t, exec i s = .next t → ∃ v, exec i u = .next v ∧ v.mem = t.mem ∧ v.eng.SameVisible t.eng) ∧
    ∀ f, exec i s = .fault f → exec i u = .fault f

/-! ### Invariants -/

/-- Every step keeps the machine's invariant (R25, R29, R40, R60, R240, R247 and R8). -/
def Obligations.StepKeepsInvariant : Prop :=
  ∀ s t : State, s.Inv → step s = .next t → t.Inv

/-- The machine after reset has the invariant. -/
def Obligations.ResetHasInvariant : Prop := State.reset.Inv

/-- Every step keeps the place of a running DECRYPT in its header (R130, R134, R135): the bound checks of steps 3 and 5
never fail, and past PARSE the header registers are those of a legal header. -/
def Obligations.StepKeepsHeader : Prop :=
  ∀ s t : State, s.Inv → (∀ e ∈ s.engines, e.HeaderInv) → step s = .next t → ∀ e ∈ t.engines, e.HeaderInv

/-- R45, R273, R255: no step changes the key ROM, the other parameters, or how many instances there are. -/
def Obligations.KeyRomConstant : Prop :=
  ∀ s t : State, step s = .next t → t.cfg = s.cfg ∧ t.engines.length = s.engines.length

/-- R255: an instruction of one instance touches no other instance and none of the host's own fields but the value a
register read returns. -/
def Obligations.InstancesIndependent : Prop :=
  ∀ (i : Instr) (s t : State), exec i s = .next t →
    t.left = s.left ∧ t.right = s.right ∧ t.cfg = s.cfg ∧ t.script = s.script ∧ t.mdata = s.mdata ∧
      t.draws = s.draws ∧ ((∀ size off, i ≠ .regRead size off) → t.rdata = s.rdata)

/-- R285, R224 and R219: with no host event pending, or while the host waits on an instance that is neither DONE nor
FATAL, one step ends a running command, the selected instance's or else the first busy one's: that instance is DONE and not
BUSY, every other instance is as it was and the selected one stays selected; unless the contract of that command is
broken, which is then the step's fault (one step: log 1, log 12). -/
def Obligations.RunningCommandEnds : Prop :=
  ∀ s : State, s.Inv → (s.script = [] ∨ s.script.head? = some .wait ∧ s.eng.done = false ∧ s.eng.fatal = false) →
    ∀ (k : Nat) (e : Engine), s.engines[k]? = some e → e.busy = true →
    (k = s.left.length ∨ s.eng.busy = false ∧ ∀ o ∈ s.engines.take k, o.busy = false) →
    (∃ len v, len ≤ e.inLen.toNat ∧ contractBroken len { s with eng := e } = some v ∧ step s = .fault (.hostContract v)) ∨
    ∃ t o, step s = .next t ∧ o.busy = false ∧ o.done = true ∧ o.phase = .idle ∧ t.engines = s.engines.set k o ∧
      t.left.length = s.left.length ∧ t.script = s.script

/-- The micro-steps of the sequencer are the command (R40, R210, R217): from any phase of its own, nine engine steps of a
DECRYPT, and two of a DIRECT_COPY, come to exactly what the command's meaning says, its faults included. -/
def Obligations.EngineStepsAreTheCommand : Prop :=
  (∀ s : State, s.eng.busy = true → s.eng.op = 0x00000001 → s.eng.phase ≠ .idle → s.eng.phase ≠ .copy →
    engineSteps 9 s = exec .decrypt s) ∧
  ∀ s : State, s.eng.busy = true → s.eng.op = 0x00000002 → s.eng.phase = .checkCap ∨ s.eng.phase = .copy →
    engineSteps 2 s = exec .directCopy s

/-! ### The fatal state, reset -/

/-- R248 and R27, for any number of instances: no step but a reset changes the STATUS of an instance in the fatal state;
no CMD write is accepted there, while the operand registers stay writable; a reset leaves no instance fatal (that it
reaches every instance is the model's reading, log 21). -/
def Obligations.FatalUntilReset : Prop :=
  (∀ (s t : State) (i : Nat) (e : Engine), s.engines[i]? = some e → e.fatal = true → e.busy = false →
    s.script.head? ≠ some .reset → step s = .next t →
    ∃ o, t.engines[i]? = some o ∧ o.statusWord = e.statusWord ∧ o.fatal = true) ∧
  (∀ s : State, s.eng.fatal = true → s.eng.busy = false →
    (∀ v, exec (.regWrite 4 0x00 v) s = .next s) ∧
    ∀ v off, off = 0x08 ∨ off = 0x0C ∨ off = 0x10 ∨ off = 0x14 ∨ off = 0x18 →
      ∃ t, exec (.regWrite 4 off v) s = .next t ∧ t.eng.statusWord = s.eng.statusWord ∧
        exec (.regRead 4 off) t
          = .next { t with
              rdata := if off = 0x08 ∨ off = 0x10 then BitVec.ofNat 32 (v.toNat % 2 ^ s.cfg.addrW) else v }) ∧
  ∀ s t : State, s.script.head? = some .reset → step s = .next t → ∀ e ∈ t.engines, e.statusWord = 0 ∧ e.fatal = false

/-- R270: reset of a machine with no command running puts every instance's host-visible registers at 0 and PHASE at IDLE
and leaves memory and key ROM. -/
def Obligations.ResetWhenIdle : Prop :=
  ∀ (s : State) (rest : List HostEvent), s.script = .reset :: rest → (∀ e ∈ s.engines, e.busy = false) →
    ∃ t, step s = .next t ∧ t.mem = s.mem ∧ t.cfg = s.cfg ∧ t.script = rest ∧ t.draws = s.draws ∧
      t.engines.length = s.engines.length ∧
      ∀ e ∈ t.engines, e.busy = false ∧ e.done = false ∧ e.fatal = false ∧ e.code = 0 ∧ e.inAddr = 0 ∧ e.inLen = 0 ∧
        e.outAddr = 0 ∧ e.outLen = 0 ∧ e.frameIndex = 0 ∧ e.phase = .idle

/-- R271: a reset while a command runs abandons it: the registers are reset, and each byte of the memory is as it was or,
if the command was going to write it, the value it was going to write (one instance; whatever the free bits are; log 15).
That the internal registers hold 0 then is the model's choice (log 4, log 20). -/
def Obligations.ResetWhileBusy : Prop :=
  ∀ (s u : State) (rest : List HostEvent), s.left = [] → s.right = [] → s.mem.Wf → s.script = .reset :: rest → s.eng.busy = true →
    exec (decodeCmd s.eng.op) { s with script := rest } = .next u →
    ∃ t, step s = .next t ∧ t.eng = Engine.reset ∧ t.cfg = s.cfg ∧ t.script = rest ∧ t.mem.Wf ∧
      ∀ a, t.mem.read a = s.mem.read a ∨
        (u.eng.code = 0 ∧ (∃ j, j < u.eng.outLen.toNat ∧ a = s.outAt j) ∧ t.mem.read a = u.mem.read a)

/-- R46: after reset a read of any register of the window returns 0, whatever the host's last read returned (`rdata`,
log 11), PHASE is IDLE, and the key ROM is KEY_TABLE. -/
def Obligations.ResetState : Prop :=
  (∀ (w : Word) (off : Nat), off % 4 = 0 → off ≤ 0x1C →
    exec (.regRead 4 off) { State.reset with rdata := w } = .next { State.reset with rdata := 0 }) ∧
    State.reset.eng.phase = .idle ∧ State.reset.cfg.keyTable = realKeyTable

/-- With no host event and no command running the machine stays as it is, at reset among others: nothing runs of itself
(the model's choice of who moves, log 10 and log 12; R272). -/
def Obligations.IdleMachineStays : Prop :=
  (∀ s : State, s.script = [] → (∀ e ∈ s.engines, e.busy = false) → step s = .next s) ∧
    step State.reset = .next State.reset

/-! ### The host and its memory -/

/-- R69 to R71: the host reads a byte of memory (one instance): with no command running, the byte; while one runs, the
byte, or for a byte the command is going to write possibly that value instead, whatever the free bit is. Nothing else
changes. -/
def Obligations.HostMemoryRead : Prop :=
  ∀ (s : State) (a : Nat) (rest : List HostEvent), s.left = [] → s.right = [] → s.script = .memRead a :: rest → a < 2 ^ s.cfg.addrW →
    s.cfg.onDevice a 1 = false →
    (s.eng.busy = false → step s = .next { s with script := rest, mdata := s.mem.read a }) ∧
    (s.eng.busy = true → ∀ u, exec (decodeCmd s.eng.op) { s with script := rest } = .next u →
      ∃ t, step s = .next t ∧ t.mem = s.mem ∧ t.eng = s.eng ∧ t.script = rest ∧ t.rdata = s.rdata ∧
        (t.mdata = s.mem.read a ∨
          (u.eng.code = 0 ∧ (∃ j, j < u.eng.outLen.toNat ∧ a = s.outAt j) ∧ t.mdata = u.mem.read a)))

/-- R276 and R277: the host writes a byte of memory (one instance): that byte changes and no other; while a command runs,
a byte of its input range, or one it is going to write, breaks the contract. -/
def Obligations.HostMemoryWrite : Prop :=
  ∀ (s : State) (a : Nat) (b : Byte) (rest : List HostEvent), s.left = [] → s.right = [] → s.mem.Wf → s.script = .memWrite a b :: rest → a < 2 ^ s.cfg.addrW →
    s.cfg.onDevice a 1 = false →
    (s.eng.busy = true → (∃ i, i < s.n ∧ a = s.cfg.addr s.eng.inAddr i) →
      step s = .fault (.hostContract .inputWritten)) ∧
    (s.eng.busy = true → (∀ i, i < s.n → a ≠ s.cfg.addr s.eng.inAddr i) →
      ∀ u, exec (decodeCmd s.eng.op) { s with script := rest } = .next u → u.eng.code = 0 →
      (∃ j, j < u.eng.outLen.toNat ∧ a = s.outAt j) → step s = .fault (.hostContract .outputWritten)) ∧
    (s.eng.busy = false ∨
        ((∀ i, i < s.n → a ≠ s.cfg.addr s.eng.inAddr i) ∧
          ∃ u, exec (decodeCmd s.eng.op) { s with script := rest } = .next u ∧
            (u.eng.code = 0 → ∀ j, j < u.eng.outLen.toNat → a ≠ s.outAt j)) →
      ∃ t, step s = .next t ∧ t.eng = s.eng ∧ t.script = rest ∧ t.mem.Wf ∧ t.mem.read a = b ∧
        ∀ k, k ≠ a → t.mem.read k = s.mem.read k)

/-- R281: a DECRYPT or DIRECT_COPY about to be accepted breaks the contract at its acceptance when its output range meets
the input or output range of a command another instance runs, or that command's output range meets its input; how many
bytes a command is going to write is WillWriteIsWritten's. The moment is the model's (log 13). -/
def Obligations.SharedRangeFaults : Prop :=
  ∀ (s : State) (o : Engine), o ∈ s.others → o.busy = true → s.eng.busy = false → s.eng.fatal = false →
    s.eng.onDevice s.cfg = false →
    (s.Conflict s.eng.decryptStarted o →
      exec (.regWrite 4 0x00 0x00000001) s = .fault (.hostContract .sharedRange)) ∧
    (s.Conflict s.eng.copyStarted o →
      exec (.regWrite 4 0x00 0x00000002) s = .fault (.hostContract .sharedRange))

/-- R110, R219, R285: WAIT reads STATUS; once DONE or FATAL is set it is over; until then it stays and the engines have
the turn: the selected instance's command runs, or else the first busy instance's (log 12). -/
def Obligations.WaitPollsStatus : Prop :=
  ∀ (s : State) (rest : List HostEvent), s.script = .wait :: rest →
    (s.eng.done = true ∨ s.eng.fatal = true →
      step s = .next { s with script := rest, rdata := s.eng.statusWord }) ∧
    (s.eng.done = false → s.eng.fatal = false → s.eng.busy = true →
      step s = exec (decodeCmd s.eng.op) { s with rdata := s.eng.statusWord }) ∧
    (s.eng.done = false → s.eng.fatal = false → s.eng.busy = false →
      (∀ (k : Nat) (o : Engine), s.engines[k]? = some o → o.busy = true → (∀ e ∈ s.engines.take k, e.busy = false) →
        step s
          = andThen
              (exec (decodeCmd o.op)
                { s with
                  rdata := s.eng.statusWord, left := s.engines.take k, eng := o, right := s.engines.drop (k + 1) })
              (selectEngine s.left.length)) ∧
      ((∀ e ∈ s.engines, e.busy = false) → step s = .next { s with rdata := s.eng.statusWord }))

/-! ### The bytes a running command is going to write -/

/-- R65, R216, R217, R223: the bytes a running command is going to write, by number: those it has written if it ends with
Success, none if it ends otherwise, and those its CHECK_CONTRACT finds broken if it faults. -/
def Obligations.WillWriteIsWritten : Prop :=
  ∀ (s : State) (e : Engine), e.Inv s.cfg → e.busy = true →
    (∀ t, exec (decodeCmd e.op) { s with eng := e } = .next t →
      s.willWrite e = if t.eng.code = 0 then t.eng.outLen.toNat else 0) ∧
    ∀ r, exec (decodeCmd e.op) { s with eng := e } = .fault r →
      ∃ v, r = .hostContract v ∧ contractBroken (s.willWrite e) { s with eng := e } = some v
end

