-- ==== Sys2Proof/Laws/State.lean ====
section
/-! SUPPORT. One simp lemma per field per named update of the state (all by rfl), so that no later proof unfolds a record
update. -/

namespace Sys2Proof.Machine

/-! ### `State.modEng` and `State.outByte` -/

@[simp] theorem State.modEng_eng (s : State) (f : Engine → Engine) : (s.modEng f).eng = f s.eng := rfl
@[simp] theorem State.modEng_cfg (s : State) (f : Engine → Engine) : (s.modEng f).cfg = s.cfg := rfl
@[simp] theorem State.modEng_mem (s : State) (f : Engine → Engine) : (s.modEng f).mem = s.mem := rfl
@[simp] theorem State.modEng_left (s : State) (f : Engine → Engine) : (s.modEng f).left = s.left := rfl
@[simp] theorem State.modEng_right (s : State) (f : Engine → Engine) : (s.modEng f).right = s.right := rfl
@[simp] theorem State.modEng_script (s : State) (f : Engine → Engine) : (s.modEng f).script = s.script := rfl
@[simp] theorem State.modEng_rdata (s : State) (f : Engine → Engine) : (s.modEng f).rdata = s.rdata := rfl
@[simp] theorem State.modEng_mdata (s : State) (f : Engine → Engine) : (s.modEng f).mdata = s.mdata := rfl
@[simp] theorem State.modEng_draws (s : State) (f : Engine → Engine) : (s.modEng f).draws = s.draws := rfl
@[simp] theorem State.modEng_modEng (s : State) (f g : Engine → Engine) :
    (s.modEng f).modEng g = s.modEng fun e => g (f e) := rfl
@[simp] theorem State.outByte_mem (s : State) (i : Nat) (v : Byte) :
    (s.outByte i v).mem = s.mem.write (s.outAt i) v := rfl
@[simp] theorem State.outByte_cfg (s : State) (i : Nat) (v : Byte) : (s.outByte i v).cfg = s.cfg := rfl
@[simp] theorem State.outByte_eng (s : State) (i : Nat) (v : Byte) : (s.outByte i v).eng = s.eng := rfl
@[simp] theorem State.outByte_left (s : State) (i : Nat) (v : Byte) : (s.outByte i v).left = s.left := rfl
@[simp] theorem State.outByte_right (s : State) (i : Nat) (v : Byte) : (s.outByte i v).right = s.right := rfl
@[simp] theorem State.outByte_script (s : State) (i : Nat) (v : Byte) : (s.outByte i v).script = s.script := rfl
@[simp] theorem State.outByte_rdata (s : State) (i : Nat) (v : Byte) : (s.outByte i v).rdata = s.rdata := rfl
@[simp] theorem State.outByte_mdata (s : State) (i : Nat) (v : Byte) : (s.outByte i v).mdata = s.mdata := rfl
@[simp] theorem State.outByte_draws (s : State) (i : Nat) (v : Byte) : (s.outByte i v).draws = s.draws := rfl

/-! ### `Engine.ended` -/

@[simp] theorem Engine.ended_busy (c : StatusCode) (e : Engine) : (Engine.ended c e).busy = false := rfl
@[simp] theorem Engine.ended_done (c : StatusCode) (e : Engine) : (Engine.ended c e).done = true := rfl
@[simp] theorem Engine.ended_fatal (c : StatusCode) (e : Engine) : (Engine.ended c e).fatal = e.fatal := rfl
@[simp] theorem Engine.ended_code (c : StatusCode) (e : Engine) : (Engine.ended c e).code = c.bits := rfl
@[simp] theorem Engine.ended_inAddr (c : StatusCode) (e : Engine) : (Engine.ended c e).inAddr = e.inAddr := rfl
@[simp] theorem Engine.ended_inLen (c : StatusCode) (e : Engine) : (Engine.ended c e).inLen = e.inLen := rfl
@[simp] theorem Engine.ended_outAddr (c : StatusCode) (e : Engine) : (Engine.ended c e).outAddr = e.outAddr := rfl
@[simp] theorem Engine.ended_outLen (c : StatusCode) (e : Engine) : (Engine.ended c e).outLen = e.outLen := rfl
@[simp] theorem Engine.ended_frameIndex (c : StatusCode) (e : Engine) : (Engine.ended c e).frameIndex = e.frameIndex := rfl
@[simp] theorem Engine.ended_x (c : StatusCode) (e : Engine) : (Engine.ended c e).x = e.x := rfl
@[simp] theorem Engine.ended_z (c : StatusCode) (e : Engine) : (Engine.ended c e).z = e.z := rfl
@[simp] theorem Engine.ended_kis (c : StatusCode) (e : Engine) : (Engine.ended c e).kis = e.kis := rfl
@[simp] theorem Engine.ended_keyId (c : StatusCode) (e : Engine) : (Engine.ended c e).keyId = e.keyId := rfl
@[simp] theorem Engine.ended_ivs (c : StatusCode) (e : Engine) : (Engine.ended c e).ivs = e.ivs := rfl
@[simp] theorem Engine.ended_baseIv (c : StatusCode) (e : Engine) : (Engine.ended c e).baseIv = e.baseIv := rfl
@[simp] theorem Engine.ended_marker (c : StatusCode) (e : Engine) : (Engine.ended c e).marker = e.marker := rfl
@[simp] theorem Engine.ended_poff (c : StatusCode) (e : Engine) : (Engine.ended c e).poff = e.poff := rfl
@[simp] theorem Engine.ended_key (c : StatusCode) (e : Engine) : (Engine.ended c e).key = e.key := rfl
@[simp] theorem Engine.ended_eiv (c : StatusCode) (e : Engine) : (Engine.ended c e).eiv = e.eiv := rfl
@[simp] theorem Engine.ended_ks (c : StatusCode) (e : Engine) : (Engine.ended c e).ks = e.ks := rfl
@[simp] theorem Engine.ended_p (c : StatusCode) (e : Engine) : (Engine.ended c e).p = e.p := rfl
@[simp] theorem Engine.ended_pos (c : StatusCode) (e : Engine) : (Engine.ended c e).pos = e.pos := rfl
@[simp] theorem Engine.ended_phase (c : StatusCode) (e : Engine) : (Engine.ended c e).phase = .idle := rfl
@[simp] theorem Engine.ended_op (c : StatusCode) (e : Engine) : (Engine.ended c e).op = e.op := rfl
@[simp] theorem Engine.ended_field (c : StatusCode) (e : Engine) : (Engine.ended c e).field = e.field := rfl
@[simp] theorem Engine.ended_hit (c : StatusCode) (e : Engine) : (Engine.ended c e).hit = e.hit := rfl

/-! ### `Engine.accepted` -/

@[simp] theorem Engine.accepted_busy (v : Word) (e : Engine) : (Engine.accepted v e).busy = true := rfl
@[simp] theorem Engine.accepted_done (v : Word) (e : Engine) : (Engine.accepted v e).done = false := rfl
@[simp] theorem Engine.accepted_fatal (v : Word) (e : Engine) : (Engine.accepted v e).fatal = e.fatal := rfl
@[simp] theorem Engine.accepted_code (v : Word) (e : Engine) : (Engine.accepted v e).code = e.code := rfl
@[simp] theorem Engine.accepted_inAddr (v : Word) (e : Engine) : (Engine.accepted v e).inAddr = e.inAddr := rfl
@[simp] theorem Engine.accepted_inLen (v : Word) (e : Engine) : (Engine.accepted v e).inLen = e.inLen := rfl
@[simp] theorem Engine.accepted_outAddr (v : Word) (e : Engine) : (Engine.accepted v e).outAddr = e.outAddr := rfl
@[simp] theorem Engine.accepted_outLen (v : Word) (e : Engine) : (Engine.accepted v e).outLen = e.outLen := rfl
@[simp] theorem Engine.accepted_frameIndex (v : Word) (e : Engine) : (Engine.accepted v e).frameIndex = e.frameIndex := rfl
@[simp] theorem Engine.accepted_x (v : Word) (e : Engine) : (Engine.accepted v e).x = e.x := rfl
@[simp] theorem Engine.accepted_z (v : Word) (e : Engine) : (Engine.accepted v e).z = e.z := rfl
@[simp] theorem Engine.accepted_kis (v : Word) (e : Engine) : (Engine.accepted v e).kis = e.kis := rfl
@[simp] theorem Engine.accepted_keyId (v : Word) (e : Engine) : (Engine.accepted v e).keyId = e.keyId := rfl
@[simp] theorem Engine.accepted_ivs (v : Word) (e : Engine) : (Engine.accepted v e).ivs = e.ivs := rfl
@[simp] theorem Engine.accepted_baseIv (v : Word) (e : Engine) : (Engine.accepted v e).baseIv = e.baseIv := rfl
@[simp] theorem Engine.accepted_marker (v : Word) (e : Engine) : (Engine.accepted v e).marker = e.marker := rfl
@[simp] theorem Engine.accepted_poff (v : Word) (e : Engine) : (Engine.accepted v e).poff = e.poff := rfl
@[simp] theorem Engine.accepted_key (v : Word) (e : Engine) : (Engine.accepted v e).key = e.key := rfl
@[simp] theorem Engine.accepted_eiv (v : Word) (e : Engine) : (Engine.accepted v e).eiv = e.eiv := rfl
@[simp] theorem Engine.accepted_ks (v : Word) (e : Engine) : (Engine.accepted v e).ks = e.ks := rfl
@[simp] theorem Engine.accepted_p (v : Word) (e : Engine) : (Engine.accepted v e).p = e.p := rfl
@[simp] theorem Engine.accepted_pos (v : Word) (e : Engine) : (Engine.accepted v e).pos = e.pos := rfl
@[simp] theorem Engine.accepted_phase (v : Word) (e : Engine) : (Engine.accepted v e).phase = e.phase := rfl
@[simp] theorem Engine.accepted_op (v : Word) (e : Engine) : (Engine.accepted v e).op = v := rfl
@[simp] theorem Engine.accepted_field (v : Word) (e : Engine) : (Engine.accepted v e).field = e.field := rfl
@[simp] theorem Engine.accepted_hit (v : Word) (e : Engine) : (Engine.accepted v e).hit = e.hit := rfl

/-! ### `Engine.parseStart` -/

@[simp] theorem Engine.parseStart_busy (e : Engine) : (Engine.parseStart e).busy = e.busy := rfl
@[simp] theorem Engine.parseStart_done (e : Engine) : (Engine.parseStart e).done = e.done := rfl
@[simp] theorem Engine.parseStart_fatal (e : Engine) : (Engine.parseStart e).fatal = e.fatal := rfl
@[simp] theorem Engine.parseStart_code (e : Engine) : (Engine.parseStart e).code = e.code := rfl
@[simp] theorem Engine.parseStart_inAddr (e : Engine) : (Engine.parseStart e).inAddr = e.inAddr := rfl
@[simp] theorem Engine.parseStart_inLen (e : Engine) : (Engine.parseStart e).inLen = e.inLen := rfl
@[simp] theorem Engine.parseStart_outAddr (e : Engine) : (Engine.parseStart e).outAddr = e.outAddr := rfl
@[simp] theorem Engine.parseStart_outLen (e : Engine) : (Engine.parseStart e).outLen = e.outLen := rfl
@[simp] theorem Engine.parseStart_frameIndex (e : Engine) : (Engine.parseStart e).frameIndex = e.frameIndex := rfl
@[simp] theorem Engine.parseStart_x (e : Engine) : (Engine.parseStart e).x = e.x := rfl
@[simp] theorem Engine.parseStart_z (e : Engine) : (Engine.parseStart e).z = e.z := rfl
@[simp] theorem Engine.parseStart_kis (e : Engine) : (Engine.parseStart e).kis = e.kis := rfl
@[simp] theorem Engine.parseStart_keyId (e : Engine) : (Engine.parseStart e).keyId = e.keyId := rfl
@[simp] theorem Engine.parseStart_ivs (e : Engine) : (Engine.parseStart e).ivs = e.ivs := rfl
@[simp] theorem Engine.parseStart_baseIv (e : Engine) : (Engine.parseStart e).baseIv = e.baseIv := rfl
@[simp] theorem Engine.parseStart_marker (e : Engine) : (Engine.parseStart e).marker = e.marker := rfl
@[simp] theorem Engine.parseStart_poff (e : Engine) : (Engine.parseStart e).poff = e.poff := rfl
@[simp] theorem Engine.parseStart_key (e : Engine) : (Engine.parseStart e).key = e.key := rfl
@[simp] theorem Engine.parseStart_eiv (e : Engine) : (Engine.parseStart e).eiv = e.eiv := rfl
@[simp] theorem Engine.parseStart_ks (e : Engine) : (Engine.parseStart e).ks = e.ks := rfl
@[simp] theorem Engine.parseStart_p (e : Engine) : (Engine.parseStart e).p = 0 := rfl
@[simp] theorem Engine.parseStart_pos (e : Engine) : (Engine.parseStart e).pos = e.pos := rfl
@[simp] theorem Engine.parseStart_phase (e : Engine) : (Engine.parseStart e).phase = .parse := rfl
@[simp] theorem Engine.parseStart_op (e : Engine) : (Engine.parseStart e).op = e.op := rfl
@[simp] theorem Engine.parseStart_field (e : Engine) : (Engine.parseStart e).field = some .kis := rfl
@[simp] theorem Engine.parseStart_hit (e : Engine) : (Engine.parseStart e).hit = e.hit := rfl

/-! ### `Engine.blockStep` -/

@[simp] theorem Engine.blockStep_busy (e : Engine) : (Engine.blockStep e).busy = e.busy := rfl
@[simp] theorem Engine.blockStep_done (e : Engine) : (Engine.blockStep e).done = e.done := rfl
@[simp] theorem Engine.blockStep_fatal (e : Engine) : (Engine.blockStep e).fatal = e.fatal := rfl
@[simp] theorem Engine.blockStep_code (e : Engine) : (Engine.blockStep e).code = e.code := rfl
@[simp] theorem Engine.blockStep_inAddr (e : Engine) : (Engine.blockStep e).inAddr = e.inAddr := rfl
@[simp] theorem Engine.blockStep_inLen (e : Engine) : (Engine.blockStep e).inLen = e.inLen := rfl
@[simp] theorem Engine.blockStep_outAddr (e : Engine) : (Engine.blockStep e).outAddr = e.outAddr := rfl
@[simp] theorem Engine.blockStep_outLen (e : Engine) : (Engine.blockStep e).outLen = e.outLen := rfl
@[simp] theorem Engine.blockStep_frameIndex (e : Engine) : (Engine.blockStep e).frameIndex = e.frameIndex := rfl
@[simp] theorem Engine.blockStep_x (e : Engine) : (Engine.blockStep e).x = e.x := rfl
@[simp] theorem Engine.blockStep_z (e : Engine) : (Engine.blockStep e).z = doubleRounds 10 e.x := rfl
@[simp] theorem Engine.blockStep_kis (e : Engine) : (Engine.blockStep e).kis = e.kis := rfl
@[simp] theorem Engine.blockStep_keyId (e : Engine) : (Engine.blockStep e).keyId = e.keyId := rfl
@[simp] theorem Engine.blockStep_ivs (e : Engine) : (Engine.blockStep e).ivs = e.ivs := rfl
@[simp] theorem Engine.blockStep_baseIv (e : Engine) : (Engine.blockStep e).baseIv = e.baseIv := rfl
@[simp] theorem Engine.blockStep_marker (e : Engine) : (Engine.blockStep e).marker = e.marker := rfl
@[simp] theorem Engine.blockStep_poff (e : Engine) : (Engine.blockStep e).poff = e.poff := rfl
@[simp] theorem Engine.blockStep_key (e : Engine) : (Engine.blockStep e).key = e.key := rfl
@[simp] theorem Engine.blockStep_eiv (e : Engine) : (Engine.blockStep e).eiv = e.eiv := rfl
@[simp] theorem Engine.blockStep_ks (e : Engine) : (Engine.blockStep e).ks = feedForward (doubleRounds 10 e.x) e.x := rfl
@[simp] theorem Engine.blockStep_p (e : Engine) : (Engine.blockStep e).p = e.p := rfl
@[simp] theorem Engine.blockStep_pos (e : Engine) : (Engine.blockStep e).pos = e.pos := rfl
@[simp] theorem Engine.blockStep_phase (e : Engine) : (Engine.blockStep e).phase = e.phase := rfl
@[simp] theorem Engine.blockStep_op (e : Engine) : (Engine.blockStep e).op = e.op := rfl
@[simp] theorem Engine.blockStep_field (e : Engine) : (Engine.blockStep e).field = e.field := rfl
@[simp] theorem Engine.blockStep_hit (e : Engine) : (Engine.blockStep e).hit = e.hit := rfl

/-! ### `Engine.ctrStep` -/

@[simp] theorem Engine.ctrStep_busy (e : Engine) : (Engine.ctrStep e).busy = e.busy := rfl
@[simp] theorem Engine.ctrStep_done (e : Engine) : (Engine.ctrStep e).done = e.done := rfl
@[simp] theorem Engine.ctrStep_fatal (e : Engine) : (Engine.ctrStep e).fatal = e.fatal := rfl
@[simp] theorem Engine.ctrStep_code (e : Engine) : (Engine.ctrStep e).code = e.code := rfl
@[simp] theorem Engine.ctrStep_inAddr (e : Engine) : (Engine.ctrStep e).inAddr = e.inAddr := rfl
@[simp] theorem Engine.ctrStep_inLen (e : Engine) : (Engine.ctrStep e).inLen = e.inLen := rfl
@[simp] theorem Engine.ctrStep_outAddr (e : Engine) : (Engine.ctrStep e).outAddr = e.outAddr := rfl
@[simp] theorem Engine.ctrStep_outLen (e : Engine) : (Engine.ctrStep e).outLen = e.outLen := rfl
@[simp] theorem Engine.ctrStep_frameIndex (e : Engine) : (Engine.ctrStep e).frameIndex = e.frameIndex := rfl
@[simp] theorem Engine.ctrStep_x (e : Engine) : (Engine.ctrStep e).x = counterUp e.x := rfl
@[simp] theorem Engine.ctrStep_z (e : Engine) : (Engine.ctrStep e).z = e.z := rfl
@[simp] theorem Engine.ctrStep_kis (e : Engine) : (Engine.ctrStep e).kis = e.kis := rfl
@[simp] theorem Engine.ctrStep_keyId (e : Engine) : (Engine.ctrStep e).keyId = e.keyId := rfl
@[simp] theorem Engine.ctrStep_ivs (e : Engine) : (Engine.ctrStep e).ivs = e.ivs := rfl
@[simp] theorem Engine.ctrStep_baseIv (e : Engine) : (Engine.ctrStep e).baseIv = e.baseIv := rfl
@[simp] theorem Engine.ctrStep_marker (e : Engine) : (Engine.ctrStep e).marker = e.marker := rfl
@[simp] theorem Engine.ctrStep_poff (e : Engine) : (Engine.ctrStep e).poff = e.poff := rfl
@[simp] theorem Engine.ctrStep_key (e : Engine) : (Engine.ctrStep e).key = e.key := rfl
@[simp] theorem Engine.ctrStep_eiv (e : Engine) : (Engine.ctrStep e).eiv = e.eiv := rfl
@[simp] theorem Engine.ctrStep_ks (e : Engine) : (Engine.ctrStep e).ks = e.ks := rfl
@[simp] theorem Engine.ctrStep_p (e : Engine) : (Engine.ctrStep e).p = e.p := rfl
@[simp] theorem Engine.ctrStep_pos (e : Engine) : (Engine.ctrStep e).pos = e.pos := rfl
@[simp] theorem Engine.ctrStep_phase (e : Engine) : (Engine.ctrStep e).phase = e.phase := rfl
@[simp] theorem Engine.ctrStep_op (e : Engine) : (Engine.ctrStep e).op = e.op := rfl
@[simp] theorem Engine.ctrStep_field (e : Engine) : (Engine.ctrStep e).field = e.field := rfl
@[simp] theorem Engine.ctrStep_hit (e : Engine) : (Engine.ctrStep e).hit = e.hit := rfl

@[simp] theorem Engine.toReset_eq (e : Engine) : e.toReset = Engine.reset := rfl

end Sys2Proof.Machine
end

