-- ==== Sys2Proof/Laws/Memory.lean ====
section
/-! SUPPORT. The laws of the memory: the canonical form is kept by every operation, a byte written is the byte read, every
other byte stays. -/

namespace Sys2Proof.Machine

@[simp] theorem Memory.read_nil (k : Nat) : Memory.read [] k = memDefault := rfl

theorem Memory.wf_nil : Memory.Wf [] := ⟨List.Pairwise.nil, by simp⟩

theorem Memory.Wf.tail {c : Host.Cell} {m : Memory} (h : Memory.Wf (c :: m)) : Memory.Wf m :=
  ⟨(List.pairwise_cons.1 h.1).2, fun d hd => h.2 d (List.mem_cons_of_mem _ hd)⟩

/-- An address below every listed one reads as the default. -/
theorem Memory.read_eq_default {m : Memory} {k : Nat} (h : ∀ c ∈ m, k ≠ c.1) : m.read k = memDefault := by
  induction m with
  | nil => rfl
  | cons c m ih =>
    have hc : c.1 ≠ k := fun e => h c (List.mem_cons_self ..) e.symm
    simp only [Memory.read, hc, if_false]
    exact ih fun d hd => h d (List.mem_cons_of_mem _ hd)

/-- The addresses of a written memory: those it had and the one written. -/
theorem Memory.mem_write {m : Memory} {k : Nat} {v : Byte} {c : Host.Cell} (h : c ∈ m.write k v) :
    c ∈ m ∨ (c = (k, v) ∧ v ≠ memDefault) := by
  induction m with
  | nil =>
    simp only [Memory.write] at h
    split at h <;> simp_all
  | cons d m ih =>
    simp only [Memory.write] at h
    split at h
    · split at h
      · exact .inl h
      · rcases List.mem_cons.1 h with rfl | h'
        · exact .inr ⟨rfl, by assumption⟩
        · exact .inl h'
    · split at h
      · split at h
        · exact .inl (List.mem_cons_of_mem _ h)
        · rcases List.mem_cons.1 h with rfl | h'
          · exact .inr ⟨rfl, by assumption⟩
          · exact .inl (List.mem_cons_of_mem _ h')
      · rcases List.mem_cons.1 h with rfl | h'
        · exact .inl (List.mem_cons_self ..)
        · exact (ih h').imp (List.mem_cons_of_mem _) id

/-- A write keeps the canonical form. -/
theorem Memory.Wf.write {m : Memory} (h : m.Wf) (k : Nat) (v : Byte) : (m.write k v).Wf := by
  refine ⟨?_, fun c hc => ?_⟩
  · induction m with
    | nil =>
      simp only [Memory.write]
      split <;> simp
    | cons d m ih =>
      have hd := List.pairwise_cons.1 h.1
      simp only [Memory.write]
      split
      · split
        · exact h.1
        · refine List.pairwise_cons.2 ⟨fun c hc => ?_, h.1⟩
          rcases List.mem_cons.1 hc with rfl | hc
          · assumption
          · exact lt_trans (by assumption) (hd.1 c hc)
      · split
        · split
          · exact hd.2
          · subst_vars
            exact List.pairwise_cons.2 ⟨fun c hc => hd.1 c hc, hd.2⟩
        · refine List.pairwise_cons.2 ⟨fun c hc => ?_, ih h.tail⟩
          rcases Memory.mem_write hc with hc | ⟨rfl, -⟩
          · exact hd.1 c hc
          · show d.1 < k
            omega
  · rcases Memory.mem_write hc with hc | ⟨rfl, hv⟩
    · exact h.2 c hc
    · exact hv

/-- A byte written is the byte read, every other byte stays. -/
theorem Memory.read_write {m : Memory} (h : m.Wf) (k : Nat) (v : Byte) (a : Nat) :
    (m.write k v).read a = if a = k then v else m.read a := by
  induction m with
  | nil =>
    simp only [Memory.write]
    split <;> simp_all [Memory.read, eq_comm]
  | cons d m ih =>
    have hd := List.pairwise_cons.1 h.1
    simp only [Memory.write]
    split
    next hlt =>
      have below : ∀ c ∈ d :: m, k ≠ c.1 := by
        intro c hc
        rcases List.mem_cons.1 hc with rfl | hc
        · exact Nat.ne_of_lt hlt
        · exact Nat.ne_of_lt (lt_trans hlt (hd.1 c hc))
      split
      · by_cases e : a = k
        · subst e
          rw [Memory.read_eq_default below, if_pos rfl]
          exact Eq.symm (by assumption)
        · rw [if_neg e]
      · simp only [Memory.read]
        by_cases e : a = k
        · simp [e]
        · simp [e, Ne.symm e]
    next hlt =>
      split
      next he =>
        subst he
        have above : ∀ c ∈ m, d.1 ≠ c.1 := fun c hc => Nat.ne_of_lt (hd.1 c hc)
        split
        · by_cases e : a = d.1
          · subst e
            rw [Memory.read_eq_default above, if_pos rfl]
            exact Eq.symm (by assumption)
          · simp [Memory.read, e, Ne.symm e]
        · simp only [Memory.read]
          by_cases e : a = d.1
          · simp [e]
          · simp [e, Ne.symm e]
      next he =>
        simp only [Memory.read]
        by_cases e : d.1 = a
        · subst e
          simp [Ne.symm he]
        · simp only [e, if_false]
          exact ih h.tail

theorem Memory.read_write_self {m : Memory} (h : m.Wf) (k : Nat) (v : Byte) : (m.write k v).read k = v := by
  simp [Memory.read_write h]

theorem Memory.read_write_ne {m : Memory} (h : m.Wf) {k a : Nat} (v : Byte) (hne : a ≠ k) :
    (m.write k v).read a = m.read a := by
  simp [Memory.read_write h, hne]

/-- Every listed address is one of the memory's. -/
abbrev Memory.Below (size : Nat) (m : Memory) : Prop := ∀ c ∈ m, c.1 < size

theorem Memory.Below.write {size : Nat} {m : Memory} (h : m.Below size) {k : Nat} (hk : k < size) (v : Byte) :
    Memory.Below size (m.write k v) := by
  intro c hc
  rcases Memory.mem_write hc with hc | ⟨rfl, -⟩
  · exact h c hc
  · exact hk

theorem size_pos (c : Config) : 0 < c.size := Nat.two_pow_pos _

theorem addr_lt (c : Config) (base : Word) (i : Nat) : c.addr base i < c.size := Nat.mod_lt _ (size_pos c)

end Sys2Proof.Machine
end

