-- ==== Sys2Proof/Laws/Ops.lean ====
section
/-! SUPPORT. The laws of the shared operations: sequencing, phases, the end of a command, the host-contract check. -/

namespace Sys2Proof.Machine

/-! ### Sequencing -/

@[simp] theorem andThen_next (s : State) (f : State → Result) : andThen (.next s) f = f s := rfl
@[simp] theorem andThen_fault (r : Fault) (f : State → Result) : andThen (.fault r) f = .fault r := rfl
@[simp] theorem andThen_refused (r : Refusal) (f : State → Result) : andThen (.refused r) f = .refused r := rfl

@[simp] theorem andThen_next_right (o : Result) : andThen o .next = o := by cases o <;> rfl

theorem andThen_assoc (o : Result) (f g : State → Result) :
    andThen (andThen o f) g = andThen o fun s => andThen (f s) g := by cases o <;> rfl

/-- A sequence answers next exactly through a next state in the middle. -/
theorem andThen_eq_next {o : Result} {f : State → Result} {t : State} :
    andThen o f = .next t ↔ ∃ s, o = .next s ∧ f s = .next t := by
  cases o <;> simp

theorem inPhase_pos {ph : Phase} {f : State → Result} {s : State} (h : s.eng.phase = ph) : inPhase ph f s = f s :=
  if_pos h

theorem inPhase_neg {ph : Phase} {f : State → Result} {s : State} (h : s.eng.phase ≠ ph) : inPhase ph f s = .next s :=
  if_neg h

/-- `o` answers next only with states that satisfy `P`. -/
def Sat (P : State → Prop) (o : Result) : Prop := ∀ t, o = .next t → P t

@[simp] theorem sat_next {P : State → Prop} {s : State} : Sat P (.next s) ↔ P s :=
  ⟨fun h => h s rfl, fun h t e => by cases e; exact h⟩

@[simp] theorem sat_fault {P : State → Prop} {r : Fault} : Sat P (.fault r) := fun _ e => nomatch e

@[simp] theorem sat_refused {P : State → Prop} {r : Refusal} : Sat P (.refused r) := fun _ e => nomatch e

theorem Sat.mono {P Q : State → Prop} {o : Result} (h : Sat P o) (hPQ : ∀ t, P t → Q t) : Sat Q o :=
  fun t e => hPQ t (h t e)

/-- What the first part establishes, the second may assume. -/
theorem Sat.andThen {P Q : State → Prop} {o : Result} {f : State → Result} (h : Sat P o) (hf : ∀ s, P s → Sat Q (f s)) :
    Sat Q (andThen o f) := by
  intro t e
  obtain ⟨s, hs, ht⟩ := andThen_eq_next.1 e
  exact hf s (h s hs) t ht

theorem Sat.inPhase {P : State → Prop} {ph : Phase} {f : State → Result} {s : State}
    (hf : s.eng.phase = ph → Sat P (f s)) (hs : s.eng.phase ≠ ph → P s) : Sat P (inPhase ph f s) := by
  by_cases h : s.eng.phase = ph
  · rw [inPhase_pos h]; exact hf h
  · rw [inPhase_neg h]; exact sat_next.2 (hs h)

/-! ### The end of a command -/

theorem raiseStatus_eq (c : StatusCode) (s : State) : raiseStatus c s = .next (s.modEng (Engine.ended c)) := rfl

/-- A command that `raiseStatus` ends has changed nothing visible but STATUS (R244). -/
theorem endedWith_raise (c : StatusCode) (s : State) : s.EndedWith c (s.modEng (Engine.ended c)) :=
  ⟨rfl, ⟨rfl, rfl, rfl, rfl, rfl, rfl, rfl⟩, ⟨rfl, rfl, rfl, rfl⟩, rfl, rfl, rfl, rfl, rfl, rfl⟩

/-- Ending after internal registers only have changed changes nothing visible but STATUS (R252). -/
theorem EndedWith.of_around {s u t : State} {c : StatusCode} (h : u.EndedWith c t) (hmem : u.mem = s.mem)
    (ha : s.SameAround u) (ho : u.eng.SameOperands s.eng) (hl : u.eng.outLen = s.eng.outLen)
    (hf : u.eng.fatal = s.eng.fatal) : s.EndedWith c t := by
  obtain ⟨h1, h2, h3, h4, h5, h6⟩ := h
  obtain ⟨a1, a2, a3, a4, a5, a6, a7⟩ := ha
  obtain ⟨b1, b2, b3, b4, b5, b6, b7⟩ := h2
  obtain ⟨c1, c2, c3, c4⟩ := h3
  obtain ⟨d1, d2, d3, d4⟩ := ho
  exact ⟨h1.trans hmem, ⟨b1.trans a1, b2.trans a2, b3.trans a3, b4.trans a4, b5.trans a5, b6.trans a6, b7.trans a7⟩,
    ⟨c1.trans d1, c2.trans d2, c3.trans d3, c4.trans d4⟩, h4.trans hl, h5.trans hf, h6⟩

/-! ### The host-contract check -/

theorem checkContract_ok {len : Nat} {f : State → Result} {s : State} (h : contractBroken len s = none) :
    checkContract len f s = f s := by
  simp [checkContract, h]

theorem checkContract_broken {len : Nat} {f : State → Result} {s : State} {v : Violation}
    (h : contractBroken len s = some v) : checkContract len f s = .fault (.hostContract v) := by
  simp [checkContract, h]

/-- The check reads the parameters, IN_ADDR, OUT_ADDR and IN_LEN only. -/
theorem contractBroken_congr {len : Nat} {s t : State} (hc : t.cfg = s.cfg) (ho : t.eng.outAddr = s.eng.outAddr)
    (hi : t.eng.inAddr = s.eng.inAddr) (hn : t.eng.inLen = s.eng.inLen) :
    contractBroken len t = contractBroken len s := by
  unfold contractBroken State.n
  rw [hc, ho, hi, hn]

end Sys2Proof.Machine
end

