-- ==== Sys2Proof/Laws/Bytes.lean ====
section
/-! SUPPORT. The laws of the byte-order helpers (00_scope.md R12): words and their bytes determine each other. -/

namespace Sys2Proof.Machine

/-- A word is assembled from its own bytes. -/
theorem le32_leBytes (w : Word) : le32 (byteOf 0 w) (byteOf 1 w) (byteOf 2 w) (byteOf 3 w) = w := by
  apply BitVec.eq_of_getLsbD_eq
  intro i hi
  simp only [le32, byteOf, BitVec.getLsbD_or, BitVec.getLsbD_shiftLeft, BitVec.truncate_eq_setWidth, BitVec.getLsbD_setWidth, BitVec.getLsbD_ushiftRight]
  have : i < 8 ∨ (8 ≤ i ∧ i < 16) ∨ (16 ≤ i ∧ i < 24) ∨ (24 ≤ i ∧ i < 32) := by omega
  rcases this with h | h | h | h
  · simp [h, show i < 32 by omega, show i < 16 by omega, show i < 24 by omega]
  · simp [show ¬ i < 8 by omega, show i < 32 by omega, show i < 16 by omega, show i < 24 by omega, show i - 8 < 8 by omega, show i - 8 < 32 by omega, show 8 + (i - 8) = i by omega]
  · simp [show ¬ i < 8 by omega, show i < 32 by omega, show ¬ i < 16 by omega, show i < 24 by omega, show ¬ i - 8 < 8 by omega, show i - 16 < 8 by omega, show i - 16 < 32 by omega, show 16 + (i - 16) = i by omega]
  · simp [show ¬ i < 8 by omega, show i < 32 by omega, show ¬ i < 16 by omega, show ¬ i < 24 by omega, show ¬ i - 8 < 8 by omega, show ¬ i - 16 < 8 by omega, show i - 24 < 8 by omega, show i - 24 < 32 by omega, show 24 + (i - 24) = i by omega]

/-- The bytes of an assembled word are the bytes it was assembled from. -/
theorem leBytes_le32 (b0 b1 b2 b3 : Byte) : leBytes (le32 b0 b1 b2 b3) = [b0, b1, b2, b3] := by
  have key : ∀ j, j < 4 → ∀ i, i < 8 → (byteOf j (le32 b0 b1 b2 b3)).getLsbD i = ([b0,b1,b2,b3].getD j 0).getLsbD i := by
    intro j hj i hi
    simp only [le32, byteOf, BitVec.getLsbD_or, BitVec.getLsbD_shiftLeft, BitVec.truncate_eq_setWidth, BitVec.getLsbD_setWidth, BitVec.getLsbD_ushiftRight]
    have h0 : ∀ (b : Byte) (k : Nat), 8 ≤ k → b.getLsbD k = false := fun b k h => BitVec.getLsbD_of_ge b k h
    have : j = 0 ∨ j = 1 ∨ j = 2 ∨ j = 3 := by omega
    rcases this with rfl | rfl | rfl | rfl
    · simp [hi, show i < 32 by omega, show i < 16 by omega, show i < 24 by omega]
    · simp [hi, show 8 + i < 32 by omega, show 8 + i < 16 by omega, show 8 + i < 24 by omega, show i < 32 by omega]
    · simp [hi, show 16 + i < 32 by omega, show ¬ 16 + i < 16 by omega, show 16 + i < 24 by omega, h0 b0 (16+i) (by omega), show i < 32 by omega, h0 b1 (16 + i - 8) (by omega)]
    · simp [hi, show 24 + i < 32 by omega, show ¬ 24 + i < 16 by omega, show ¬ 24 + i < 24 by omega, h0 b0 (24+i) (by omega), show i < 32 by omega, h0 b1 (24 + i - 8) (by omega), h0 b2 (24 + i - 16) (by omega)]
  simp only [leBytes, List.cons.injEq, and_true]
  refine ⟨?_, ?_, ?_, ?_⟩ <;> apply BitVec.eq_of_getLsbD_eq <;> intro i hi
  · exact key 0 (by omega) i hi
  · exact key 1 (by omega) i hi
  · exact key 2 (by omega) i hi
  · exact key 3 (by omega) i hi

/-- Assembly commutes with XOR. -/
theorem le32_xor (a0 a1 a2 a3 b0 b1 b2 b3 : Byte) : le32 (a0 ^^^ b0) (a1 ^^^ b1) (a2 ^^^ b2) (a3 ^^^ b3) = le32 a0 a1 a2 a3 ^^^ le32 b0 b1 b2 b3 := by
  apply BitVec.eq_of_getLsbD_eq
  intro i hi
  have h0 : ∀ (b : Byte) (k : Nat), 8 ≤ k → b.getLsbD k = false := fun b k h => BitVec.getLsbD_of_ge b k h
  simp only [le32, BitVec.getLsbD_or, BitVec.getLsbD_xor, BitVec.getLsbD_shiftLeft, BitVec.truncate_eq_setWidth, BitVec.getLsbD_setWidth]
  have : i < 8 ∨ (8 ≤ i ∧ i < 16) ∨ (16 ≤ i ∧ i < 24) ∨ (24 ≤ i ∧ i < 32) := by omega
  rcases this with h | h | h | h
  · simp [show i < 32 by omega, show i < 8 by omega, show i < 16 by omega, show i < 24 by omega]
  · simp [show i < 32 by omega, show ¬ i < 8 by omega, show i < 16 by omega, show i < 24 by omega, h0 _ i (by omega), show i - 8 < 32 by omega]
  · simp [show i < 32 by omega, show ¬ i < 8 by omega, show ¬ i < 16 by omega, show i < 24 by omega, h0 _ i (by omega), h0 _ (i-8) (by omega), show i - 16 < 32 by omega]
  · simp [show i < 32 by omega, show ¬ i < 8 by omega, show ¬ i < 16 by omega, show ¬ i < 24 by omega, h0 _ i (by omega), h0 _ (i-8) (by omega), h0 _ (i-16) (by omega), show i - 24 < 32 by omega]

/-- A vector read as a list. -/
theorem toList_getD {n} (v : Vector Byte n) (i : Nat) (h : i < n) : v.toList.getD i 0 = v[i] := by
  simp [List.getD, h]

/-- Byte i of an identifier assembled from eight bytes. -/
theorem le64_byte (f : Nat → Byte) : ∀ i, i < 8 → ((le64 f 8) >>> (8 * i)).setWidth 8 = f i := by
  intro i hi
  have : le64 f 8 = (f 0).zeroExtend 64 ||| ((f 1).zeroExtend 64 <<< 8) ||| ((f 2).zeroExtend 64 <<< 16) ||| ((f 3).zeroExtend 64 <<< 24) ||| ((f 4).zeroExtend 64 <<< 32) ||| ((f 5).zeroExtend 64 <<< 40) ||| ((f 6).zeroExtend 64 <<< 48) ||| ((f 7).zeroExtend 64 <<< 56) := by
    simp [le64, List.range_succ]
  rw [this]
  apply BitVec.eq_of_getLsbD_eq
  intro j hj
  simp only [BitVec.getLsbD_setWidth, hj, decide_true, Bool.true_and, BitVec.getLsbD_ushiftRight, BitVec.getLsbD_or, BitVec.getLsbD_shiftLeft]
  interval_cases i <;> interval_cases j <;> simp

end Sys2Proof.Machine
end

