-- ==== Sys2Proof/Laws/Header.lean ====
section
/-! SUPPORT. The laws of the header parser's shared operations (41_header_parser.md R130): one lemma per outcome. -/

namespace Sys2Proof.Machine

/-! ### A field that is taken, a field that is cut short -/

theorem takeKeyId_ok {k : Byte} {s : State} (h : s.eng.p + 1 + k.toNat < s.n) :
    takeKeyId k s = .next { s with eng := { s.eng with
      kis := k, keyId := le64 (fun i => s.inByte (s.eng.p + 1 + i)) k.toNat, p := s.eng.p + 1 + k.toNat, field := some .ivs } } := by
  unfold takeKeyId
  exact if_pos h

theorem takeKeyId_short {k : Byte} {s : State} (h : s.n ≤ s.eng.p + 1 + k.toNat) :
    takeKeyId k s = raiseStatus .fileCorrupt (s.modEng fun e => { e with kis := k, p := e.p + 1 }) := by
  unfold takeKeyId
  exact if_neg (Nat.not_lt.2 h)

theorem takeIv_ok {v : Byte} {s : State} (h : s.eng.p + 1 + v.toNat < s.n) :
    takeIv v s = .next { s with eng := { s.eng with
      ivs := v, baseIv := Vector.ofFn fun i : Fin 8 => if i.val < v.toNat then s.inByte (s.eng.p + 1 + i.val) else 0x00
      p := s.eng.p + 1 + v.toNat, field := some .marker } } := by
  unfold takeIv
  exact if_pos h

theorem takeIv_short {v : Byte} {s : State} (h : s.n ≤ s.eng.p + 1 + v.toNat) :
    takeIv v s = raiseStatus .fileCorrupt (s.modEng fun e => { e with ivs := v, p := e.p + 1 }) := by
  unfold takeIv
  exact if_neg (Nat.not_lt.2 h)

/-! ### A command that ends -/

/-- A command that ends after internal registers only have changed. -/
theorem ended_through (c : StatusCode) (s : State) (f : Engine → Engine)
    (h1 : (f s.eng).SameOperands s.eng) (h2 : (f s.eng).outLen = s.eng.outLen) (h3 : (f s.eng).fatal = s.eng.fatal) :
    ∃ t, raiseStatus c (s.modEng f) = .next t ∧ s.EndedWith c t :=
  ⟨_, rfl, EndedWith.of_around (endedWith_raise c _) rfl ⟨rfl, rfl, rfl, rfl, rfl, rfl, rfl⟩ h1 h2 h3⟩

/-! ### One header byte -/

theorem headerByte_kis {b : Byte} (h : b = 0x00 ∨ b = 0x08) (s : State) : headerByte .kis b s = takeKeyId b s := by
  rcases h with rfl | rfl <;> rfl

theorem headerByte_ivs {b : Byte} (h : b = 0x04 ∨ b = 0x08) (s : State) : headerByte .ivs b s = takeIv b s := by
  rcases h with rfl | rfl <;> rfl

theorem headerByte_marker {b : Byte} (h : b = 0x53 ∨ b = 0x41) {s : State} (hp : s.eng.phase ≠ .setup) : headerByte .marker b s = takeMarker b s := by
  rcases h with rfl | rfl
  · exact if_neg hp
  · exact if_neg hp

theorem headerByte_kis_other {b : Byte} (h : b ≠ 0x00 ∧ b ≠ 0x08) (s : State) : headerByte .kis b s = raiseStatus .notSupported (s.modEng fun e => { e with kis := b }) := by
  unfold headerByte; simp only; rw [if_neg h.1, if_neg h.2]; rfl

theorem headerByte_ivs_other {b : Byte} (h : b ≠ 0x04 ∧ b ≠ 0x08) (s : State) : headerByte .ivs b s = raiseStatus .notSupported (s.modEng fun e => { e with ivs := b }) := by
  unfold headerByte; simp only; rw [if_neg h.1, if_neg h.2]; rfl

theorem headerByte_marker_other {b : Byte} (h : b ≠ 0x53 ∧ b ≠ 0x41) {s : State} (hp : s.eng.phase ≠ .setup) : headerByte .marker b s = raiseStatus .notSupported (s.modEng fun e => { e with marker := b }) := by
  unfold headerByte; simp only; rw [if_neg h.1, if_neg h.2]; exact if_neg hp

/-! ### One field -/

theorem parseField_none {s : State} (h : s.eng.field = none) : parseField s = .next s := by
  unfold parseField; rw [h]

theorem parseField_short {s : State} {f} (h : s.eng.field = some f) (hp : s.n ≤ s.eng.p) : parseField s = raiseStatus .fileCorrupt s := by
  unfold parseField; rw [h]; exact if_neg (by omega)

theorem parseField_some {s : State} {f} (h : s.eng.field = some f) (hp : s.eng.p < s.n) : parseField s = headerByte f (s.inByte s.eng.p) s := by
  unfold parseField; rw [h]; exact if_pos hp

end Sys2Proof.Machine
end

