-- ==== Sys2Proof/Laws/Ranges.lean ====
section
/-! SUPPORT. The laws of address ranges (20_memory.md R61, 44_dispatch.md R223): membership and meeting as index sets modulo
the size of the memory; what a contract that holds says of the two buffers. -/

namespace Sys2Proof

/-- An address of the memory lies in a range exactly when it is one of its bytes. -/
theorem inRange_iff {M base len a : Nat} (hM : 0 < M) (ha : a < M) : inRange M base len a = true ↔ ∃ i, i < len ∧ a = (base + i) % M := by
  simp only [inRange, decide_eq_true_eq]
  have hb : base % M < M := Nat.mod_lt _ hM
  constructor
  · intro h
    refine ⟨_, h, ?_⟩
    rw [Nat.add_mod_mod, ← Nat.mod_add_mod base M, show base % M + (a + M - base % M) = a + M by omega, Nat.add_mod_right, Nat.mod_eq_of_lt ha]
  · rintro ⟨i, hi, rfl⟩
    have : ((base + i) % M + M - base % M) % M = i % M := by
      rw [← Nat.mod_add_mod base M i]
      generalize base % M = b at hb
      rw [show (b + i) % M + M - b = (b + i) % M + (M - b) by omega, Nat.mod_add_mod, show b + i + (M - b) = i + M by omega, Nat.add_mod_right]
    rw [this]
    exact lt_of_le_of_lt (Nat.mod_le _ _) hi

/-- The same for any address, modulo the size. -/
theorem inRange_mod_iff {M base len a : Nat} (hM : 0 < M) : inRange M base len a = true ↔ ∃ i, i < len ∧ a % M = (base + i) % M := by
  rw [← inRange_iff hM (Nat.mod_lt a hM)]
  simp only [inRange, decide_eq_true_eq]
  have hb : base % M < M := Nat.mod_lt _ hM
  rw [show a + M - base % M = a + (M - base % M) by omega, show a % M + M - base % M = a % M + (M - base % M) by omega, Nat.mod_add_mod]

/-- Two ranges meet exactly when a byte of one is a byte of the other. -/
theorem rangesMeet_iff {M a la b lb : Nat} (hM : 0 < M) : rangesMeet M a la b lb = true ↔ ∃ j, j < la ∧ ∃ i, i < lb ∧ (a + j) % M = (b + i) % M := by
  simp only [rangesMeet, Bool.and_eq_true, decide_eq_true_eq, Bool.or_eq_true, inRange_mod_iff hM]
  constructor
  · rintro ⟨⟨h1, h2⟩, ⟨j, hj, e⟩ | ⟨i, hi, e⟩⟩
    · exact ⟨j, hj, 0, h2, by simpa using e.symm⟩
    · exact ⟨0, h1, i, hi, by simpa using e⟩
  · rintro ⟨j, hj, i, hi, e⟩
    refine ⟨⟨by omega, by omega⟩, ?_⟩
    by_cases h : i ≤ j
    · left
      refine ⟨j - i, by omega, ?_⟩
      have : (a + (j - i) + i) % M = (b + i) % M := by rw [← e]; congr 1; omega
      exact (Nat.ModEq.add_right_cancel' i this).symm
    · right
      refine ⟨i - j, by omega, ?_⟩
      have : (a + j) % M = (b + (i - j) + j) % M := by rw [e]; congr 1; omega
      exact Nat.ModEq.add_right_cancel' j this

end Sys2Proof

namespace Sys2Proof.Machine

/-- A command whose contract holds writes distinct addresses, none of them an input address. -/
theorem contract_disjoint {len : Nat} {s : State} (h : contractBroken len s = none) :
    (∀ i j, i < len → j < len → i ≠ j → s.outAt i ≠ s.outAt j) ∧
    (∀ i j, i < s.n → j < len → s.cfg.addr s.eng.inAddr i ≠ s.outAt j) := by
  by_cases h0 : len = 0
  · exact ⟨fun i j hi => absurd hi (by omega), fun i j _ hj => absurd hj (by omega)⟩
  have hM := size_pos s.cfg
  unfold contractBroken at h
  rw [if_neg h0] at h
  split at h
  · simp at h
  next hn =>
  push Not at hn
  obtain ⟨h1, h2⟩ := hn
  rw [Ne, rangesMeet_iff hM] at h2
  push Not at h2
  refine ⟨?_, ?_⟩
  · intro i j hi hj hij e
    simp only [State.outAt, Config.addr] at e
    have := Nat.ModEq.add_left_cancel' _ e
    have := Nat.ModEq.eq_of_lt_of_lt this (by omega) (by omega)
    exact hij this
  · intro i j hi hj e
    exact h2 j hj i hi e.symm

end Sys2Proof.Machine
end

