-- ==== Sys2Proof/Laws/Salsa.lean ====
section
/-! SUPPORT. The laws of the Salsa20 engine's shared operations: the counter inside the matrix, the feed-forward, the bytes
XOR_STREAM writes in one turn. -/

namespace Sys2Proof.Machine

/-! ### The counter -/

/-- The words of an incremented matrix. -/
theorem counterUp_words (x : Matrix16) : (counterUp x)[8] = x[8] + 1 ∧ (counterUp x)[9] = (if x[8] + 1 = 0 then x[9] + 1 else x[9]) ∧ ∀ i, (h : i < 16) → i ≠ 8 → i ≠ 9 → (counterUp x)[i] = x[i] := by
  have e : counterUp x = if x[8] + 1 = 0 then (x.set 8 (x[8] + 1)).set 9 (x[9] + 1) else x.set 8 (x[8] + 1) := by
    simp [counterUp]
  rw [e]
  by_cases h : x[8] + 1 = 0
  · simp only [h, if_true]
    refine ⟨by simp, by simp, fun i hi h8 h9 => by simp [Ne.symm h8, Ne.symm h9]⟩
  · simp only [h, if_false]
    refine ⟨by simp, by simp, fun i hi h8 h9 => by simp [Ne.symm h8]⟩

theorem append_toNat (a b : Word) : (a ++ b : DWord).toNat = a.toNat * 2^32 + b.toNat := by
  rw [BitVec.toNat_append, Nat.shiftLeft_eq, Nat.mul_comm, Nat.two_pow_add_eq_or_of_lt b.isLt, Nat.mul_comm]

/-- A carry into the high word is the 64-bit increment. -/
theorem append_succ (a b : Word) : (if b + 1 = 0 then a + 1 else a) ++ (b + 1) = ((a ++ b : DWord) + 1 : DWord) := by
  apply BitVec.eq_of_toNat_eq
  have ha := a.isLt
  have hb := b.isLt
  rw [BitVec.toNat_add, append_toNat, append_toNat]
  by_cases h : b + 1 = 0
  · rw [if_pos h, h]
    have : b.toNat = 2^32 - 1 := by bv_omega
    simp only [BitVec.toNat_add]
    simp [this]
    omega
  · rw [if_neg h]
    have : (b + 1).toNat = b.toNat + 1 := by bv_omega
    rw [this]
    simp
    omega

/-- The words of a matrix with its counter set. -/
theorem withCounter_words (x : Matrix16) (c : DWord) : (withCounter x c)[8] = c.setWidth 32 ∧ (withCounter x c)[9] = (c >>> 32).setWidth 32 ∧ ∀ i, (h : i < 16) → i ≠ 8 → i ≠ 9 → (withCounter x c)[i] = x[i] := by
  refine ⟨by simp [withCounter], by simp [withCounter], fun i hi h8 h9 => by simp [withCounter, Ne.symm h8, Ne.symm h9]⟩

/-- Matrices that agree on the counter words and on all others are equal. -/
theorem matrix_ext_counter {x y : Matrix16} (h8 : x[8] = y[8]) (h9 : x[9] = y[9]) (h : ∀ i, (h : i < 16) → i ≠ 8 → i ≠ 9 → x[i] = y[i]) : x = y := by
  ext i hi : 1
  by_cases e8 : i = 8
  · subst e8; exact h8
  by_cases e9 : i = 9
  · subst e9; exact h9
  exact h i hi e8 e9

/-- A counter is put together from its halves. -/
theorem split64 (c : DWord) : ((c >>> 32).setWidth 32 : Word) ++ (c.setWidth 32 : Word) = c := by
  apply BitVec.eq_of_getLsbD_eq
  intro i hi
  simp only [BitVec.getLsbD_append, BitVec.getLsbD_setWidth, BitVec.getLsbD_ushiftRight]
  by_cases h : i < 32
  · simp [h]
  · simp [h, show i - 32 < 32 by omega, show 32 + (i - 32) = i by omega]

theorem counterOf_withCounter (x : Matrix16) (c : DWord) : counterOf (withCounter x c) = c := by
  obtain ⟨h8, h9, -⟩ := withCounter_words x c
  simp only [counterOf]
  rw [h8, h9]; exact split64 c

theorem append_inj32 {a b c d : Word} (h : (a ++ b : DWord) = c ++ d) : a = c ∧ b = d := by
  constructor
  · apply BitVec.eq_of_getLsbD_eq; intro i hi
    have := congrArg (fun v : DWord => v.getLsbD (i + 32)) h
    simp only [BitVec.getLsbD_append, show ¬ i + 32 < 32 by omega, Nat.add_sub_cancel, if_false] at this
    exact this
  · apply BitVec.eq_of_getLsbD_eq; intro i hi
    have := congrArg (fun v : DWord => v.getLsbD i) h
    simp only [BitVec.getLsbD_append, hi, if_true] at this
    exact this

/-- A matrix that differs in its counter only. -/
theorem eq_withCounter (x y : Matrix16) (h : ∀ i, (h : i < 16) → i ≠ 8 → i ≠ 9 → y[i] = x[i]) : y = withCounter x (counterOf y) := by
  have e : counterOf (withCounter x (counterOf y)) = counterOf y := counterOf_withCounter _ _
  obtain ⟨e9, e8⟩ := append_inj32 e
  refine matrix_ext_counter e8.symm e9.symm ?_
  intro i hi h8 h9
  rw [(withCounter_words x _).2.2 i hi h8 h9]; exact h i hi h8 h9

theorem counterOf_counterUp (x : Matrix16) : counterOf (counterUp x) = counterOf x + 1 := by
  obtain ⟨h8, h9, -⟩ := counterUp_words x
  simp only [counterOf]
  rw [h8, h9, append_succ]

theorem counterUp_withCounter (x : Matrix16) (c : DWord) : counterUp (withCounter x c) = withCounter x (c + 1) := by
  have := eq_withCounter x (counterUp (withCounter x c)) (fun i hi h8 h9 => by
    rw [(counterUp_words _).2.2 i hi h8 h9, (withCounter_words x c).2.2 i hi h8 h9])
  rw [counterOf_counterUp, counterOf_withCounter] at this
  exact this

theorem withCounter_self (x : Matrix16) : withCounter x (counterOf x) = x :=
  (eq_withCounter x x fun _ _ _ _ => rfl).symm

theorem withCounter_withCounter (x : Matrix16) (c d : DWord) : withCounter (withCounter x c) d = withCounter x d := by
  have := eq_withCounter x (withCounter (withCounter x c) d) (fun i hi h8 h9 => by
    rw [(withCounter_words _ _).2.2 i hi h8 h9, (withCounter_words x c).2.2 i hi h8 h9])
  rwa [counterOf_withCounter] at this

/-- A fresh matrix has counter 0. -/
theorem counterOf_keyMatrix (k iv : List Byte) : counterOf (keyMatrix k iv) = 0 := by
  show ((0 : Word) ++ (0 : Word) : DWord) = 0
  decide

/-! ### The block -/

theorem feedForward_get (z x : Matrix16) (i : Nat) (h : i < 64) : (feedForward z x)[i] = byteOf (i % 4) (z[i / 4] + x[i / 4]) := by
  simp [feedForward]

/-! ### One turn of XOR_STREAM -/

/-- XOR_STREAM's bytes change memory only. -/
theorem xorBytes_around (src dst m : Nat) (s : State) : (xorBytes src dst m s) = { s with mem := (xorBytes src dst m s).mem } := by
  induction m with
  | zero => rfl
  | succ m ih =>
    simp only [xorBytes]
    generalize xorBytes src dst m s = t at ih
    cases t; cases s
    simp only [State.mk.injEq, true_and] at ih
    obtain ⟨rfl, rfl, rfl, rfl, rfl, rfl, rfl, rfl⟩ := ih
    rfl

theorem xorBytes_eng (src dst m : Nat) (s : State) : (xorBytes src dst m s).eng = s.eng := by rw [xorBytes_around]

theorem xorBytes_cfg (src dst m : Nat) (s : State) : (xorBytes src dst m s).cfg = s.cfg := by rw [xorBytes_around]

/-- The bytes written, the bytes left alone and the canonical form; with an injective output disjoint from the input, each byte is the input byte XORed with the keystream byte. -/
theorem xorBytes_mem (src dst m : Nat) (s : State) (hwf : s.mem.Wf) :
    (xorBytes src dst m s).mem.Wf ∧
    (∀ a, (∀ i, i < m → a ≠ s.outAt (dst + s.eng.pos + i)) → (xorBytes src dst m s).mem.read a = s.mem.read a) ∧
    ((∀ i j, i < m → j < m → i ≠ j → s.outAt (dst + s.eng.pos + i) ≠ s.outAt (dst + s.eng.pos + j)) →
     (∀ i j, i < m → j < m → s.cfg.addr s.eng.inAddr (src + s.eng.pos + i) ≠ s.outAt (dst + s.eng.pos + j)) →
     ∀ i, i < m → (xorBytes src dst m s).mem.read (s.outAt (dst + s.eng.pos + i)) = s.inByte (src + s.eng.pos + i) ^^^ s.eng.ks.toList.getD i 0) := by
  induction m with
  | zero => exact ⟨hwf, fun _ _ => rfl, fun _ _ i h => absurd h (by omega)⟩
  | succ m ih =>
    obtain ⟨w, fr, val⟩ := ih
    have e : (xorBytes src dst (m+1) s).mem = (xorBytes src dst m s).mem.write (s.outAt (dst + s.eng.pos + m)) ((xorBytes src dst m s).mem.read (s.cfg.addr s.eng.inAddr (src + s.eng.pos + m)) ^^^ s.eng.ks.toList.getD m 0) := by
      simp only [xorBytes, State.outByte_mem, State.outAt, State.inByte, xorBytes_eng, xorBytes_cfg]
    rw [e]
    refine ⟨w.write _ _, ?_, ?_⟩
    · intro a ha
      rw [Memory.read_write_ne w _ (ha m (by omega))]
      exact fr a fun i hi => ha i (by omega)
    · intro hinj hdis i hi
      by_cases him : i = m
      · subst him
        rw [Memory.read_write_self w, fr _ (fun j hj => hdis i j (by omega) (by omega))]
        rfl
      · rw [Memory.read_write_ne w _ (hinj i m hi (by omega) him)]
        exact val (fun i j hi hj => hinj i j (by omega) (by omega)) (fun i j hi hj => hdis i j (by omega) (by omega)) i (by omega)

/-- A state that differs from another in memory and selected instance only. -/
theorem eq_of_around {s t : State} (h : s.SameAround t) : t = { s with mem := t.mem, eng := t.eng } := by
  obtain ⟨a1, a2, a3, a4, a5, a6, a7⟩ := h
  cases s; cases t
  simp only at a1 a2 a3 a4 a5 a6 a7
  subst a1 a2 a3 a4 a5 a6 a7
  rfl

/-- Everything one turn does (R180). -/
theorem xorTurn_spec (src len : Nat) (s : State) (wf : s.mem.Wf) :
    s.SameAround (xorTurn src 0 len s) ∧
    (xorTurn src 0 len s).eng = { s.eng with x := counterUp s.eng.x, z := doubleRounds 10 s.eng.x, ks := blockBytes s.eng.x, pos := s.eng.pos + min 64 (len - s.eng.pos) } ∧
    (xorTurn src 0 len s).mem.Wf ∧
    (∀ a, (∀ i, i < min 64 (len - s.eng.pos) → a ≠ s.outAt (s.eng.pos + i)) → (xorTurn src 0 len s).mem.read a = s.mem.read a) ∧
    ((∀ i j, i < min 64 (len - s.eng.pos) → j < min 64 (len - s.eng.pos) → i ≠ j → s.outAt (s.eng.pos + i) ≠ s.outAt (s.eng.pos + j)) →
     (∀ i j, i < min 64 (len - s.eng.pos) → j < min 64 (len - s.eng.pos) → s.cfg.addr s.eng.inAddr (src + s.eng.pos + i) ≠ s.outAt (s.eng.pos + j)) →
     ∀ i, i < min 64 (len - s.eng.pos) → (xorTurn src 0 len s).mem.read (s.outAt (s.eng.pos + i)) = s.inByte (src + s.eng.pos + i) ^^^ (blockBytes s.eng.x).toList.getD i 0) := by
  have h := xorBytes_mem src 0 (min 64 (len - s.eng.pos)) (s.modEng Engine.blockStep) wf
  obtain ⟨m', e⟩ : ∃ m', xorBytes src 0 (min 64 (len - s.eng.pos)) (s.modEng Engine.blockStep) = { s.modEng Engine.blockStep with mem := m' } := ⟨_, xorBytes_around ..⟩
  have et : xorTurn src 0 len s = (xorBytes src 0 (min 64 (len - s.eng.pos)) (s.modEng Engine.blockStep)).modEng fun e => Engine.ctrStep { e with pos := e.pos + min 64 (len - s.eng.pos) } := rfl
  rw [et]
  rw [e] at h ⊢
  obtain ⟨w, f, v⟩ := h
  simp only [State.modEng_eng, Engine.blockStep_pos, Nat.zero_add] at f v
  exact ⟨⟨rfl, rfl, rfl, rfl, rfl, rfl, rfl⟩, rfl, w, f, v⟩

end Sys2Proof.Machine
end

