-- ==== Sys2Proof/Laws/Commands.lean ====
section
/-! SUPPORT. The laws of the commands' shared operations: the key store's scan, the capacity checks, the copy, the dispatch
of a command and of a header byte, what a reset leaves of an abandoned command's output. -/

namespace Sys2Proof.Machine

/-! ### The key store and the IV mixer -/

theorem execLookup_found {s : State} {k} (h : lookupKey s.cfg.keyTable s.eng.keyId = some k) :
    execLookup s = .next (s.modEng fun e => { e with key := k, hit := true }) := by
  unfold execLookup; rw [h]

theorem execLookup_notFound {s : State} (h : lookupKey s.cfg.keyTable s.eng.keyId = none) :
    execLookup s = .next (s.modEng fun e => { e with hit := false }) := by
  unfold execLookup; rw [h]

/-- Entries before the sentinel that do not match are passed over (R122). -/
theorem scanKeys_before (before rest : List KeyEntry) (k : DWord) (h : ∀ o ∈ before, o.keyId ≠ 0 ∧ o.keyId ≠ k) : scanKeys (before ++ rest) k = scanKeys rest k := by
  induction before with
  | nil => rfl
  | cons o os ih =>
    have := h o (List.mem_cons_self ..)
    simp only [List.cons_append, scanKeys, this.1, this.2, if_false]
    exact ih fun p hp => h p (List.mem_cons_of_mem _ hp)

theorem mixIv_get (iv : Vector Byte 8) (fi : Word) (i : Nat) (h : i < 8) : (mixIv iv fi)[i] = if i < 4 then iv[i] ^^^ byteOf i fi else iv[i] := by
  simp [mixIv]

/-! ### The capacity checks -/

theorem copyCap_long {s : State} (h : s.cap + 1 < s.n) : copyCap s = raiseStatus .insufficientBuffer s := if_pos h

theorem copyCap_fits {s : State} (h : s.n ≤ s.cap + 1) (hc : contractBroken s.n s = none) :
    copyCap s = .next (s.modEng fun e => { e with phase := .copy }) := by
  unfold copyCap; rw [if_neg (Nat.not_lt.2 h), checkContract_ok hc]

theorem copyCap_broken {s : State} {v : Violation} (h : s.n ≤ s.cap + 1) (hc : contractBroken s.n s = some v) :
    copyCap s = .fault (.hostContract v) := by
  unfold copyCap; rw [if_neg (Nat.not_lt.2 h), checkContract_broken hc]

theorem decryptCap_long {s : State} (h : s.cap < s.plen) : decryptCap s = raiseStatus .insufficientBuffer s := if_pos h

theorem decryptCap_fits {s : State} (h : s.plen ≤ s.cap) : decryptCap s = .next (s.modEng fun e => { e with phase := .lookup }) :=
  if_neg (Nat.not_lt.2 h)

/-! ### The copy -/

/-- Everything the copy does (R217). -/
theorem copyBytes_spec (m : Nat) (s : State) (hwf : s.mem.Wf) :
    s.SameAround (copyBytes m s) ∧ (copyBytes m s).eng = s.eng ∧ (copyBytes m s).mem.Wf ∧
    (∀ a, (∀ i, i < m → a ≠ s.outAt i) → (copyBytes m s).mem.read a = s.mem.read a) ∧
    ((∀ i j, i < m → j < m → i ≠ j → s.outAt i ≠ s.outAt j) →
     (∀ i j, i < m → j < m → s.cfg.addr s.eng.inAddr i ≠ s.outAt j) →
     ∀ i, i < m → (copyBytes m s).mem.read (s.outAt i) = s.inByte i) := by
  induction m with
  | zero => exact ⟨⟨rfl, rfl, rfl, rfl, rfl, rfl, rfl⟩, rfl, hwf, fun _ _ => rfl, fun _ _ i h => absurd h (by omega)⟩
  | succ m ih =>
    obtain ⟨ar, en, w, fr, val⟩ := ih
    have e : copyBytes (m + 1) s = (copyBytes m s).outByte m ((copyBytes m s).inByte m) := rfl
    rw [e]
    generalize copyBytes m s = t at *
    have oa : ∀ i, t.outAt i = s.outAt i := fun i => by unfold State.outAt; rw [ar.1, en]
    refine ⟨ar, en, w.write _ _, ?_, ?_⟩
    · intro a ha
      show (t.mem.write _ _).read a = _
      rw [Memory.read_write_ne w _ (by rw [oa]; exact ha m (by omega))]
      exact fr a fun i hi => ha i (by omega)
    · intro hinj hdis i hi
      show (t.mem.write _ _).read _ = _
      by_cases him : i = m
      · subst him
        rw [← oa, Memory.read_write_self w]
        unfold State.inByte
        rw [ar.1, en]
        exact fr _ fun j hj => hdis i j (by omega) (by omega)
      · rw [Memory.read_write_ne w _ (by rw [oa]; exact hinj i m hi (by omega) him)]
        exact val (fun i j hi hj => hinj i j (by omega) (by omega)) (fun i j hi hj => hdis i j (by omega) (by omega)) i (by omega)

/-! ### DECRYPT -/

/-- DECRYPT as one chain of phases (R40). -/
theorem execDecrypt_eq (s : State) :
    execDecrypt s =
      andThen (inPhase .idle decryptStart s) fun s => andThen (inPhase .parse parsePhase s) fun s =>
      andThen (inPhase .checkCap decryptCap s) fun s =>
      andThen (inPhase .lookup (fun s => andThen (execLookup s) afterLookup) s) fun s =>
      andThen (inPhase .derive (fun s => andThen (execDeriveIv s) afterDerive) s) fun s =>
      andThen (inPhase .setup setupPhase s) fun s => inPhase .stream (fun s => andThen (execXorStream s) afterStream) s := by
  simp only [execDecrypt, decryptToSetup, andThen_assoc]

/-! ### Dispatch -/

/-- The command the captured opcode selects is the meaning of the decoded opcode. -/
theorem runCommand_eq (s : State) : runCommand s = exec (decodeCmd s.eng.op) s := by
  unfold runCommand decodeCmd
  split
  · rfl
  split <;> rfl

/-- A decoded header byte means what its field says. -/
theorem exec_decodeHeaderByte (f : FrameField) (b : Byte) (s : State) : exec (decodeHeaderByte f b) s = headerByte f b s := by
  unfold decodeHeaderByte headerByte
  cases f <;> simp only <;> split <;> try rfl
  all_goals split <;> rfl

/-! ### The host -/

theorem hostAddress_ok {a f} {s : State} (h : a < 2 ^ s.cfg.addrW) (h2 : s.cfg.onDevice a 1 = false) : hostAddress a f s = f s := by
  unfold hostAddress Config.size; rw [if_neg (by omega), if_neg (by simp [h2])]

/-- Each byte of an abandoned output is its old or its would-be value (R271). -/
theorem drawBytes_spec (base : Word) (new : Memory) (k : Nat) (s : State) (hwf : s.mem.Wf) :
    (drawBytes base new k s) = { s with mem := (drawBytes base new k s).mem, draws := (drawBytes base new k s).draws } ∧ (drawBytes base new k s).mem.Wf ∧
    ∀ a, (drawBytes base new k s).mem.read a = s.mem.read a ∨ ((∃ j, j < k ∧ a = s.cfg.addr base j) ∧ (drawBytes base new k s).mem.read a = new.read a) := by
  induction k with
  | zero => exact ⟨rfl, hwf, fun a => .inl rfl⟩
  | succ k ih =>
    obtain ⟨e, w, h⟩ := ih
    have e1 : drawBytes base new (k+1) s = { drawBytes base new k s with
      mem := (drawBytes base new k s).mem.write ((drawBytes base new k s).cfg.addr base k) (pick (Config.freeBit (drawBytes base new k s).draws) ((drawBytes base new k s).mem.read ((drawBytes base new k s).cfg.addr base k)) (new.read ((drawBytes base new k s).cfg.addr base k)))
      draws := (drawBytes base new k s).draws + 1 } := rfl
    have ec : (drawBytes base new k s).cfg = s.cfg := by rw [e]
    rw [ec] at e1
    generalize drawBytes base new k s = t at *
    rw [e1]
    refine ⟨?_, w.write _ _, fun a => ?_⟩
    · cases t; simp only [State.mk.injEq, true_and] at e ⊢; tauto
    · show (Memory.write _ _ _).read a = _ ∨ (_ ∧ (Memory.write _ _ _).read a = _)
      rw [Memory.read_write w]
      by_cases ha : a = s.cfg.addr base k
      · rw [if_pos ha, ← ha]
        unfold pick
        split
        · exact .inr ⟨⟨k, by omega, ha⟩, rfl⟩
        · rcases h a with h | ⟨⟨j, hj, hja⟩, h⟩
          · exact .inl h
          · exact .inr ⟨⟨j, by omega, hja⟩, h⟩
      · rw [if_neg ha]
        rcases h a with h | ⟨⟨j, hj, hja⟩, h⟩
        · exact .inl h
        · exact .inr ⟨⟨j, by omega, hja⟩, h⟩

end Sys2Proof.Machine
end

