-- ==== Sys2Proof/Laws/Host.lean ====
section
/-! SUPPORT. The laws of the host's side and of the turns: what R281's check finds at an acceptance, the choice of an
instance, whose command runs when the engines have the turn. -/

namespace Sys2Proof.Machine

/-! ### Commands that run at the same time -/

theorem conflict_iff (s : State) (a b : Engine) : s.conflict a b = true ↔ s.Conflict a b := by
  simp only [State.conflict, Bool.or_eq_true, rangesMeet_iff (size_pos s.cfg), State.Conflict, State.Meet, Config.addr, or_assoc]

theorem checkShared_ok {s : State} (h : ∀ o ∈ s.others, o.busy = true → ¬ s.Conflict s.eng o) : checkShared s = .next s := by
  refine if_neg fun hc => ?_
  simp only [Bool.and_eq_true, List.any_eq_true] at hc
  obtain ⟨-, o, ho, hb, hk⟩ := hc
  exact h o ho hb ((conflict_iff ..).1 hk)

theorem checkShared_broken {s : State} {o : Engine} (hs : s.eng.busy = true) (ho : o ∈ s.others) (hb : o.busy = true)
    (h : s.Conflict s.eng o) : checkShared s = .fault (.hostContract .sharedRange) := by
  refine if_pos ?_
  simp only [Bool.and_eq_true, List.any_eq_true]
  exact ⟨hs, o, ho, hb, (conflict_iff ..).2 h⟩

/-! ### The choice of an instance -/

theorem engines_self (s : State) : s.engines[s.left.length]? = some s.eng := by simp [State.engines]

theorem drop_of_getElem? {l : List α} {k : Nat} {e : α} (h : l[k]? = some e) : l.drop k = e :: l.drop (k + 1) := by
  obtain ⟨hk, rfl⟩ := List.getElem?_eq_some_iff.1 h
  exact List.drop_eq_getElem_cons hk

theorem selectEngine_eq {s : State} {k : Nat} {e : Engine} (h : s.engines[k]? = some e) :
    selectEngine k s = .next { s with left := s.engines.take k, eng := e, right := s.engines.drop (k + 1) } := by
  unfold selectEngine
  rw [drop_of_getElem? h]

/-- Choosing an instance changes none. -/
theorem engines_select {s : State} {k : Nat} {e : Engine} (h : s.engines[k]? = some e) :
    ({ s with left := s.engines.take k, eng := e, right := s.engines.drop (k + 1) } : State).engines = s.engines := by
  show s.engines.take k ++ e :: s.engines.drop (k + 1) = s.engines
  rw [← drop_of_getElem? h, List.take_append_drop]

theorem firstBusy_eq {s : State} {k : Nat} {e : Engine} (h : s.engines[k]? = some e) (hb : e.busy = true)
    (hf : ∀ o ∈ s.engines.take k, o.busy = false) : s.firstBusy = some k := by
  obtain ⟨hk, he⟩ := List.getElem?_eq_some_iff.1 h
  unfold State.firstBusy
  rw [List.findIdx?_eq_some_iff_getElem]
  refine ⟨hk, by rw [he]; exact hb, fun j hj => ?_⟩
  rw [hf _ (List.mem_take_iff_getElem.2 ⟨j, by omega, rfl⟩)]
  decide

/-! ### The engines' turn -/

theorem enginesRun_self {s : State} (h : s.eng.busy = true) : enginesRun s = exec (decodeCmd s.eng.op) s := if_pos h

theorem enginesRun_other {s : State} {k : Nat} {e : Engine} (hs : s.eng.busy = false) (h : s.engines[k]? = some e)
    (hb : e.busy = true) (hf : ∀ o ∈ s.engines.take k, o.busy = false) :
    enginesRun s
      = andThen (exec (decodeCmd e.op) { s with left := s.engines.take k, eng := e, right := s.engines.drop (k + 1) })
          (selectEngine s.left.length) := by
  unfold enginesRun
  rw [if_neg (by simp [hs]), firstBusy_eq h hb hf]
  simp only [runInstance, selectEngine_eq h, andThen_next, engineRun]

theorem enginesRun_idle {s : State} (h : ∀ e ∈ s.engines, e.busy = false) : enginesRun s = .next s := by
  have hf : s.firstBusy = none := by
    unfold State.firstBusy
    rw [List.findIdx?_eq_none_iff]
    exact fun e he => by simpa using h e he
  unfold enginesRun
  rw [if_neg (by simp [h s.eng (by simp [State.engines])]), hf]

/-- The engines' turn of another instance, told once: its command's outcome, with every other instance as it was and the
selected one selected again. -/
theorem enginesRun_other_next {s u t : State} {k : Nat} {e : Engine} (h : s.engines[k]? = some e)
    (hu : u.left = s.engines.take k ∧ u.right = s.engines.drop (k + 1)) (ht : selectEngine s.left.length u = .next t) :
    t.engines = s.engines.set k u.eng ∧ t.left.length = s.left.length ∧
      t = { u with left := t.left, eng := t.eng, right := t.right } := by
  obtain ⟨hk, -⟩ := List.getElem?_eq_some_iff.1 h
  have hl : s.left.length < s.engines.length := by simp [State.engines]
  have he : u.engines = s.engines.set k u.eng := by
    unfold State.engines at *
    rw [hu.1, hu.2, List.set_eq_take_append_cons_drop, if_pos hk]
  have hlu : s.left.length < u.engines.length := by rw [he]; simpa using hl
  have hsel := selectEngine_eq (s := u) (k := s.left.length) (e := u.engines[s.left.length]) (List.getElem?_eq_getElem hlu)
  rw [hsel] at ht
  cases ht
  exact ⟨(engines_select (List.getElem?_eq_getElem hlu)).trans he, by simp; omega, rfl⟩

end Sys2Proof.Machine
end

