-- ==== Sys2Proof/Tests/Slice0.lean ====
section
/-! SUPPORT. The model's own tests. Expected values are spec/95_test_vectors.md's (V-*, P*) or a rule's own example; words
are written out from spec/30_encoding.md. Then one witness per obligation: a state that meets its hypotheses. -/

namespace Sys2Proof.Tests

open Sys2Proof Sys2Proof.Machine

-- One test after the other: each waits for the kernel, and waiting ones hold a thread each.
set_option Elab.async false

/-! ### Well-formedness: one ill-formed term per check -/

theorem test_illegalCmd_decrypt_refused : (Instr.illegalCmd 0x00000001).wellFormed = false := by decide
theorem test_illegalCmd_copy_refused : (Instr.illegalCmd 0x00000002).wellFormed = false := by decide
theorem test_regWrite_size_refused : (Instr.regWrite 2 0x08 0).wellFormed = false := by decide
theorem test_regWrite_offset_refused : (Instr.regWrite 4 0x02 0).wellFormed = false := by decide
theorem test_regRead_size_refused : (Instr.regRead 1 0x04).wellFormed = false := by decide
theorem test_regRead_offset_refused : (Instr.regRead 4 0x20).wellFormed = false := by decide
theorem test_kisOther_refused : (Instr.frameKisOther 0x08).wellFormed = false := by decide
theorem test_ivsOther_refused : (Instr.frameIvsOther 0x04).wellFormed = false := by decide
theorem test_markerOther_refused : (Instr.frameMarkerOther 0x53).wellFormed = false := by decide
theorem test_keySetup_length_refused : (Instr.keySetup (.bytes (List.replicate 15 0))).wellFormed = false := by decide
theorem test_quarterRound_positions_refused : (Instr.quarterRound 0 4 4 12).wellFormed = false := by decide
theorem test_wellFormed_accepts :
    (Instr.illegalCmd 0).wellFormed ∧ (Instr.regWrite 4 0x1C 0).wellFormed ∧ (Instr.regRead 4 0x00).wellFormed ∧
      (Instr.frameKisOther 0x05).wellFormed ∧ (Instr.frameIvsOther 0x06).wellFormed ∧
      (Instr.frameMarkerOther 0x5A).wellFormed ∧ (Instr.keySetup (.bytes (List.replicate 32 0))).wellFormed ∧
      (Instr.quarterRound 15 3 7 11).wellFormed := by decide

/-! ### Decoding: words written out from R90 to R94, R101, R103, R105 -/

/-- CMD (R91, R92): 31..0. -/
theorem test_decode_decrypt : decodeTableWord 32 0b00000000000000000000000000000001 = some .decrypt := by decide
theorem test_decode_directCopy : decodeTableWord 32 0b00000000000000000000000000000010 = some .directCopy := by decide
theorem test_decode_illegal_all_bits :
    decodeTableWord 32 0b10000000000000000000000000000001 = some (.illegalCmd 0x80000001) := by decide
theorem test_decode_illegal_zero : decodeTableWord 32 0 = some (.illegalCmd 0) := by decide

/-- The CMD word's bytes, least-significant first (R67). -/
theorem test_decodeBytes_cmd : decodeBytes .cmd [0x02, 0x00, 0x00, 0x00, 0xAA] = .ok (.directCopy, [0xAA]) := by decide
theorem test_decodeBytes_short : decodeBytes .cmd [0x01, 0x00] = .error (.tooShort 2 4) := by decide

/-- The header fields (R101, R103, R105). -/
theorem test_decode_kis :
    decodeHeaderByte .kis 0b00000000 = .frameKis0 ∧ decodeHeaderByte .kis 0b00001000 = .frameKis8 ∧
      decodeHeaderByte .kis 0b00000101 = .frameKisOther 0x05 := by decide
theorem test_decode_ivs :
    decodeHeaderByte .ivs 0b00000100 = .frameIvs4 ∧ decodeHeaderByte .ivs 0b00001000 = .frameIvs8 ∧
      decodeHeaderByte .ivs 0b00000110 = .frameIvsOther 0x06 := by decide
theorem test_decode_marker :
    decodeHeaderByte .marker 0b01010011 = .frameMarkerS ∧ decodeHeaderByte .marker 0b01000001 = .frameMarkerA ∧
      decodeHeaderByte .marker 0b01011010 = .frameMarkerOther 0x5A ∧
      decodeHeaderByte .marker 0b01110011 = .frameMarkerOther 0x73 := by decide
theorem test_decode_tableBytes :
    decodeTableWord 8 0x00 = some .frameKis0 ∧ decodeTableWord 8 0x08 = some .frameKis8 ∧
      decodeTableWord 8 0x04 = some .frameIvs4 ∧ decodeTableWord 8 0x53 = some .frameMarkerS ∧
      decodeTableWord 8 0x41 = some .frameMarkerA ∧ decodeTableWord 8 0x05 = some (.frameKisOther 0x05) := by decide

/-- Register accesses (R22, R94; V-G9). -/
theorem test_decode_access :
    decodeAccess ⟨true, 4, 0x0C, 0x12345678⟩ = .ok (.regWrite 4 0x0C 0x12345678) ∧
      decodeAccess ⟨false, 4, 0x1C, 0⟩ = .ok (.regRead 4 0x1C) ∧
      decodeAccess ⟨true, 1, 0x0C, 0⟩ = .error (.badSize 1) ∧
      decodeAccess ⟨false, 4, 0x02, 0⟩ = .error (.badOffset 0x02) := by decide

/-! ### States for the vectors -/

/-- KEY_A and KEY_B (95_test_vectors.md section 2). -/
def keyA : Vector Byte 16 := #v[0x80, 0, 0, 0, 0, 0, 0, 0, 0, 0, 0, 0, 0, 0, 0, 0]
def keyB : Vector Byte 16 := #v[0, 1, 2, 3, 4, 5, 6, 7, 8, 9, 10, 11, 12, 13, 14, 15]

/-- The test key table T1. -/
def tableT1 : List KeyEntry :=
  [⟨0x0123456789ABCDEF, keyA⟩, ⟨0xFB680CB6A8BF81F3, keyB⟩, ⟨0, Vector.replicate 16 0⟩]

/-- The reset state with T1 and ADDR_W = 32. -/
def vecState : State := { State.reset with cfg := ⟨32, tableT1, []⟩ }

/-- Bytes placed from an address on. -/
def placed (a : Nat) : List Byte → Memory → Memory
  | [], m => m
  | b :: bs, m => (placed (a + 1) bs m).write a b

/-- An input at 0x1000, an output at 0x2000. -/
def ioState (inp : List Byte) (cap : Word) : State :=
  { vecState with
    mem := placed 0x1000 inp []
    eng := { vecState.eng with inAddr := 0x1000, inLen := BitVec.ofNat 32 inp.length, outAddr := 0x2000, outLen := cap } }

/-- The same with a command accepted: DECRYPT in PARSE, DIRECT_COPY in CHECK_CAP. -/
def busyState (inp : List Byte) (cap : Word) (op : Word) : State :=
  (ioState inp cap).modEng fun e =>
    { e with
      busy := true, op := op, phase := if op = 0x00000002 then .checkCap else .parse
      field := some .kis }

def nextOr (s : State) (o : Result) : State :=
  match o with
  | .next t => t
  | .fault _ => s
  | .refused _ => s

/-- What an outcome leaves, none for a stop. -/
def look (f : State → α) (o : Result) : Option α :=
  match o with
  | .next t => some (f t)
  | .fault _ => none
  | .refused _ => none

/-- The fault of an outcome. -/
def faultOf (o : Result) : Option Fault :=
  match o with
  | .next _ => none
  | .fault r => some r
  | .refused _ => none

def bytesAt (a k : Nat) (s : State) : List Byte := (List.range k).map fun i => s.mem.read (a + i)

def frame1 : List Byte := frameBytes (some 0xFB680CB6A8BF81F3) [1, 2, 3, 4, 5, 6, 7, 8] 0x53 (List.replicate 70 0)
def frame2 : List Byte :=
  frameBytes (some 0x0123456789ABCDEF) [0xAA, 0xBB, 0xCC, 0xDD] 0x53 [0x48, 0x65, 0x6C, 0x6C, 0x6F]
def frame4 : List Byte := frameBytes none [1, 2, 3, 4] 0x53 [0, 0, 0, 0]
def frame5 : List Byte := frameBytes (some 0x1111111111111111) [0, 0, 0, 0] 0x53 [0, 0, 0]
def frame6 : List Byte := frameBytes (some 0x0123456789ABCDEF) [0, 0, 0, 0] 0x41 [0, 0, 0]
def frame7 : List Byte := frameBytes (some 0x1111111111111111) [0, 0, 0, 0] 0x41 [0, 0, 0]

/-- F2 as 3.10 lists it. -/
theorem test_frame2_bytes :
    frame2 = [0x08, 0xEF, 0xCD, 0xAB, 0x89, 0x67, 0x45, 0x23, 0x01, 0x04, 0xAA, 0xBB, 0xCC, 0xDD, 0x53, 0x48, 0x65,
      0x6C, 0x6C, 0x6F] := by decide

/-! ### LOOKUP (V-L1 to V-L7) -/

theorem test_lookup_T1 :
    lookupKey tableT1 0 = none ∧ lookupKey tableT1 0x0123456789ABCDEF = some keyA ∧
      lookupKey tableT1 0xFB680CB6A8BF81F3 = some keyB ∧ lookupKey tableT1 0x1111111111111111 = none := by
  decide +kernel
theorem test_lookup_odd_tables :
    lookupKey [⟨0x0123456789ABCDEF, keyA⟩, ⟨0, keyA⟩, ⟨0x2222222222222222, keyB⟩] 0x2222222222222222 = none ∧
      lookupKey [⟨0x5, keyA⟩, ⟨0x5, keyB⟩, ⟨0, keyA⟩] 0x5 = some keyA ∧ lookupKey [⟨0, keyA⟩] 0x5 = none := by
  decide +kernel
theorem test_lookup_writes_key :
    look (fun t => (t.eng.key, t.eng.hit)) (exec .lookup (vecState.modEng fun e => { e with keyId := 0x0123456789ABCDEF }))
      = some (keyA, true) := by decide +kernel

/-! ### PARSE (V-P1 to V-P20) -/

def parseStatus (inp : List Byte) : Option (BitVec 4 × Bool) :=
  look (fun t => (t.eng.code, t.eng.busy)) (exec .parse (busyState inp 0 0x00000001))

/-- V-P1 to V-P8, V-P12 to V-P16: FileCorrupt = 1 and NotSupported = 2 by the deciding check. -/
theorem test_parse_statuses :
    [parseStatus [], parseStatus [0x00], parseStatus [0x08], parseStatus [0x05], parseStatus [0x00, 0x04],
      parseStatus [0x00, 0x06], parseStatus [0x00, 0x04, 1, 2, 3], parseStatus [0x00, 0x04, 1, 2, 3, 4],
      parseStatus [0x00, 0x04, 1, 2, 3, 4, 0x5A], parseStatus [0x08, 1, 2, 3, 4, 5, 6, 7, 8],
      parseStatus [0x00, 0x08, 1, 2, 3, 4, 5, 6, 7, 8], parseStatus [0x00, 0x04, 1, 2, 3, 4, 0x73]]
      = [some (1, false), some (1, false), some (1, false), some (2, false), some (1, false), some (2, false),
        some (1, false), some (1, false), some (2, false), some (1, false), some (1, false), some (2, false)] := by
  decide +kernel

/-- V-P20: the header of F2. -/
theorem test_parse_frame2 :
    look (fun t => (t.eng.kis, t.eng.keyId, t.eng.baseIv, t.eng.marker, t.eng.poff))
        (exec .parse (busyState frame2 5 0x00000001))
      = some (0x08, 0x0123456789ABCDEF, #v[0xAA, 0xBB, 0xCC, 0xDD, 0, 0, 0, 0], 0x53, 15) := by decide +kernel

/-! ### One header byte -/

theorem test_kis0 :
    look (fun t => (t.eng.kis, t.eng.keyId, t.eng.p)) (exec .frameKis0 (busyState frame4 0 0x00000001))
      = some (0, 0, 1) := by decide +kernel
theorem test_kis8 :
    look (fun t => (t.eng.keyId, t.eng.p)) (exec .frameKis8 (busyState frame2 0 0x00000001))
      = some (0x0123456789ABCDEF, 9) := by decide +kernel
theorem test_kisOther :
    look (fun t => t.eng.statusWord) (exec (.frameKisOther 0x05) (busyState [0x05] 0 0x00000001)) = some 0x22 := by
  decide +kernel
theorem test_ivs4 :
    look (fun t => (t.eng.baseIv, t.eng.p))
        (exec .frameIvs4 ((busyState frame4 0 0x00000001).modEng fun e => { e with p := 1 }))
      = some (#v[1, 2, 3, 4, 0, 0, 0, 0], 6) := by decide +kernel
theorem test_ivs8 :
    look (fun t => (t.eng.baseIv, t.eng.p))
        (exec .frameIvs8 ((busyState frame1 0 0x00000001).modEng fun e => { e with p := 9 }))
      = some (#v[1, 2, 3, 4, 5, 6, 7, 8], 18) := by decide +kernel
theorem test_ivsOther :
    look (fun t => t.eng.statusWord) (exec (.frameIvsOther 0x06) (busyState [0x00, 0x06] 0 0x00000001)) = some 0x22 := by
  decide +kernel
theorem test_markerS :
    look (fun t => (t.eng.marker, t.eng.poff))
        (exec .frameMarkerS ((busyState frame4 0 0x00000001).modEng fun e => { e with p := 6 }))
      = some (0x53, 7) := by decide +kernel
theorem test_markerA_fatal :
    look (fun t => t.eng.statusWord)
        (exec .frameMarkerA ((busyState frame6 0 0x00000001).modEng fun e => { e with phase := .setup }))
      = some 0x66 := by decide +kernel
theorem test_markerOther :
    look (fun t => t.eng.statusWord) (exec (.frameMarkerOther 0x5A) (busyState frame4 0 0x00000001)) = some 0x22 := by
  decide +kernel

/-! ### DERIVE_IV (V-D3, V-D4) -/

theorem test_deriveIv :
    mixIv #v[1, 2, 3, 4, 5, 6, 7, 8] 0x12345678 = #v[0x79, 0x54, 0x37, 0x16, 5, 6, 7, 8] ∧
      mixIv #v[1, 2, 3, 4, 5, 6, 7, 8] 0xFFFFFFFF = #v[0xFE, 0xFD, 0xFC, 0xFB, 5, 6, 7, 8] := by decide

/-! ### KEY_SETUP (V-K2, V-K3) -/

/-- V-K3's registers. -/
def keyedState : State := vecState.modEng fun e => { e with key := keyB, eiv := #v[1, 2, 3, 4, 5, 6, 7, 8] }

theorem test_keySetup16 :
    look (fun t => t.eng.x) (exec (.keySetup .keyReg) keyedState)
      = some #v[0x61707865, 0x03020100, 0x07060504, 0x0B0A0908, 0x0F0E0D0C, 0x3120646E, 0x04030201, 0x08070605, 0, 0,
          0x79622D36, 0x03020100, 0x07060504, 0x0B0A0908, 0x0F0E0D0C, 0x6B206574] := by decide +kernel
theorem test_keySetup32 :
    look (fun t => t.eng.x) (exec (.keySetup (.bytes ((List.range 32).map (BitVec.ofNat 8)))) vecState)
      = some #v[0x61707865, 0x03020100, 0x07060504, 0x0B0A0908, 0x0F0E0D0C, 0x3320646E, 0, 0, 0, 0, 0x79622D32,
          0x13121110, 0x17161514, 0x1B1A1918, 0x1F1E1D1C, 0x6B206574] := by decide +kernel

/-! ### QUARTERROUND, the rounds (V-Q6, V-Q7, V-R1) -/

/-- A quarter-round on positions that are not in order. -/
def quarterOf (a b c d : Word) : Option (List Word) :=
  look (fun t => [t.eng.z[10], t.eng.z[14], t.eng.z[2], t.eng.z[6]])
    (exec (.quarterRound 10 14 2 6)
      (vecState.modEng fun e => { e with z := (((e.z.set 10 a).set 14 b).set 2 c).set 6 d }))

theorem test_quarterRound_Q6 :
    quarterOf 0xE7E8C006 0xC4F9417D 0x6479B4B2 0x68C67137
      = some [0xE876D72B, 0x9361DFD5, 0xF1460244, 0x948541A3] := by decide +kernel
theorem test_quarterRound_Q7 :
    quarterOf 0xFFFFFFFF 0xFFFFFFFF 0xFFFFFFFF 0xFFFFFFFF
      = some [0xF8038143, 0x00000080, 0xFFFF01FF, 0x1FB00000] := by decide +kernel

/-- The matrix of V-R1. -/
def oneState : State := vecState.modEng fun e => { e with z := e.z.set 0 1 }

theorem test_doubleRound_R1 :
    look (fun t => t.eng.z) (exec .doubleRound oneState)
      = some #v[0x8186A22D, 0x0040A284, 0x82479210, 0x06929051, 0x08000090, 0x02402200, 0x00004000, 0x00800000,
          0x00010200, 0x20400000, 0x08008104, 0x00000000, 0x20500000, 0xA0000040, 0x0008180A, 0x612A8020] := by
  decide +kernel

/-- V-Q2 on the first column: R174's first quarter-round leaves the other columns 0. -/
theorem test_columnRound_first :
    look (fun t => [t.eng.z[0], t.eng.z[4], t.eng.z[8], t.eng.z[12], t.eng.z[1], t.eng.z[5]]) (exec .columnRound oneState)
      = some [0x08008145, 0x00000080, 0x00010200, 0x20500000, 0, 0] := by decide +kernel

/-- V-Q2 on the first row (R175). -/
theorem test_rowRound_first :
    look (fun t => [t.eng.z[0], t.eng.z[1], t.eng.z[2], t.eng.z[3], t.eng.z[4], t.eng.z[5]]) (exec .rowRound oneState)
      = some [0x08008145, 0x00000080, 0x00010200, 0x20500000, 0, 0] := by decide +kernel

/-! ### BLOCK, CTR_INC, XOR_STREAM (V-B3, V-B7, V-C1, V-C3, V-X1, V-X2) -/

theorem test_block_B3 :
    look (fun t => t.eng.ks.toList)
        (exec .block (vecState.modEng fun e => { e with x := keyMatrix keyA.toList (List.replicate 8 0) }))
      = some [0x4D, 0xFA, 0x5E, 0x48, 0x1D, 0xA2, 0x3E, 0xA0, 0x9A, 0x31, 0x02, 0x20, 0x50, 0x85, 0x99, 0x36,
          0xDA, 0x52, 0xFC, 0xEE, 0x21, 0x80, 0x05, 0x16, 0x4F, 0x26, 0x7C, 0xB6, 0x5F, 0x5C, 0xFD, 0x7F,
          0x2B, 0x4F, 0x97, 0xE0, 0xFF, 0x16, 0x92, 0x4A, 0x52, 0xDF, 0x26, 0x95, 0x15, 0x11, 0x0A, 0x07,
          0xF9, 0xE4, 0x60, 0xBC, 0x65, 0xEF, 0x95, 0xDA, 0x58, 0xF7, 0x40, 0xB7, 0xD1, 0xDB, 0xB0, 0xAA] := by
  decide +kernel
theorem test_block_B7 :
    (blockBytes (withCounter (keyMatrix keyA.toList (List.replicate 8 0)) 0x100000000)).toList.take 8
      = [0xD8, 0x58, 0xB4, 0x35, 0xC4, 0x22, 0x6E, 0xB9] := by decide +kernel
theorem test_ctrInc_C1 :
    look (fun t => (t.eng.x[8], t.eng.x[9]))
        (exec .ctrInc (vecState.modEng fun e => { e with x := e.x.set 8 0xFFFFFFFF }))
      = some (0, 1) := by decide +kernel
theorem test_ctrInc_C3 :
    look (fun t => (t.eng.x[8], t.eng.x[9]))
        (exec .ctrInc (vecState.modEng fun e => { e with x := (e.x.set 8 0xFFFFFFFF).set 9 0xFFFFFFFF }))
      = some (0, 0) := by decide +kernel

/-- XOR_STREAM about to run on a payload that is the whole input. -/
def streamState (key : Vector Byte 16) (iv : List Byte) (payload : List Byte) : State :=
  (ioState payload 0).modEng fun e => { e with x := keyMatrix key.toList iv, poff := 0 }

theorem test_xorStream_X1 :
    look (fun t => (bytesAt 0x2000 6 t, t.eng.pos))
        (exec .xorStream (streamState keyA [0xAA, 0xBB, 0xCC, 0xDD, 0, 0, 0, 0] [0x48, 0x65, 0x6C, 0x6C, 0x6F]))
      = some ([0xC0, 0xDA, 0xED, 0xC0, 0xE9, 0], 5) := by decide +kernel
theorem test_xorStream_X2 :
    look (fun t => (bytesAt 0x203E 9 t, t.eng.x[8]))
        (exec .xorStream (streamState keyB [1, 2, 3, 4, 5, 6, 7, 8] (List.replicate 70 0)))
      = some ([0x8A, 0xBA, 0xBB, 0x24, 0xE0, 0x88, 0xBC, 0x34, 0], 2) := by decide +kernel

/-! ### DECRYPT (V-E3, and the statuses of V-E6, V-E8 to V-E11, V-E15, V-E16, V-E18, V-E19) -/

theorem test_decrypt_E3 :
    look (fun t => (t.eng.statusWord, t.eng.outLen, bytesAt 0x2000 6 t)) (exec .decrypt (busyState frame2 5 0x00000001))
      = some (0x02, 5, [0xC0, 0xDA, 0xED, 0xC0, 0xE9, 0]) := by decide +kernel

def decryptStatus (inp : List Byte) (cap : Word) : Option (Word × Word) :=
  look (fun t => (t.eng.statusWord, t.eng.outLen)) (exec .decrypt (busyState inp cap 0x00000001))

theorem test_decrypt_statuses :
    [decryptStatus frame2 4, decryptStatus frame4 100, decryptStatus frame5 100, decryptStatus frame6 100,
      decryptStatus frame7 100, decryptStatus frame4 2, decryptStatus frame6 2, decryptStatus [0x05] 100,
      decryptStatus [] 100]
      = [some (0x32, 4), some (0x42, 100), some (0x42, 100), some (0x66, 100), some (0x42, 100), some (0x32, 2),
        some (0x32, 2), some (0x22, 100), some (0x12, 100)] := by decide +kernel

/-! ### DIRECT_COPY (V-S7, V-S5 and V-S1) -/

/-- Input byte i = i. -/
def countTo (k : Nat) : List Byte := (List.range k).map (BitVec.ofNat 8)

theorem test_copy_S7 :
    look (fun t => (t.eng.statusWord, t.eng.outLen, bytesAt 0x2000 11 t))
        (exec .directCopy (busyState (countTo 10) 9 0x00000002))
      = some (0x02, 10, [0, 1, 2, 3, 4, 5, 6, 7, 8, 9, 0]) := by decide +kernel
theorem test_copy_S5_S1 :
    look (fun t => (t.eng.statusWord, t.eng.outLen)) (exec .directCopy (busyState (countTo 10) 8 0x00000002))
        = some (0x32, 8) ∧
      look (fun t => (t.eng.statusWord, t.eng.outLen)) (exec .directCopy (busyState [] 0 0x00000002)) = some (0x02, 0) := by
  decide +kernel

/-! ### ILLEGAL_CMD and the register window (V-I1, V-I5, V-G1, V-G2, V-G5, V-G7, V-G8, V-G9) -/

theorem test_illegal_I1 : look (fun t => t.eng.statusWord) (exec (.regWrite 4 0x00 0) vecState) = some 0x52 := by decide
theorem test_illegal_I5 :
    look (fun t => t.eng.statusWord)
        (exec (.regWrite 4 0x00 1) (vecState.modEng fun e => { e with fatal := true, done := true, code := 6 }))
      = some 0x66 := by decide
theorem test_read_after_reset :
    [0x00, 0x04, 0x08, 0x0C, 0x10, 0x14, 0x18, 0x1C].map (fun off => look (fun t => t.rdata) (exec (.regRead 4 off) vecState))
      = List.replicate 8 (some 0) := by decide
theorem test_write_inLen : look (fun t => t.eng.readReg 0x0C) (exec (.regWrite 4 0x0C 0x12345678) vecState) = some 0x12345678 := by
  decide
theorem test_write_outAddr_16 :
    look (fun t => t.eng.readReg 0x10) (exec (.regWrite 4 0x10 0x00123456) { vecState with cfg := ⟨16, tableT1, []⟩ })
      = some 0x00003456 := by decide
theorem test_write_while_busy : look (fun t => t.eng.inLen) (exec (.regWrite 4 0x0C 1) (busyState frame4 0 1)) = some 11 := by
  decide +kernel

/-! ### The step: acceptance, WAIT, reset, the fatal state, an engine turn, a placed word -/

theorem test_step_accepts :
    look (fun t => (t.eng.statusWord, t.eng.phase)) (step { ioState frame2 5 with script := [hostW .cmd 1] })
      = some (0x01, .parse) := by decide +kernel
theorem test_step_wait_runs :
    look (fun t => (t.eng.statusWord, t.script)) (step { busyState frame2 5 1 with script := [.wait] })
      = some (0x02, [.wait]) := by decide +kernel
/-- R219, R285: the host waits on an idle instance while the command of another runs to its end. -/
theorem test_step_wait_lets_others_run :
    look (fun t => (t.eng.busy, t.right.map fun e => e.statusWord, t.script))
        (step { vecState with right := [(busyState [] 0 2).eng], script := [.wait] })
      = some (false, [0x02], [.wait]) := by decide +kernel
theorem test_step_reset_clears_fatal :
    look (fun t => t.eng.statusWord)
        (step { vecState.modEng (fun e => { e with fatal := true, done := true, code := 6 }) with script := [.reset] })
      = some 0 := by decide
theorem test_step_engineTurn :
    look (fun t => (t.eng.kis, t.eng.p, t.eng.field)) (step { busyState frame2 5 1 with script := [.engineTurn] })
      = some (0x08, 9, some .ivs) := by decide +kernel
theorem test_step_placed_decrypt :
    look (fun t => t.eng.statusWord) (step (State.reset.withFetchWord 32 0x00000001)) = some 0x12 := by decide +kernel
theorem test_step_placed_marker :
    look (fun t => (t.eng.marker, t.eng.poff)) (step (State.reset.withFetchWord 8 0x53)) = some (0x53, 7) := by
  decide +kernel
theorem test_step_overlap_faults :
    look (fun _ => ()) (exec .directCopy ((busyState (countTo 10) 9 2).modEng fun e => { e with outAddr := 0x1009 })) = none := by
  decide +kernel

/-- R66, R280(c): the last byte of the output buffer on device memory, in a DECRYPT that would end with FileCorrupt. -/
theorem test_device_output_faults :
    faultOf (exec (.regWrite 4 0x00 1) { ioState [] 4 with cfg := ⟨32, tableT1, [(0x2003, 1)]⟩ })
      = some (.hostContract .deviceMemory) := by decide +kernel

/-- A DIRECT_COPY from 0xFF8..0x1001 to 0xFFF..0x1008. -/
def doomedEngine : Engine := { (busyState (countTo 10) 9 2).eng with inAddr := 0xFF8, outAddr := 0xFFF }

/-- R281: another instance runs a DIRECT_COPY that overlaps its own input, and its output meets the new input. -/
theorem test_shared_with_doomed_command :
    faultOf (exec (.regWrite 4 0x00 2) { ioState [0x07] 1 with right := [doomedEngine] })
      = some (.hostContract .sharedRange) := by decide +kernel

/-! ### Witnesses: concrete states and operands that meet the hypotheses of each obligation -/

theorem witness_DecodeOfEncode :
    (Instr.illegalCmd 0).wellFormed = true ∧ encode (.illegalCmd 0) = some (.bytes .cmd [0, 0, 0, 0]) ∧
      Instr.parse.wellFormed = true ∧ encode .parse = none := by decide

theorem witness_EncodeOfDecode :
    decodeBytes .cmd [0xFF, 0xFF, 0xFF, 0xFF] = .ok (.illegalCmd 0xFFFFFFFF, []) ∧
      decodeBytes (.header .marker) [0x53, 0x01] = .ok (.frameMarkerS, [0x01]) := by decide

theorem witness_OpcodeAssignments : (0 : Word) ≠ 1 ∧ (0 : Word) ≠ 2 := by decide

theorem witness_HeaderByteCodes :
    (0x04 : Byte) ≠ 0x00 ∧ (0x04 : Byte) ≠ 0x08 ∧ (0x00 : Byte) ≠ 0x04 ∧ (0x00 : Byte) ≠ 0x08 ∧ (0x73 : Byte) ≠ 0x53 ∧
      (0x73 : Byte) ≠ 0x41 := by decide

/-- Three instances, the middle one selected and the last one running a DECRYPT. -/
def otherBusy : State := { ioState frame2 5 with left := [Engine.reset], right := [(busyState frame2 5 1).eng] }
def otherWaiting : State := { otherBusy with script := [.wait] }

/-- An access; an engine step on the header byte at P = 0, the last byte before n; an issued instruction; a command with
no host event; one of another instance. -/
theorem witness_StepRunsDecoded :
    decodeAccess ⟨true, 4, 0x08, 5⟩ = .ok (.regWrite 4 0x08 5) ∧
      (let s := { busyState [0x00] 0 1 with script := [.engineTurn] }
       s.script = [.engineTurn] ∧ s.eng.busy = true ∧ s.eng.phase = .parse ∧ s.eng.field = some .kis ∧ s.eng.p < s.n ∧
        decodeBytes (.header .kis) [s.inByte s.eng.p] = .ok (.frameKis0, []) ∧ s.issue = some .frameKis0) ∧
      ((busyState frame2 5 1).script = [] ∧ (busyState frame2 5 1).eng.busy = true) ∧
      (otherBusy.script = [] ∧ otherBusy.eng.busy = false ∧ otherBusy.engines[2]? = some (busyState frame2 5 1).eng ∧
        (busyState frame2 5 1).eng.busy = true ∧ ∀ e ∈ otherBusy.engines.take 2, e.busy = false) := by decide +kernel

theorem witness_PlacedWordRuns :
    vecState.mem.Wf ∧ decodeTableWord 32 0x00000002 = some .directCopy ∧ decodeTableWord 8 0x41 = some .frameMarkerA := by
  decide

/-- The last offset of the window and the first beyond it. -/
theorem witness_RegisterAccessRefused :
    (4 = 4 ∧ 0x1C % 4 = 0 ∧ 0x1C ≤ 0x1C) ∧ ¬ (4 = 4 ∧ 0x20 % 4 = 0 ∧ 0x20 ≤ 0x1C) ∧
      { vecState with script := [.access ⟨true, 4, 0x20, 0⟩] }.script = [.access ⟨true, 4, 0x20, 0⟩] := by decide

theorem witness_RegisterWriteByOffset :
    (busyState frame2 5 1).eng.busy = true ∧ vecState.eng.busy = false ∧
      (vecState.modEng fun e => { e with fatal := true }).eng.fatal = true := by decide +kernel

theorem witness_RegisterReadByOffset : (busyState frame2 5 1).eng.busy = true := by decide +kernel

/-- Two instances about to run a command beside each other: the second decrypts F2 into 0x2000; the first copies or
decrypts one byte from `inA` to `outA`. -/
def besideBusy (inA outA : Word) : State :=
  { ioState frame2 5 with right := [(busyState frame2 5 1).eng] }.modEng fun e =>
    { e with inAddr := inA, inLen := 1, outAddr := outA, outLen := 1 }

/-- No conflict with a running command, from the executable check. -/
theorem noConflict {s : State} {a b : Engine} (h : s.conflict a b = false) : ¬ s.Conflict a b :=
  fun hc => by rw [(conflict_iff ..).2 hc] at h; cases h

/-- Buffers beside device memory, the input on it, the output on it; a running command beside the new one's buffers
(output at the byte after the five that are going to be written, input within the other's input). -/
theorem witness_CommandAcceptance :
    (let s := { ioState [0x00] 1 with cfg := ⟨32, tableT1, [(0x1001, 1), (0x2001, 1)]⟩ }
     s.eng.busy = false ∧ s.eng.fatal = false ∧ s.eng.onDevice s.cfg = false ∧ s.others = []) ∧
    { ioState [0x00] 1 with cfg := ⟨32, tableT1, [(0x1000, 1)]⟩ }.eng.onDevice ⟨32, tableT1, [(0x1000, 1)]⟩ = true ∧
    { ioState [0x00] 1 with cfg := ⟨32, tableT1, [(0x2000, 1)]⟩ }.eng.onDevice ⟨32, tableT1, [(0x2000, 1)]⟩ = true ∧
    (let s := besideBusy 0x1013 0x2005
     s.eng.busy = false ∧ s.eng.fatal = false ∧ s.eng.onDevice s.cfg = false ∧
      ∀ o ∈ s.others, o.busy = true ∧ ¬ s.Conflict s.eng.decryptStarted o ∧ ¬ s.Conflict s.eng.copyStarted o) := by
  refine ⟨by decide +kernel, by decide +kernel, by decide +kernel, by decide +kernel, by decide +kernel, by decide +kernel, ?_⟩
  intro o ho
  have : o = (busyState frame2 5 1).eng := List.mem_singleton.1 ho
  subst this
  have hd : (besideBusy 0x1013 0x2005).conflict (besideBusy 0x1013 0x2005).eng.decryptStarted (busyState frame2 5 1).eng = false := by
    decide +kernel
  have hc : (besideBusy 0x1013 0x2005).conflict (besideBusy 0x1013 0x2005).eng.copyStarted (busyState frame2 5 1).eng = false := by
    decide +kernel
  exact ⟨by decide +kernel, noConflict hd, noConflict hc⟩

theorem witness_IllegalCommandEnds :
    (3 : Word) ≠ 1 ∧ (3 : Word) ≠ 2 ∧ vecState.eng.busy = false ∧ vecState.eng.fatal = false := by decide

/-- keyId 0; the second entry found; the sentinel reached. -/
theorem witness_LookupScan :
    vecState.eng.keyId = 0 ∧
      tableT1 = [⟨0x0123456789ABCDEF, keyA⟩] ++ ⟨0xFB680CB6A8BF81F3, keyB⟩ :: [⟨0, Vector.replicate 16 0⟩] ∧
      (∀ o ∈ [(⟨0x0123456789ABCDEF, keyA⟩ : KeyEntry)], o.keyId ≠ 0 ∧ o.keyId ≠ 0xFB680CB6A8BF81F3) ∧
      tableT1 = [⟨0x0123456789ABCDEF, keyA⟩, ⟨0xFB680CB6A8BF81F3, keyB⟩] ++ ⟨0, Vector.replicate 16 0⟩ :: [] ∧
      ∀ o ∈ [(⟨0x0123456789ABCDEF, keyA⟩ : KeyEntry), ⟨0xFB680CB6A8BF81F3, keyB⟩], o.keyId ≠ 0 ∧ o.keyId ≠ 0x5 := by
  decide +kernel

theorem witness_DeriveIvWords : mixIv (Vector.replicate 8 0) 5 = mixIv (Vector.replicate 8 0) 5 := rfl

theorem witness_KeySetupMatrix :
    (List.replicate 16 (0 : Byte)).length = 16 ∧ (List.replicate 32 (0 : Byte)).length = 32 ∧
      (List.replicate 17 (0 : Byte)).length ≠ 16 ∧ (List.replicate 17 (0 : Byte)).length ≠ 32 := by decide

theorem witness_QuarterRoundWords :
    [(0 : Fin 16), 4, 8, 12].Nodup ∧ vecState.eng.z[0] = 0 ∧ vecState.eng.z[4] = 0 ∧ vecState.eng.z[8] = 0 ∧
      vecState.eng.z[12] = 0 ∧ oneState.eng.z[0] = 1 ∧ oneState.eng.z[4] = 0 := by decide +kernel

theorem witness_RoundsInAnyOrder :
    List.Perm [((15 : Fin 16), (3 : Fin 16), (7 : Fin 16), (11 : Fin 16)), (0, 4, 8, 12), (5, 9, 13, 1), (10, 14, 2, 6)]
      [(0, 4, 8, 12), (5, 9, 13, 1), (10, 14, 2, 6), (15, 3, 7, 11)] ∧
    List.Perm [((15 : Fin 16), (12 : Fin 16), (13 : Fin 16), (14 : Fin 16)), (0, 1, 2, 3), (5, 6, 7, 4), (10, 11, 8, 9)]
      [(0, 1, 2, 3), (5, 6, 7, 4), (10, 11, 8, 9), (15, 12, 13, 14)] := by decide

theorem witness_BlockKeystream : vecState.eng.x = Vector.replicate 16 0 := rfl

/-- The low counter word about to become 0, and not. -/
theorem witness_CounterIncrement :
    (counterUp (vecState.eng.x.set 8 0xFFFFFFFF))[8] = 0 ∧ (counterUp vecState.eng.x)[8] ≠ 0 := by decide

/-- V-X1's state and V-X5's, whose input is what V-X1 put out. -/
def helloState : State := streamState keyA [0xAA, 0xBB, 0xCC, 0xDD, 0, 0, 0, 0] [0x48, 0x65, 0x6C, 0x6C, 0x6F]
def cipherState : State := streamState keyA [0xAA, 0xBB, 0xCC, 0xDD, 0, 0, 0, 0] [0xC0, 0xDA, 0xED, 0xC0, 0xE9]
def helpState : State := streamState keyA [0xAA, 0xBB, 0xCC, 0xDD, 0, 0, 0, 0] [0x48, 0x65, 0x6C, 0x70]

/-- A payload, and the empty one (V-X3). -/
theorem witness_XorStreamBytes :
    helloState.mem.Wf ∧ helloState.eng.poff ≤ helloState.n ∧ contractBroken helloState.plen helloState = none ∧
      vecState.mem.Wf ∧ vecState.eng.poff ≤ vecState.n ∧ contractBroken vecState.plen vecState = none := by
  decide +kernel

theorem witness_XorStreamCompletes : helloState.mem.Wf := by decide +kernel

theorem witness_XorStreamSelfInverse :
    helloState.mem.Wf ∧ cipherState.mem.Wf ∧ helloState.eng.poff ≤ helloState.n ∧ cipherState.eng.poff ≤ cipherState.n ∧
      contractBroken helloState.plen helloState = none ∧ contractBroken cipherState.plen cipherState = none ∧
      cipherState.eng.x = helloState.eng.x ∧ cipherState.plen = helloState.plen ∧
      ∀ j, j < 5 → cipherState.inByte (cipherState.eng.poff + j)
        = (nextOr vecState (exec .xorStream helloState)).mem.read (helloState.outAt j) := by decide +kernel

/-- Two payloads that agree on their first three bytes only. -/
theorem witness_XorStreamOpening :
    helpState.mem.Wf ∧ helpState.eng.poff ≤ helpState.n ∧ contractBroken helpState.plen helpState = none ∧
      helpState.eng.x = helloState.eng.x ∧ 3 ≤ helloState.plen ∧ 3 ≤ helpState.plen ∧
      ∀ j, j < 3 → helpState.inByte (helpState.eng.poff + j) = helloState.inByte (helloState.eng.poff + j) := by
  decide +kernel

/-- The shortest header, and one byte less. -/
theorem witness_ParseHeader :
    (let s := busyState [0x00, 0x04, 1, 2, 3, 4, 0x41] 0 1
     frameStatus s.n s.inByte = none) ∧
      let s := busyState [0x00, 0x04, 1, 2, 3, 4] 0 1
      frameStatus s.n s.inByte = some .fileCorrupt := by decide +kernel

/-- K = 8 with V = 4, and K = 0 with V = 8. -/
theorem witness_HeaderFieldBytes :
    (let s := busyState frame2 5 1
     frameStatus s.n s.inByte = none ∧ s.inByte 0 = 0x08) ∧
      let s := busyState (frameBytes none [1, 2, 3, 4, 5, 6, 7, 8] 0x53 []) 5 1
      frameStatus s.n s.inByte = none ∧ s.inByte 0 = 0x00 := by decide +kernel

/-- n at the bound and one above it, for each size (P = 0). -/
theorem witness_KeyIdSizeByte :
    (let s := busyState (countTo 2) 0 1; s.eng.p + 1 < s.n) ∧ (let s := busyState (countTo 1) 0 1; s.n ≤ s.eng.p + 1) ∧
      (let s := busyState (countTo 10) 0 1; s.eng.p + 9 < s.n) ∧ let s := busyState (countTo 9) 0 1; s.n ≤ s.eng.p + 9 := by
  decide +kernel

theorem witness_IvSizeByte :
    (let s := busyState (countTo 6) 0 1; s.eng.p + 5 < s.n) ∧ (let s := busyState (countTo 5) 0 1; s.n ≤ s.eng.p + 5) ∧
      (let s := busyState (countTo 10) 0 1; s.eng.p + 9 < s.n) ∧ let s := busyState (countTo 9) 0 1; s.n ≤ s.eng.p + 9 := by
  decide +kernel

theorem witness_UnsupportedByteEnds : vecState.eng.phase ≠ .setup := by decide

theorem witness_MarkerByteAccepted : (busyState frame2 5 1).eng.phase ≠ .setup := by decide +kernel

/-- F2 parsed and about to be dispatched, its output beside its input and overlapping its last byte. -/
def setupState (out : Word) : State :=
  (busyState frame2 5 1).modEng fun e => { e with phase := .setup, poff := 15, outAddr := out }

theorem witness_MarkerDispatch :
    (setupState 0x1014).eng.phase = .setup ∧ contractBroken (setupState 0x1014).plen (setupState 0x1014) = none ∧
      (setupState 0x1013).eng.phase = .setup ∧
      contractBroken (setupState 0x1013).plen (setupState 0x1013) = some .overlap := by decide +kernel

/-- F2 with cap = plen (V-E3). -/
theorem witness_DecryptSuccess :
    let s := busyState frame2 5 1
    s.mem.Wf ∧ s.Fresh ∧ frameStatus s.n s.inByte = none ∧ s.n - framePoff s.inByte = s.cap ∧
      lookupKey s.cfg.keyTable (frameKeyId s.inByte) = some keyA ∧ frameM s.inByte = 0x53 ∧
      contractBroken (s.n - framePoff s.inByte) s = none ∧
      look (fun t => t.eng.code) (exec .decrypt s) = some 0 := by decide +kernel

/-- One state per clause: a header that fails; cap = plen - 1; an unknown key; 'A'. -/
theorem witness_DecryptPriority :
    (let s := busyState [0x05] 0 1
     s.Fresh ∧ frameStatus s.n s.inByte = some .notSupported) ∧
    (let s := busyState frame2 4 1
     s.Fresh ∧ frameStatus s.n s.inByte = none ∧ s.cap < s.n - framePoff s.inByte) ∧
    (let s := busyState frame5 3 1
     s.Fresh ∧ frameStatus s.n s.inByte = none ∧ s.n - framePoff s.inByte ≤ s.cap ∧
      lookupKey s.cfg.keyTable (frameKeyId s.inByte) = none) ∧
    let s := busyState frame6 3 1
    s.Fresh ∧ frameStatus s.n s.inByte = none ∧ s.n - framePoff s.inByte ≤ s.cap ∧
      lookupKey s.cfg.keyTable (frameKeyId s.inByte) = some keyA ∧ frameM s.inByte = 0x41 := by decide +kernel

/-- An output that meets the last input byte, for each command; an input on device memory. -/
theorem witness_BrokenContractFaults :
    (let s := (busyState frame2 5 1).modEng fun e => { e with outAddr := 0x1013 }
     s.Fresh ∧ frameStatus s.n s.inByte = none ∧ s.n - framePoff s.inByte ≤ s.cap ∧
      lookupKey s.cfg.keyTable (frameKeyId s.inByte) ≠ none ∧ frameM s.inByte = 0x53 ∧
      contractBroken (s.n - framePoff s.inByte) s = some .overlap) ∧
    (let s := (busyState (countTo 10) 9 2).modEng fun e => { e with outAddr := 0x1009 }
     s.eng.phase = .checkCap ∧ s.n ≤ s.cap + 1 ∧ contractBroken s.n s = some .overlap) ∧
    let s := { ioState [0x00] 0 with cfg := ⟨32, tableT1, [(0x1000, 1)]⟩ }
    s.eng.phase = .idle ∧ s.eng.onDevice s.cfg = true := by decide +kernel

theorem witness_NoKeyIdNoDecryption :
    (busyState frame4 100 1).Fresh ∧ frameK (busyState frame4 100 1).inByte = 0x00 := by decide +kernel

/-- n = cap + 2; an output that meets the last input byte; n = cap + 1. -/
theorem witness_DirectCopyBytes :
    (let s := ioState (countTo 10) 8
     s.mem.Wf ∧ s.eng.phase = .idle ∧ s.eng.onDevice s.cfg = false ∧ s.cap + 1 < s.n) ∧
    (let s := (busyState (countTo 10) 9 2).modEng fun e => { e with outAddr := 0x1009 }
     s.mem.Wf ∧ s.eng.phase = .checkCap ∧ s.n ≤ s.cap + 1 ∧ contractBroken s.n s = some .overlap) ∧
    let s := busyState (countTo 10) 9 2
    s.mem.Wf ∧ s.eng.phase = .checkCap ∧ s.n ≤ s.cap + 1 ∧ contractBroken s.n s = none := by decide +kernel

theorem witness_ContractIsOverlap : vecState.cfg.devices = [] := rfl

/-- A PARSE; a DECRYPT and a DIRECT_COPY that change a byte. -/
theorem witness_OnlyOutputsAreWritten :
    look (fun t => t.eng.phase) (exec .parse vecState) = some .idle ∧ (busyState frame2 5 1).mem.Wf ∧
      look (fun t => t.mem.read 0x2000) (exec .decrypt (busyState frame2 5 1)) = some 0xC0 ∧
      (busyState frame2 5 1).mem.read 0x2000 = 0 ∧
      look (fun t => t.mem.read 0x2001) (exec .directCopy (busyState (countTo 2) 5 2)) = some 1 := by decide +kernel

/-- A command that changes OUT_LEN. -/
theorem witness_EngineKeepsOperands :
    look (fun t => t.eng.outLen) (exec .decrypt (busyState frame2 6 1)) = some 5 := by decide +kernel

/-- Two states that differ in their internal registers: not begun, a DECRYPT accepted, a DIRECT_COPY accepted. -/
def stirred (s : State) : State := s.modEng fun e => { e with x := e.x.set 8 7, keyId := 9, ks := e.ks.set 0 1, hit := true }

theorem witness_InternalRegistersUnseen :
    (let s := ioState frame2 5; let u := stirred s
     s.cfg = u.cfg ∧ s.mem = u.mem ∧ s.eng.SameVisible u.eng ∧ s.eng.phase = .idle ∧ u.eng.phase = .idle ∧ s ≠ u) ∧
    (let s := busyState frame2 5 1; let u := stirred s
     s.eng.SameVisible u.eng ∧ s.eng.InFirstField ∧ u.eng.InFirstField ∧ s ≠ u) ∧
    (let s := busyState frame2 20 2; let u := stirred s
     s.eng.SameVisible u.eng ∧ s.eng.phase = .checkCap ∧ u.eng.phase = .checkCap ∧ s ≠ u) := by decide +kernel

/-- A running command in PARSE that an engine step moves on; one about to write. -/
theorem witness_StepKeepsInvariant :
    { busyState frame2 5 1 with script := [.engineTurn] }.Inv ∧
      look (fun t => t.eng.p) (step { busyState frame2 5 1 with script := [.engineTurn] }) = some 9 := by decide +kernel

theorem witness_StepKeepsHeader :
    { busyState frame2 5 1 with script := [.engineTurn] }.Inv ∧
      ∀ e ∈ { busyState frame2 5 1 with script := [.engineTurn] }.engines, e.HeaderInv := by
  refine ⟨by decide +kernel, fun e he => ?_⟩
  have : e = (busyState frame2 5 1).eng := List.mem_singleton.1 he
  subst this
  intro _ _
  exact rfl

theorem witness_KeyRomConstant : look (fun t => t.cfg.addrW) (step vecState) = some 32 := by decide +kernel

theorem witness_InstancesIndependent :
    look (fun t => t.right.length) (exec .directCopy { busyState (countTo 2) 5 2 with right := [Engine.reset] }) = some 1 := by
  decide +kernel

/-- The selected instance's command with no event; another's while the host waits. -/
theorem witness_RunningCommandEnds :
    (let s := busyState frame2 5 1
     s.Inv ∧ s.script = [] ∧ s.engines[0]? = some s.eng ∧ s.eng.busy = true ∧ s.left.length = 0) ∧
    let s := otherWaiting
    s.Inv ∧ s.script.head? = some .wait ∧ s.eng.done = false ∧ s.eng.fatal = false ∧
      s.engines[2]? = some (busyState frame2 5 1).eng ∧ s.eng.busy = false ∧ ∀ o ∈ s.engines.take 2, o.busy = false :=
  ⟨⟨by decide +kernel, by decide +kernel⟩, by decide +kernel, by decide +kernel⟩

/-- DECRYPT from its first phase and its last; DIRECT_COPY from both of its phases. -/
theorem witness_EngineStepsAreTheCommand :
    (let s := busyState frame2 5 1
     s.eng.busy = true ∧ s.eng.op = 0x00000001 ∧ s.eng.phase ≠ .idle ∧ s.eng.phase ≠ .copy) ∧
    (let s := (busyState frame2 5 1).modEng fun e => { e with phase := .stream, poff := 15 }
     s.eng.busy = true ∧ s.eng.op = 0x00000001 ∧ s.eng.phase ≠ .idle ∧ s.eng.phase ≠ .copy) ∧
    (let s := busyState frame2 20 2
     s.eng.busy = true ∧ s.eng.op = 0x00000002 ∧ s.eng.phase = .checkCap) ∧
    let s := (busyState frame2 20 2).modEng fun e => { e with phase := .copy }
    s.eng.busy = true ∧ s.eng.op = 0x00000002 ∧ s.eng.phase = .copy := by decide +kernel

/-- The fatal state of R247, with an event that is no reset and with one that is. -/
def fatalState (script : List HostEvent) : State :=
  { vecState.modEng (fun e => { e with fatal := true, done := true, code := 6 }) with script := script }

theorem witness_FatalUntilReset :
    (let s := { fatalState [.select 1] with right := [Engine.reset] }
     s.engines[0]? = some s.eng ∧ s.eng.fatal = true ∧ s.eng.busy = false ∧ s.script.head? ≠ some .reset ∧
      look (fun t => t.eng.fatal) (step s) = some false) ∧
    let s := fatalState [.reset]
    s.eng.fatal = true ∧ s.eng.busy = false ∧ s.script.head? = some .reset ∧ look (fun t => t.eng.fatal) (step s) = some false := by
  decide +kernel

theorem witness_IdleMachineStays : vecState.script = [] ∧ ∀ e ∈ vecState.engines, e.busy = false := by decide

theorem witness_ResetWhenIdle :
    let s := { ioState frame2 5 with script := [.reset], right := [Engine.reset] }
    s.script = [.reset] ∧ ∀ e ∈ s.engines, e.busy = false := by decide +kernel

/-- A reset while a command that is going to write runs. -/
theorem witness_ResetWhileBusy :
    let s := { busyState frame2 5 1 with script := [.reset] }
    s.left = [] ∧ s.right = [] ∧ s.mem.Wf ∧ s.script = [.reset] ∧ s.eng.busy = true ∧
      look (fun u => u.eng.outLen) (exec (decodeCmd s.eng.op) { s with script := [] }) = some 5 := by decide +kernel

/-- The last address of the memory with no command running; the first output byte with one. -/
theorem witness_HostMemoryRead :
    (let s := { ioState frame2 5 with script := [.memRead 0xFFFFFFFF] }
     s.left = [] ∧ s.right = [] ∧ s.script = [.memRead 0xFFFFFFFF] ∧ 0xFFFFFFFF < 2 ^ s.cfg.addrW ∧
      s.cfg.onDevice 0xFFFFFFFF 1 = false ∧ s.eng.busy = false) ∧
    let s := { busyState frame2 5 1 with script := [.memRead 0x2000] }
    0x2000 < 2 ^ s.cfg.addrW ∧ s.cfg.onDevice 0x2000 1 = false ∧ s.eng.busy = true ∧
      look (fun u => u.eng.code) (exec (decodeCmd s.eng.op) { s with script := [] }) = some 0 := by decide +kernel

/-- The last input byte; the last output byte; the byte after it; a byte with no command running. -/
theorem witness_HostMemoryWrite :
    (let s := { busyState frame2 5 1 with script := [.memWrite 0x1013 1] }
     s.mem.Wf ∧ s.eng.busy = true ∧ 19 < s.n ∧ 0x1013 = s.cfg.addr s.eng.inAddr 19) ∧
    (let s := { busyState frame2 5 1 with script := [.memWrite 0x2004 1] }
     s.eng.busy = true ∧ (∀ i, i < s.n → 0x2004 ≠ s.cfg.addr s.eng.inAddr i) ∧
      look (fun u => (u.eng.code, u.eng.outLen)) (exec (decodeCmd s.eng.op) { s with script := [] }) = some (0, 5) ∧
      0x2004 = s.outAt 4) ∧
    (let s := { busyState frame2 5 1 with script := [.memWrite 0x2005 1] }
     (∀ i, i < s.n → 0x2005 ≠ s.cfg.addr s.eng.inAddr i) ∧ ∀ j, j < 5 → 0x2005 ≠ s.outAt j) ∧
    (ioState frame2 5).eng.busy = false := by decide +kernel

/-- Two instances, one running F2's DECRYPT and the other about to run the same. -/
def sameOutput : State := { ioState frame2 5 with right := [(busyState frame2 5 1).eng] }

/-- A DIRECT_COPY of one byte onto the last input byte and onto the last output byte of another instance's command, and
of a byte that command is going to write; a DECRYPT whose output meets that command's output. -/
theorem witness_SharedRangeFaults :
    (∀ s ∈ [besideBusy 0x3000 0x1013, besideBusy 0x3000 0x2004, besideBusy 0x2004 0x3000, sameOutput],
      (busyState frame2 5 1).eng ∈ s.others ∧ (busyState frame2 5 1).eng.busy = true ∧ s.eng.busy = false ∧
        s.eng.fatal = false ∧ s.eng.onDevice s.cfg = false) ∧
    (besideBusy 0x3000 0x1013).Conflict (besideBusy 0x3000 0x1013).eng.copyStarted (busyState frame2 5 1).eng ∧
    (besideBusy 0x3000 0x2004).Conflict (besideBusy 0x3000 0x2004).eng.copyStarted (busyState frame2 5 1).eng ∧
    (besideBusy 0x2004 0x3000).Conflict (besideBusy 0x2004 0x3000).eng.copyStarted (busyState frame2 5 1).eng ∧
    sameOutput.Conflict sameOutput.eng.decryptStarted (busyState frame2 5 1).eng := by
  have h1 : (besideBusy 0x3000 0x1013).conflict (besideBusy 0x3000 0x1013).eng.copyStarted (busyState frame2 5 1).eng = true := by
    decide +kernel
  have h2 : (besideBusy 0x3000 0x2004).conflict (besideBusy 0x3000 0x2004).eng.copyStarted (busyState frame2 5 1).eng = true := by
    decide +kernel
  have h3 : (besideBusy 0x2004 0x3000).conflict (besideBusy 0x2004 0x3000).eng.copyStarted (busyState frame2 5 1).eng = true := by
    decide +kernel
  have h4 : sameOutput.conflict sameOutput.eng.decryptStarted (busyState frame2 5 1).eng = true := by decide +kernel
  exact ⟨by decide +kernel, (conflict_iff _ _ _).1 h1, (conflict_iff _ _ _).1 h2, (conflict_iff _ _ _).1 h3,
    (conflict_iff _ _ _).1 h4⟩

/-- A command that ends, and one whose output meets its input. -/
theorem witness_WillWriteIsWritten :
    (let s := busyState frame2 5 1
     s.eng.Inv s.cfg ∧ s.eng.busy = true ∧ s.willWrite s.eng = 5 ∧
      look (fun t => t.eng.code) (exec (decodeCmd s.eng.op) s) = some 0) ∧
    let s := (busyState (countTo 10) 9 2).modEng fun e => { e with outAddr := 0x1009 }
    s.eng.Inv s.cfg ∧ s.eng.busy = true ∧ s.willWrite s.eng = 10 ∧
      faultOf (exec (decodeCmd s.eng.op) s) = some (.hostContract .overlap) := by decide +kernel

theorem witness_ResetState : (0x1C : Nat) % 4 = 0 ∧ (0x1C : Nat) ≤ 0x1C := by decide

theorem witness_WaitPollsStatus :
    (let s := { fatalState [.wait] with script := [.wait] }
     s.script = [.wait] ∧ (s.eng.done = true ∨ s.eng.fatal = true)) ∧
    (let s := { busyState frame2 5 1 with script := [.wait] }
     s.eng.done = false ∧ s.eng.fatal = false ∧ s.eng.busy = true) ∧
    (let s := otherWaiting
     s.eng.done = false ∧ s.eng.fatal = false ∧ s.eng.busy = false ∧ s.engines[2]? = some (busyState frame2 5 1).eng ∧
      (busyState frame2 5 1).eng.busy = true ∧ ∀ e ∈ s.engines.take 2, e.busy = false) ∧
    let s := { vecState with script := [.wait] }
    s.eng.done = false ∧ s.eng.fatal = false ∧ ∀ e ∈ s.engines, e.busy = false := by decide +kernel

end Sys2Proof.Tests
end

section
/-! SUPPORT. What a part of a command can do to the machine, said once: a phase changes internal registers and moves on or
ends the command (`State.Moved`), the last phase writes memory and ends it (`State.Finishes`). -/

namespace Sys2Proof.Machine

/-! ### The relations -/

/-- The engine goes on in phase `ph`: no host-visible register and not the captured opcode has changed. -/
structure Engine.GoesTo (ph : Phase) (e e' : Engine) : Prop where
  visible : e'.SameVisible e
  op : e'.op = e.op
  phase : e'.phase = ph

/-- The engine's command has ended (R244), in the fatal state only with code 6 (R247). -/
structure Engine.Ends (e e' : Engine) : Prop where
  operands : e'.SameOperands e
  op : e'.op = e.op
  busy : e'.busy = false
  done : e'.done = true
  phase : e'.phase = .idle
  status : e'.fatal = e.fatal ∧ e'.code.toNat ≤ 6 ∨ e'.fatal = true ∧ e'.code = 6

/-- Of what is not STATUS, PHASE or an internal register nothing has changed. -/
structure State.Still (s t : State) : Prop where
  mem : t.mem = s.mem
  around : s.SameAround t
  operands : t.eng.SameOperands s.eng
  outLen : t.eng.outLen = s.eng.outLen

/-- An instruction of the engine that writes internal registers only. -/
structure State.Works (s t : State) : Prop extends s.Still t where
  goes : s.eng.GoesTo s.eng.phase t.eng

/-- One phase of a command without a write to memory: internal registers only have changed, and the command is in phase
`ph` or has ended. -/
structure State.Moved (ph : Phase) (s t : State) : Prop extends s.Still t where
  goes : s.eng.GoesTo ph t.eng ∨ s.eng.Ends t.eng

/-- The memory is in canonical form and inside its address space (R60). -/
abbrev State.MemOk (s : State) : Prop := s.mem.Wf ∧ s.mem.Below s.cfg.size

/-- The last phase of a command: it has written memory and ended with Success. -/
structure State.Finishes (s t : State) : Prop where
  around : s.SameAround t
  ends : s.eng.Ends t.eng
  code : t.eng.code = 0
  mem : s.MemOk → t.MemOk

theorem sameVisible_refl (e : Engine) : e.SameVisible e := ⟨⟨rfl, rfl, rfl, rfl⟩, rfl, rfl, rfl, rfl, rfl⟩

theorem sameAround_refl (s : State) : s.SameAround s := ⟨rfl, rfl, rfl, rfl, rfl, rfl, rfl⟩

theorem State.SameAround.trans {s t u : State} (h : s.SameAround t) (g : t.SameAround u) : s.SameAround u := by
  obtain ⟨h1, h2, h3, h4, h5, h6, h7⟩ := h
  obtain ⟨g1, g2, g3, g4, g5, g6, g7⟩ := g
  exact ⟨g1.trans h1, g2.trans h2, g3.trans h3, g4.trans h4, g5.trans h5, g6.trans h6, g7.trans h7⟩

theorem Engine.SameOperands.trans {a b c : Engine} (h : a.SameOperands b) (g : b.SameOperands c) : a.SameOperands c := by
  obtain ⟨h1, h2, h3, h4⟩ := h
  obtain ⟨g1, g2, g3, g4⟩ := g
  exact ⟨h1.trans g1, h2.trans g2, h3.trans g3, h4.trans g4⟩

theorem Engine.SameVisible.trans {a b c : Engine} (h : a.SameVisible b) (g : b.SameVisible c) : a.SameVisible c := by
  obtain ⟨h0, h1, h2, h3, h4, h5⟩ := h
  obtain ⟨g0, g1, g2, g3, g4, g5⟩ := g
  exact ⟨h0.trans g0, h1.trans g1, h2.trans g2, h3.trans g3, h4.trans g4, h5.trans g5⟩

theorem State.Still.refl (s : State) : s.Still s := ⟨rfl, sameAround_refl s, (sameVisible_refl _).1, rfl⟩

theorem State.Still.trans {s t u : State} (h : s.Still t) (g : t.Still u) : s.Still u :=
  ⟨g.mem.trans h.mem, h.around.trans g.around, Engine.SameOperands.trans g.operands h.operands, g.outLen.trans h.outLen⟩

/-- An engine that goes on and then ends has ended. -/
theorem Engine.GoesTo.then_ends {ph : Phase} {e e' e'' : Engine} (h : e.GoesTo ph e') (g : e'.Ends e'') : e.Ends e'' := by
  obtain ⟨⟨ho, -, -, -, hf, -⟩, hop, -⟩ := h
  obtain ⟨go, gop, gb, gd, gp, gs⟩ := g
  exact ⟨Engine.SameOperands.trans go ho, gop.trans hop, gb, gd, gp, gs.imp_left fun ⟨a, b⟩ => ⟨a.trans hf, b⟩⟩

theorem Engine.GoesTo.trans {ph ph' : Phase} {e e' e'' : Engine} (h : e.GoesTo ph e') (g : e'.GoesTo ph' e'') :
    e.GoesTo ph' e'' :=
  ⟨Engine.SameVisible.trans g.visible h.visible, g.op.trans h.op, g.phase⟩

/-! ### How the relations arise -/

/-- A change of internal registers, and of PHASE to `ph`. -/
theorem moved_modEng {ph : Phase} {s : State} {f : Engine → Engine} (h : s.eng.GoesTo ph (f s.eng)) :
    s.Moved ph (s.modEng f) := by
  have ⟨⟨ho, hlen, _⟩, _, _⟩ := h
  exact ⟨⟨rfl, sameAround_refl s, ho, hlen⟩, .inl h⟩

/-- A change of internal registers alone. -/
theorem works_modEng {s : State} {f : Engine → Engine} (h : s.eng.GoesTo s.eng.phase (f s.eng)) : s.Works (s.modEng f) :=
  ⟨(moved_modEng h).toStill, h⟩

theorem StatusCode.bits_le (c : StatusCode) : c.bits.toNat ≤ 6 := by cases c <;> decide

theorem ends_ended (c : StatusCode) (e : Engine) : e.Ends (Engine.ended c e) :=
  ⟨⟨rfl, rfl, rfl, rfl⟩, rfl, rfl, rfl, rfl, .inl ⟨rfl, c.bits_le⟩⟩

theorem raiseStatus_moved (ph : Phase) (c : StatusCode) (s : State) : Sat (s.Moved ph) (raiseStatus c s) :=
  sat_next.2 ⟨⟨rfl, sameAround_refl s, ⟨rfl, rfl, rfl, rfl⟩, rfl⟩, .inr (ends_ended c s.eng)⟩

theorem raiseFatal_moved (ph : Phase) (s : State) : Sat (s.Moved ph) (raiseFatal s) :=
  sat_next.2 ⟨⟨rfl, sameAround_refl s, ⟨rfl, rfl, rfl, rfl⟩, rfl⟩,
    .inr ⟨⟨rfl, rfl, rfl, rfl⟩, rfl, rfl, rfl, rfl, .inr ⟨rfl, rfl⟩⟩⟩

theorem State.Works.moved {s t : State} (h : s.Works t) : s.Moved s.eng.phase t := ⟨h.toStill, .inl h.goes⟩

/-- A move after one that has not ended the command. -/
theorem State.Moved.of_goes {ph ph' : Phase} {s t u : State} (h : s.Still t) (hg : s.eng.GoesTo ph t.eng) (g : t.Moved ph' u) :
    s.Moved ph' u :=
  ⟨h.trans g.toStill, g.goes.imp hg.trans hg.then_ends⟩

/-- A move after internal registers have been written. -/
theorem State.Works.then_sat {ph : Phase} {s t : State} {o : Result} (h : s.Works t) (ho : Sat (t.Moved ph) o) :
    Sat (s.Moved ph) o :=
  ho.mono fun _ hu => .of_goes h.toStill h.goes hu

/-- The end of a command after internal registers have been written. -/
theorem raiseStatus_moved_of_works {c : StatusCode} {s : State} {f : Engine → Engine}
    (h : s.eng.GoesTo s.eng.phase (f s.eng)) : Sat (s.Moved s.eng.phase) (raiseStatus c (s.modEng f)) :=
  (works_modEng h).then_sat (raiseStatus_moved _ c _)

/-- After a move the command runs its next phase, or it has ended and passes it by. -/
theorem State.Moved.then_phase {ph ph' : Phase} {s t : State} {f : State → Result} (h : s.Moved ph t) (hph : ph ≠ .idle)
    (hf : t.eng.phase = ph → Sat (t.Moved ph') (f t)) : Sat (s.Moved ph') (inPhase ph f t) := by
  rcases h.goes with hg | he
  · rw [inPhase_pos hg.phase]
    exact (hf hg.phase).mono fun _ hu => .of_goes h.toStill hg hu
  · have hp : t.eng.phase ≠ ph := by rw [he.phase]; exact hph.symm
    rw [inPhase_neg hp]
    exact sat_next.2 ⟨h.toStill, .inr he⟩

/-- A check of the contract, and the move behind it. -/
theorem checkContract_sat {P : State → Prop} {len : Nat} {f : State → Result} {s : State} (h : Sat P (f s)) :
    Sat P (checkContract len f s) := by
  cases hc : contractBroken len s with
  | none => rwa [checkContract_ok hc]
  | some v => rw [checkContract_broken hc]; exact sat_fault

theorem checkBuffers_sat {P : State → Prop} {f : State → Result} {s : State} (h : s.eng.onDevice s.cfg = false → Sat P (f s)) :
    Sat P (checkBuffers f s) := by
  unfold checkBuffers
  split
  · exact sat_fault
  next hd => exact h (by simpa using hd)

/-! ### The start and the header -/

theorem decryptStart_moved (s : State) : Sat (s.Moved .parse) (decryptStart s) :=
  checkBuffers_sat fun _ => sat_next.2 (moved_modEng ⟨sameVisible_refl s.eng, rfl, rfl⟩)

theorem copyStart_moved (s : State) : Sat (s.Moved .checkCap) (copyStart s) :=
  checkBuffers_sat fun _ => sat_next.2 (moved_modEng ⟨sameVisible_refl s.eng, rfl, rfl⟩)

theorem takeKeyId_moved (k : Byte) (s : State) : Sat (s.Moved s.eng.phase) (takeKeyId k s) := by
  rcases Nat.lt_or_ge (s.eng.p + 1 + k.toNat) s.n with h | h
  · rw [takeKeyId_ok h]
    exact sat_next.2 (moved_modEng (f := fun _ => _) ⟨sameVisible_refl s.eng, rfl, rfl⟩)
  · rw [takeKeyId_short h]
    exact raiseStatus_moved_of_works ⟨sameVisible_refl s.eng, rfl, rfl⟩

theorem takeIv_moved (v : Byte) (s : State) : Sat (s.Moved s.eng.phase) (takeIv v s) := by
  rcases Nat.lt_or_ge (s.eng.p + 1 + v.toNat) s.n with h | h
  · rw [takeIv_ok h]
    exact sat_next.2 (moved_modEng (f := fun _ => _) ⟨sameVisible_refl s.eng, rfl, rfl⟩)
  · rw [takeIv_short h]
    exact raiseStatus_moved_of_works ⟨sameVisible_refl s.eng, rfl, rfl⟩

theorem takeMarker_moved (m : Byte) (s : State) : Sat (s.Moved s.eng.phase) (takeMarker m s) :=
  sat_next.2 (moved_modEng ⟨sameVisible_refl s.eng, rfl, rfl⟩)

theorem execKeySetup_works (k : KeyArg) (s : State) : Sat s.Works (execKeySetup k s) := by
  cases k with
  | keyReg => exact sat_next.2 (works_modEng ⟨sameVisible_refl s.eng, rfl, rfl⟩)
  | bytes k =>
    unfold execKeySetup
    dsimp only
    split
    · exact sat_next.2 (works_modEng ⟨sameVisible_refl s.eng, rfl, rfl⟩)
    · exact sat_refused

theorem dispatchSalsa_moved (s : State) : Sat (s.Moved .stream) (dispatchSalsa s) :=
  checkContract_sat <| (execKeySetup_works .keyReg s).andThen fun t ht =>
    ht.then_sat (sat_next.2 (moved_modEng ⟨sameVisible_refl t.eng, rfl, rfl⟩))

theorem execFrameKisOther_moved (b : Byte) (s : State) : Sat (s.Moved s.eng.phase) (execFrameKisOther b s) :=
  raiseStatus_moved_of_works ⟨sameVisible_refl s.eng, rfl, rfl⟩

theorem execFrameIvsOther_moved (b : Byte) (s : State) : Sat (s.Moved s.eng.phase) (execFrameIvsOther b s) :=
  raiseStatus_moved_of_works ⟨sameVisible_refl s.eng, rfl, rfl⟩

/-- The phase a marker leads to: out of SETUP to STREAM (R215), in PARSE none (R105). -/
def Phase.afterMarker (ph : Phase) : Phase := if ph = .setup then .stream else ph

theorem execFrameMarkerS_moved (s : State) : Sat (s.Moved s.eng.phase.afterMarker) (execFrameMarkerS s) := by
  unfold execFrameMarkerS Phase.afterMarker
  split
  · exact dispatchSalsa_moved s
  · exact takeMarker_moved _ s

theorem execFrameMarkerA_moved (s : State) : Sat (s.Moved s.eng.phase.afterMarker) (execFrameMarkerA s) := by
  unfold execFrameMarkerA Phase.afterMarker
  split
  · exact raiseFatal_moved _ s
  · exact takeMarker_moved _ s

theorem execFrameMarkerOther_moved (b : Byte) (s : State) :
    Sat (s.Moved s.eng.phase.afterMarker) (execFrameMarkerOther b s) := by
  unfold execFrameMarkerOther Phase.afterMarker
  split
  · exact raiseFatal_moved _ s
  · exact raiseStatus_moved_of_works ⟨sameVisible_refl s.eng, rfl, rfl⟩

/-- The phase a header byte leads to by its field. -/
def Phase.afterByte (f : FrameField) (ph : Phase) : Phase :=
  match f with
  | .kis => ph
  | .ivs => ph
  | .marker => ph.afterMarker

theorem headerByte_moved (f : FrameField) (b : Byte) (s : State) : Sat (s.Moved (s.eng.phase.afterByte f)) (headerByte f b s) := by
  cases f with
  | kis =>
    unfold headerByte
    dsimp only
    split
    · exact takeKeyId_moved _ s
    split
    · exact takeKeyId_moved _ s
    · exact execFrameKisOther_moved b s
  | ivs =>
    unfold headerByte
    dsimp only
    split
    · exact takeIv_moved _ s
    split
    · exact takeIv_moved _ s
    · exact execFrameIvsOther_moved b s
  | marker =>
    unfold headerByte
    dsimp only
    split
    · exact execFrameMarkerS_moved s
    split
    · exact execFrameMarkerA_moved s
    · exact execFrameMarkerOther_moved b s

theorem afterByte_parse (f : FrameField) : Phase.parse.afterByte f = .parse := by cases f <;> rfl

theorem parseField_moved {s : State} (h : s.eng.phase = .parse) : Sat (s.Moved .parse) (parseField s) := by
  cases hf : s.eng.field with
  | none =>
    rw [parseField_none hf]
    exact sat_next.2 ⟨.refl s, .inl ⟨sameVisible_refl _, rfl, h⟩⟩
  | some f =>
    rcases Nat.lt_or_ge s.eng.p s.n with hp | hp
    · rw [parseField_some hf hp]
      have hm := headerByte_moved f (s.inByte s.eng.p) s
      rwa [h, afterByte_parse] at hm
    · rw [parseField_short hf hp]
      exact raiseStatus_moved _ _ s

theorem parseFields_moved {s : State} (h : s.eng.phase = .parse) : Sat (s.Moved .parse) (parseFields s) := by
  unfold parseFields
  rw [inPhase_pos h]
  exact (parseField_moved h).andThen fun t ht =>
    (ht.then_phase (by decide) parseField_moved).andThen fun u hu => hu.then_phase (by decide) parseField_moved

/-! ### The phases of DECRYPT and DIRECT_COPY -/

theorem parsePhase_moved {s : State} (h : s.eng.phase = .parse) : Sat (s.Moved .checkCap) (parsePhase s) :=
  (parseFields_moved h).andThen fun t ht => ht.then_phase (by decide) fun _ =>
    sat_next.2 (moved_modEng ⟨sameVisible_refl t.eng, rfl, rfl⟩)

theorem decryptCap_moved (s : State) : Sat (s.Moved .lookup) (decryptCap s) := by
  unfold decryptCap
  split
  · exact raiseStatus_moved _ _ s
  · exact sat_next.2 (moved_modEng ⟨sameVisible_refl s.eng, rfl, rfl⟩)

theorem execLookup_works (s : State) : Sat s.Works (execLookup s) := by
  cases h : lookupKey s.cfg.keyTable s.eng.keyId with
  | none => rw [execLookup_notFound h]; exact sat_next.2 (works_modEng ⟨sameVisible_refl s.eng, rfl, rfl⟩)
  | some k => rw [execLookup_found h]; exact sat_next.2 (works_modEng ⟨sameVisible_refl s.eng, rfl, rfl⟩)

theorem afterLookup_moved (s : State) : Sat (s.Moved .derive) (afterLookup s) := by
  unfold afterLookup
  split
  · exact sat_next.2 (moved_modEng ⟨sameVisible_refl s.eng, rfl, rfl⟩)
  · exact raiseStatus_moved _ _ s

/-- Phase LOOKUP: the instruction and what the sequencer does after it (R213). -/
def lookupPhase (s : State) : Result := andThen (execLookup s) afterLookup

theorem lookupPhase_moved (s : State) : Sat (s.Moved .derive) (lookupPhase s) :=
  (execLookup_works s).andThen fun t ht => ht.then_sat (afterLookup_moved t)

/-- Phase DERIVE: the instruction and what the sequencer does after it (R214). -/
def derivePhase (s : State) : Result := andThen (execDeriveIv s) afterDerive

theorem execDeriveIv_works (s : State) : Sat s.Works (execDeriveIv s) :=
  sat_next.2 (works_modEng ⟨sameVisible_refl s.eng, rfl, rfl⟩)

theorem derivePhase_moved (s : State) : Sat (s.Moved .setup) (derivePhase s) :=
  (execDeriveIv_works s).andThen fun t ht =>
    ht.then_sat (sat_next.2 (moved_modEng ⟨sameVisible_refl t.eng, rfl, rfl⟩))

theorem setupPhase_moved {s : State} (h : s.eng.phase = .setup) : Sat (s.Moved .stream) (setupPhase s) := by
  have hm := headerByte_moved .marker s.eng.marker s
  rwa [h] at hm

theorem copyCap_moved (s : State) : Sat (s.Moved .copy) (copyCap s) := by
  unfold copyCap
  split
  · exact raiseStatus_moved _ _ s
  · exact checkContract_sat (sat_next.2 (moved_modEng ⟨sameVisible_refl s.eng, rfl, rfl⟩))

/-! ### The phases that write memory -/

theorem State.MemOk.outByte {s : State} (h : s.MemOk) (i : Nat) (v : Byte) : (s.outByte i v).MemOk :=
  ⟨h.1.write _ _, h.2.write (addr_lt ..) v⟩

theorem xorBytes_memOk (src dst m : Nat) {s : State} (h : s.MemOk) : (xorBytes src dst m s).MemOk := by
  induction m with
  | zero => exact h
  | succ m ih => exact ih.outByte _ _

theorem copyBytes_around (m : Nat) (s : State) : copyBytes m s = { s with mem := (copyBytes m s).mem } := by
  induction m with
  | zero => rfl
  | succ m ih =>
    simp only [copyBytes]
    rw [ih]
    rfl

theorem copyBytes_memOk (m : Nat) {s : State} (h : s.MemOk) : (copyBytes m s).MemOk := by
  induction m with
  | zero => exact h
  | succ m ih => exact ih.outByte _ _

/-- What every turn of XOR_STREAM keeps, the whole loop keeps. -/
theorem xorLoop_keeps {P : State → Prop} {src dst len : Nat} (h : ∀ s, P s → P (xorTurn src dst len s)) :
    ∀ k s, P s → P (xorLoop src dst len k s) := by
  intro k
  induction k with
  | zero => exact fun _ hs => hs
  | succ k ih =>
    intro s hs
    unfold xorLoop
    split
    · exact ih _ (h s hs)
    · exact hs

/-- XOR_STREAM's writes: memory and internal registers. -/
structure State.Streamed (s t : State) : Prop where
  around : s.SameAround t
  goes : s.eng.GoesTo s.eng.phase t.eng
  mem : s.MemOk → t.MemOk

theorem State.Streamed.trans {s t u : State} (h : s.Streamed t) (g : t.Streamed u) : s.Streamed u :=
  ⟨h.around.trans g.around, h.goes.phase ▸ h.goes.trans g.goes, fun hs => g.mem (h.mem hs)⟩

/-- The registers after a turn has put out `m` bytes: POS and the counter step on (R179, R180). -/
def Engine.turnDone (m : Nat) (e : Engine) : Engine := Engine.ctrStep { e with pos := e.pos + m }

theorem goesTo_turnDone (m : Nat) (e : Engine) : e.GoesTo e.phase (e.turnDone m) := ⟨sameVisible_refl e, rfl, rfl⟩

/-- One turn of XOR_STREAM as BLOCK, the bytes, and the step of POS and the counter (R180). -/
theorem xorTurn_eq (src dst len : Nat) (s : State) :
    xorTurn src dst len s
      = (xorBytes src dst (min 64 (len - s.eng.pos)) (s.modEng Engine.blockStep)).modEng
          (Engine.turnDone (min 64 (len - s.eng.pos))) := rfl

theorem xorTurn_streamed (src dst len : Nat) (s : State) : s.Streamed (xorTurn src dst len s) := by
  have hm : s.MemOk → (xorTurn src dst len s).MemOk := fun hs =>
    xorBytes_memOk src dst _ (s := s.modEng Engine.blockStep) hs
  rw [xorTurn_eq, xorBytes_around] at hm ⊢
  exact ⟨sameAround_refl s, ⟨sameVisible_refl s.eng, rfl, rfl⟩, hm⟩

theorem xorStream_streamed (src dst len : Nat) (s : State) : s.Streamed (xorStream src dst len s) :=
  xorLoop_keeps (P := s.Streamed) (fun _ hu => hu.trans (xorTurn_streamed ..)) _ _
    ⟨sameAround_refl s, ⟨sameVisible_refl s.eng, rfl, rfl⟩, id⟩

theorem execXorStream_streamed (s : State) : Sat s.Streamed (execXorStream s) := sat_next.2 (xorStream_streamed ..)

/-- Phase STREAM: the instruction and what the sequencer does after it (R216). -/
def streamPhase (s : State) : Result := andThen (execXorStream s) afterStream

/-- `finish(Success)` with OUT_LEN written. -/
theorem ends_success (len : Nat) (e : Engine) : e.Ends { Engine.ended .success e with outLen := BitVec.ofNat 32 len } :=
  ⟨⟨rfl, rfl, rfl, rfl⟩, rfl, rfl, rfl, rfl, .inl ⟨rfl, StatusCode.success.bits_le⟩⟩

theorem streamPhase_finishes (s : State) : Sat s.Finishes (streamPhase s) :=
  (execXorStream_streamed s).andThen fun t ht =>
    sat_next.2 ⟨ht.around, ht.goes.then_ends (ends_success t.plen t.eng), rfl, ht.mem⟩

theorem copyPhase_finishes (s : State) : Sat s.Finishes (copyPhase s) := by
  have hm : s.MemOk → (copyBytes s.n s).MemOk := copyBytes_memOk s.n
  unfold copyPhase
  rw [copyBytes_around] at hm ⊢
  exact sat_next.2 ⟨sameAround_refl s, ends_success s.n s.eng, rfl, hm⟩

end Sys2Proof.Machine
end

section
/-! SUPPORT. What an instruction, a command, a host event and a step can do, from the moves of `State.Moved`: what they
leave of the machine around the selected engine and of its operand registers. -/

namespace Sys2Proof.Machine

/-! ### The commands, phase by phase -/

theorem execDecrypt_eq_stream (s : State) :
    execDecrypt s
      = andThen (andThen (decryptToSetup s) (inPhase .setup setupPhase)) (inPhase .stream streamPhase) := by
  rw [andThen_assoc]
  rfl

/-- What every move keeps holds when a DECRYPT begins XOR_STREAM, or has ended before. -/
theorem decrypt_keeps {P : State → Prop} {s : State} (hs : P s) (hm : ∀ {ph u t}, P u → u.Moved ph t → P t) :
    Sat P (andThen (decryptToSetup s) (inPhase .setup setupPhase)) := by
  have key : ∀ {ph ph' : Phase} {f : State → Result}, (∀ u, u.eng.phase = ph → Sat (u.Moved ph') (f u)) →
      ∀ u, P u → Sat P (inPhase ph f u) :=
    fun hf u hu => Sat.inPhase (fun he => (hf u he).mono fun _ ht => hm hu ht) fun _ => hu
  have start := key (ph := .idle) fun u _ => decryptStart_moved u
  have parse := key (ph := .parse) fun u => parsePhase_moved (s := u)
  have cap := key (ph := .checkCap) fun u _ => decryptCap_moved u
  have lookup := key (ph := .lookup) fun u _ => lookupPhase_moved u
  have derive := key (ph := .derive) fun u _ => derivePhase_moved u
  have setup := key (ph := .setup) fun u => setupPhase_moved (s := u)
  exact ((start s hs).andThen fun a ha => (parse a ha).andThen fun b hb => (cap b hb).andThen fun c hc =>
    (lookup c hc).andThen fun d hd => derive d hd).andThen fun u hu => setup u hu

/-- All but STATUS, PHASE and internal registers is still, or a command has ended with Success. -/
abbrev State.StillOrSuccess (s t : State) : Prop :=
  s.Still t ∨ s.SameAround t ∧ t.eng.SameOperands s.eng ∧ t.eng.code = 0 ∧ t.eng.done = true

theorem State.Still.then_finishes {s u t : State} (h : s.Still u) (g : u.Finishes t) : s.StillOrSuccess t :=
  .inr ⟨h.around.trans g.around, Engine.SameOperands.trans g.ends.operands h.operands, g.code, g.ends.done⟩

theorem execDecrypt_stillOrSuccess (s : State) : Sat s.StillOrSuccess (execDecrypt s) := by
  rw [execDecrypt_eq_stream]
  refine (decrypt_keeps (.refl s) fun hu ht => hu.trans ht.toStill).andThen fun u hu =>
    Sat.inPhase (fun _ => ?_) fun _ => .inl hu
  exact (streamPhase_finishes u).mono fun _ ht => hu.then_finishes ht

theorem execDirectCopy_stillOrSuccess (s : State) : Sat s.StillOrSuccess (execDirectCopy s) := by
  have start : Sat s.Still (inPhase .idle copyStart s) :=
    Sat.inPhase (fun _ => (copyStart_moved s).mono fun _ ht => ht.toStill) fun _ => .refl s
  unfold execDirectCopy
  refine start.andThen fun u hu => Sat.andThen (P := s.Still) ?_ fun v hv => Sat.inPhase (fun _ => ?_) fun _ => .inl hv
  · exact Sat.inPhase (fun _ => (copyCap_moved u).mono fun _ ht => hu.trans ht.toStill) fun _ => hu
  · exact (copyPhase_finishes v).mono fun _ ht => hv.then_finishes ht

/-! ### The instructions -/

theorem execParse_still (s : State) : Sat s.Still (execParse s) :=
  (parseFields_moved (s := s.modEng Engine.parseStart) rfl).mono fun _ ht =>
    (moved_modEng (ph := .parse) ⟨sameVisible_refl s.eng, rfl, rfl⟩).toStill.trans ht.toStill

/-- The rows of the opcode table that write memory or a host-visible register other than STATUS. -/
def writesMore : Instr → Bool
  | .decrypt | .directCopy | .xorStream | .regWrite _ _ _ | .regRead _ _ => true
  | _ => false

/-- Every other instruction writes STATUS, PHASE and internal registers only. -/
theorem exec_still {i : Instr} (h : writesMore i = false) (s : State) : Sat s.Still (exec i s) := by
  have moved : ∀ {ph o}, Sat (s.Moved ph) o → Sat s.Still o := fun ho => ho.mono fun _ ht => ht.toStill
  have works : ∀ {o}, Sat s.Works o → Sat s.Still o := fun ho => ho.mono fun _ ht => ht.toStill
  have internal : ∀ f : Engine → Engine, s.eng.GoesTo s.eng.phase (f s.eng) → Sat s.Still (.next (s.modEng f)) :=
    fun _ hf => sat_next.2 (works_modEng hf).toStill
  cases i with
  | decrypt => cases h
  | directCopy => cases h
  | regWrite => cases h
  | regRead => cases h
  | xorStream => cases h
  | illegalCmd => exact moved (raiseStatus_moved .idle _ s)
  | frameKis0 => exact moved (takeKeyId_moved _ s)
  | frameKis8 => exact moved (takeKeyId_moved _ s)
  | frameKisOther b => exact moved (execFrameKisOther_moved b s)
  | frameIvs4 => exact moved (takeIv_moved _ s)
  | frameIvs8 => exact moved (takeIv_moved _ s)
  | frameIvsOther b => exact moved (execFrameIvsOther_moved b s)
  | frameMarkerS => exact moved (execFrameMarkerS_moved s)
  | frameMarkerA => exact moved (execFrameMarkerA_moved s)
  | frameMarkerOther b => exact moved (execFrameMarkerOther_moved b s)
  | lookup => exact works (execLookup_works s)
  | parse => exact execParse_still s
  | deriveIv => exact works (execDeriveIv_works s)
  | keySetup k => exact works (execKeySetup_works k s)
  | quarterRound => exact internal _ ⟨sameVisible_refl s.eng, rfl, rfl⟩
  | columnRound => exact internal _ ⟨sameVisible_refl s.eng, rfl, rfl⟩
  | rowRound => exact internal _ ⟨sameVisible_refl s.eng, rfl, rfl⟩
  | doubleRound => exact internal _ ⟨sameVisible_refl s.eng, rfl, rfl⟩
  | block => exact internal _ ⟨sameVisible_refl s.eng, rfl, rfl⟩
  | ctrInc => exact internal _ ⟨sameVisible_refl s.eng, rfl, rfl⟩

/-- Settles O38: an instruction writes no operand register by `exec_still`, a command by its moves, which its last phase
ends with Success. -/
theorem engineKeepsOperands : Obligations.EngineKeepsOperands := by
  unfold Obligations.EngineKeepsOperands
  intro i s t hw ht
  by_cases h : writesMore i = false
  · have hs := exec_still h s t ht
    exact ⟨hs.operands, fun hne => absurd hs.outLen hne⟩
  cases i with
  | regWrite size off v => exact absurd rfl (hw size off v)
  | decrypt =>
    rcases execDecrypt_stillOrSuccess s t ht with hs | ⟨-, ho, hc, hd⟩
    · exact ⟨hs.operands, fun hne => absurd hs.outLen hne⟩
    · exact ⟨ho, fun _ => ⟨.inl rfl, hc, hd⟩⟩
  | directCopy =>
    rcases execDirectCopy_stillOrSuccess s t ht with hs | ⟨-, ho, hc, hd⟩
    · exact ⟨hs.operands, fun hne => absurd hs.outLen hne⟩
    · exact ⟨ho, fun _ => ⟨.inr rfl, hc, hd⟩⟩
  | xorStream =>
    obtain ⟨hoperands, houtLen, -⟩ := (execXorStream_streamed s t ht).goes.visible
    exact ⟨hoperands, fun hne => absurd houtLen hne⟩
  | regRead size off =>
    have hr : Sat (fun u => u.eng = s.eng) (execRegRead size off s) := by
      unfold execRegRead
      split
      · exact sat_refused
      · exact sat_next.2 rfl
    rw [hr t ht]
    exact ⟨(sameVisible_refl _).1, fun hne => absurd rfl hne⟩
  | _ => exact absurd rfl h

end Sys2Proof.Machine
end

section
/-! SUPPORT. What a host event and an engine step can do, said once each: the outcome of a register write, of a memory
access, of a reset, of the choice of an engine, and of one phase. -/

namespace Sys2Proof.Machine

/-! ### The register window -/

/-- The registers after the acceptance of a CMD word (R219); ILLEGAL_CMD has ended (log 2). -/
def Engine.started (v : Word) (e : Engine) : Engine :=
  if v = 0x00000001 then e.decryptStarted
  else if v = 0x00000002 then e.copyStarted
  else Engine.ended .illegalCommand (Engine.accepted v e)

theorem checkShared_sat {P : State → Prop} {s : State} (h : P s) : Sat P (checkShared s) := by
  unfold checkShared
  split
  · exact sat_fault
  · exact sat_next.2 h

/-- A write to CMD is ignored or it starts a command (R219, R220). -/
theorem writeCmd_sat (v : Word) (s : State) :
    Sat (fun t => t = s ∨ s.eng.busy = false ∧ s.eng.fatal = false ∧
        ((v = 0x00000001 ∨ v = 0x00000002) → s.eng.onDevice s.cfg = false) ∧ t = { s with eng := s.eng.started v })
      (writeCmd v s) := by
  unfold writeCmd
  split
  · exact sat_next.2 (.inl rfl)
  next hbf =>
    obtain ⟨hb, hf⟩ : s.eng.busy = false ∧ s.eng.fatal = false := by simpa using hbf
    refine Sat.andThen (P := fun t => _) ?_ fun t ht => checkShared_sat ht
    unfold startCommand
    split
    next h1 =>
      subst h1
      exact checkBuffers_sat fun hd => sat_next.2 (.inr ⟨hb, hf, fun _ => hd, rfl⟩)
    split
    next h2 =>
      subst h2
      exact checkBuffers_sat fun hd => sat_next.2 (.inr ⟨hb, hf, fun _ => hd, rfl⟩)
    next h1 h2 =>
      have he : s.eng.started v = Engine.ended .illegalCommand (Engine.accepted v s.eng) := by
        rw [Engine.started, if_neg h1, if_neg h2]
      exact sat_next.2 (.inr ⟨hb, hf, fun h => absurd h (by tauto), by rw [he]; rfl⟩)

/-- A register write is ignored, writes an operand register of an engine that is not busy, or starts a command
(R219 to R221). -/
theorem execRegWrite_sat (size off : Nat) (v : Word) (s : State) :
    Sat (fun t => t = s ∨ s.eng.busy = false ∧ (t = s.modEng (Engine.writeReg s.cfg off v) ∨
        s.eng.fatal = false ∧ ((v = 0x00000001 ∨ v = 0x00000002) → s.eng.onDevice s.cfg = false) ∧
          t = { s with eng := s.eng.started v }))
      (execRegWrite size off v s) := by
  unfold execRegWrite
  split
  · exact sat_refused
  split
  · exact (writeCmd_sat v s).mono fun t ht => ht.imp_right fun ⟨hb, h⟩ => ⟨hb, .inr h⟩
  split
  · exact sat_next.2 (.inl rfl)
  next hb => exact sat_next.2 (.inr ⟨by simpa using hb, .inl rfl⟩)

/-- A register read changes the host's `rdata` only (R222). -/
theorem execRegRead_sat (size off : Nat) (s : State) :
    Sat (fun t => t = { s with rdata := s.eng.readReg off }) (execRegRead size off s) := by
  unfold execRegRead
  split
  · exact sat_refused
  · exact sat_next.2 rfl

/-- The host's access event is the register instruction, refused where that one is (R22). -/
theorem hostStep_access (w : Bool) (size off : Nat) (v : Word) (s : State) :
    hostStep (.access ⟨w, size, off, v⟩) s = if w then execRegWrite size off v s else execRegRead size off s := by
  unfold hostStep decodeAccess
  by_cases hs : size = 4
  · by_cases ho : offsetOk off
    · cases w <;> simp [hs, ho, exec]
    · cases w <;> simp [hs, ho, execRegWrite, execRegRead]
  · cases w <;> simp [hs, execRegWrite, execRegRead]

/-! ### The host's memory, the choice of an engine -/

theorem hostAddress_sat {P : State → Prop} {a : Nat} {f : State → Result} {s : State}
    (h : a < s.cfg.size → Sat P (f s)) : Sat P (hostAddress a f s) := by
  unfold hostAddress
  split
  · exact sat_fault
  next ha =>
    split
    · exact sat_refused
    · exact h (Nat.lt_of_not_le ha)

/-- A host read changes the host's own fields only. -/
theorem hostRead_sat (a : Nat) (s : State) :
    Sat (fun t => t = { s with mdata := t.mdata, draws := t.draws }) (hostRead a s) := by
  refine hostAddress_sat fun _ => ?_
  cases s.pendingByte a s.engines with
  | error r => exact sat_fault
  | ok o =>
    cases o with
    | none => exact sat_next.2 rfl
    | some b => exact sat_next.2 rfl

/-- A host write changes one byte of the memory (R60). -/
theorem hostWrite_sat (a : Nat) (b : Byte) (s : State) :
    Sat (fun t => a < s.cfg.size ∧ t = { s with mem := s.mem.write a b }) (hostWrite a b s) := by
  refine hostAddress_sat fun ha => ?_
  split
  · exact sat_fault
  cases s.pendingByte a s.engines with
  | error r => exact sat_fault
  | ok o =>
    cases o with
    | none => exact sat_next.2 ⟨ha, rfl⟩
    | some b => exact sat_fault

/-- The choice of an engine changes none (R255). -/
theorem selectEngine_sat (k : Nat) (s : State) :
    Sat (fun t => t.engines = s.engines ∧ s.engines[k]? = some t.eng ∧
        t = { s with left := t.left, eng := t.eng, right := t.right })
      (selectEngine k s) := by
  cases h : s.engines[k]? with
  | none =>
    have hd : s.engines.drop k = [] := List.drop_eq_nil_of_le (List.getElem?_eq_none_iff.1 h)
    unfold selectEngine
    rw [hd]
    exact sat_refused
  | some e =>
    rw [selectEngine_eq h]
    exact sat_next.2 ⟨engines_select h, rfl, rfl⟩

theorem busy_of_firstBusy {s : State} {k : Nat} (h : s.firstBusy = some k) :
    ∃ e, s.engines[k]? = some e ∧ e.busy = true := by
  obtain ⟨hk, hb, -⟩ := List.findIdx?_eq_some_iff_getElem.1 h
  exact ⟨_, List.getElem?_eq_getElem hk, hb⟩

/-! ### Reset -/

/-- Output bytes drawn for an abandoned command: memory and the count of draws have changed. -/
structure State.Drawn (s t : State) : Prop where
  eq : t = { s with mem := t.mem, draws := t.draws }
  mem : s.MemOk → t.MemOk

theorem State.Drawn.trans {s t u : State} (h : s.Drawn t) (g : t.Drawn u) : s.Drawn u :=
  ⟨by rw [g.eq, h.eq], fun hs => g.mem (h.mem hs)⟩

theorem drawBytes_drawn (base : Word) (new : Memory) (k : Nat) (s : State) : s.Drawn (drawBytes base new k s) := by
  induction k with
  | zero => exact ⟨rfl, id⟩
  | succ k ih =>
    refine ih.trans ⟨rfl, fun h => ⟨h.1.write _ _, h.2.write (addr_lt ..) _⟩⟩

theorem abandon_drawn (e : Engine) (s : State) : Sat s.Drawn (abandon e s) := by
  unfold abandon
  split
  · cases runCommand { s with eng := e } with
    | next t => exact sat_next.2 (drawBytes_drawn ..)
    | fault r => exact sat_fault
    | refused r => exact sat_refused
  · exact sat_next.2 ⟨rfl, id⟩

theorem abandonAll_drawn : ∀ (es : List Engine) (s : State), Sat s.Drawn (abandonAll es s)
  | [], _ => sat_next.2 ⟨rfl, id⟩
  | e :: es, s => (abandon_drawn e s).andThen fun t ht => (abandonAll_drawn es t).mono fun _ hu => ht.trans hu

/-- A reset: drawn output bytes, and every engine at its reset values (R270, R271). -/
theorem hostReset_sat (s : State) : Sat (fun t => ∃ u, s.Drawn u ∧ t = u.resetEngines) (hostReset s) :=
  (abandonAll_drawn s.engines s).andThen fun u hu => sat_next.2 ⟨u, hu, rfl⟩

theorem engines_resetEngines (s : State) : s.resetEngines.engines = s.engines.map Engine.toReset := by
  simp [State.engines, State.resetEngines]

/-! ### One engine step -/

/-- The work of one engine step, by phase (R40): in PARSE one field of the header. -/
def phaseStep (s : State) : Result :=
  match s.eng.phase with
  | .idle => exec (decodeCmd s.eng.op) s
  | .parse => if s.eng.field = none then .next (s.modEng fun e => { e with phase := .checkCap }) else parseField s
  | .checkCap => if s.eng.op = 0x00000001 then decryptCap s else copyCap s
  | .lookup => lookupPhase s
  | .derive => derivePhase s
  | .setup => setupPhase s
  | .stream => streamPhase s
  | .copy => copyPhase s

theorem engineStep_notBusy {s : State} (h : s.eng.busy = false) : engineStep s = .next s := by
  simp [engineStep, State.issue, controlStep, h]

/-- In PARSE the header byte at P is issued where there is one, else the command is cut short (R131). -/
theorem engineStep_parse {s : State} (hb : s.eng.busy = true) (hp : s.eng.phase = .parse) :
    engineStep s
      = if s.eng.field = none then .next (s.modEng fun e => { e with phase := .checkCap }) else parseField s := by
  cases hf : s.eng.field with
  | none => simp [engineStep, State.issue, controlStep, hb, hp, hf]
  | some f =>
    have hadv : advance .parse = Host.Outcome.next := rfl
    by_cases hn : s.eng.p < s.n
    · simp [engineStep, State.issue, hb, hp, hf, hn, exec_decodeHeaderByte, parseField, hadv]
    · simp [engineStep, State.issue, controlStep, hb, hp, hf, hn, parseField]

theorem engineStep_busy {s : State} (hb : s.eng.busy = true) : engineStep s = phaseStep s := by
  have issued : ∀ i, s.issue = some i → engineStep s = andThen (exec i s) (advance s.eng.phase) := fun i hi => by
    unfold engineStep
    rw [hi]
  have control : s.issue = none → engineStep s = controlStep s := fun hi => by
    unfold engineStep
    rw [hi]
  cases hp : s.eng.phase with
  | parse =>
    rw [engineStep_parse hb hp]
    simp only [phaseStep, hp]
  | idle =>
    rw [issued _ (by simp only [State.issue, hb, hp]; rfl), hp]
    simp only [phaseStep, hp]
    exact andThen_next_right _
  | checkCap =>
    rw [control (by simp only [State.issue, hb, hp]; rfl)]
    simp only [controlStep, phaseStep, hb, hp]
    rfl
  | copy =>
    rw [control (by simp only [State.issue, hb, hp]; rfl)]
    simp only [controlStep, phaseStep, hb, hp]
    rfl
  | lookup =>
    rw [issued _ (by simp only [State.issue, hb, hp]; rfl), hp]
    simp only [phaseStep, hp]
    rfl
  | derive =>
    rw [issued _ (by simp only [State.issue, hb, hp]; rfl), hp]
    simp only [phaseStep, hp]
    rfl
  | stream =>
    rw [issued _ (by simp only [State.issue, hb, hp]; rfl), hp]
    simp only [phaseStep, hp]
    rfl
  | setup =>
    rw [issued _ (by simp only [State.issue, hb, hp]; rfl), hp, exec_decodeHeaderByte]
    simp only [phaseStep, hp]
    exact andThen_next_right _

/-- A phase a running command of opcode `op` may be in (R40). -/
abbrev OwnPhase (op : Word) (ph : Phase) : Prop :=
  ph ≠ .idle ∧ (op = 0x00000001 ∧ ph ≠ .copy ∨ op = 0x00000002 ∧ (ph = .checkCap ∨ ph = .copy))

theorem OwnPhase.of_decrypt {op : Word} {ph ph' : Phase} (hd : ph ≠ .checkCap ∧ ph ≠ .copy ∨ op = 0x00000001)
    (h' : ph' ≠ .idle ∧ ph' ≠ .copy) (h : OwnPhase op ph) : OwnPhase op ph' := by
  obtain ⟨-, ⟨hop, -⟩ | ⟨hop, hph⟩⟩ := h
  · exact ⟨h'.1, .inl ⟨hop, h'.2⟩⟩
  · rcases hd with ⟨hcap, hcopy⟩ | hd
    · exact absurd hph (by simp [hcap, hcopy])
    · exact ⟨h'.1, .inl ⟨hd, h'.2⟩⟩

theorem OwnPhase.copy_of_checkCap {op : Word} (hop : op ≠ 0x00000001) (h : OwnPhase op .checkCap) : OwnPhase op .copy :=
  ⟨by decide, .inr ⟨(h.2.resolve_left fun h1 => hop h1.1).1, .inr rfl⟩⟩

/-- One engine step of a running command is a move to another phase of its own, or its last phase. -/
theorem phaseStep_sat {s : State} (h : s.eng.phase ≠ .idle) :
    Sat (fun t => (∃ ph, (OwnPhase s.eng.op s.eng.phase → OwnPhase s.eng.op ph) ∧ s.Moved ph t) ∨ s.Finishes t)
      (phaseStep s) := by
  have move : ∀ {ph₀ ph o}, (OwnPhase s.eng.op ph₀ → OwnPhase s.eng.op ph) → Sat (s.Moved ph) o →
      Sat (fun t => (∃ ph, (OwnPhase s.eng.op ph₀ → OwnPhase s.eng.op ph) ∧ s.Moved ph t) ∨ s.Finishes t) o :=
    fun hown ho => ho.mono fun _ ht => .inl ⟨_, hown, ht⟩
  cases hp : s.eng.phase with
  | idle => exact absurd hp h
  | parse =>
    simp only [phaseStep, hp]
    split
    · exact move (ph := .checkCap) (.of_decrypt (.inl (by decide)) (by decide))
        (sat_next.2 (moved_modEng ⟨sameVisible_refl s.eng, rfl, rfl⟩))
    · exact move id (parseField_moved hp)
  | checkCap =>
    simp only [phaseStep, hp]
    split
    next h1 => exact move (.of_decrypt (.inr h1) (by decide)) (decryptCap_moved s)
    next h1 => exact move (.copy_of_checkCap h1) (copyCap_moved s)
  | lookup => simp only [phaseStep, hp]; exact move (.of_decrypt (.inl (by decide)) (by decide)) (lookupPhase_moved s)
  | derive => simp only [phaseStep, hp]; exact move (.of_decrypt (.inl (by decide)) (by decide)) (derivePhase_moved s)
  | setup => simp only [phaseStep, hp]; exact move (.of_decrypt (.inl (by decide)) (by decide)) (setupPhase_moved hp)
  | stream => simp only [phaseStep, hp]; exact (streamPhase_finishes s).mono fun _ ht => .inr ht
  | copy => simp only [phaseStep, hp]; exact (copyPhase_finishes s).mono fun _ ht => .inr ht

end Sys2Proof.Machine
end

section
/-! SUPPORT. The two grains of a command (log 1): its phases, run one by one, are its meaning. A command is a list of
phases, each engine step leaves less of it to do, and what is left of the command after the step is the rest of its
meaning. -/

namespace Sys2Proof.Machine

/-! ### A command as a list of phases -/

/-- Phases in their order, from the one the sequencer is in. -/
def runPhases : List (Phase × (State → Result)) → State → Result
  | [], s => .next s
  | (ph, f) :: l, s => andThen (inPhase ph f s) (runPhases l)

/-- The phases of DECRYPT after its start (R40, R210). -/
def decryptPhases : List (Phase × (State → Result)) :=
  [(.parse, parsePhase), (.checkCap, decryptCap), (.lookup, lookupPhase), (.derive, derivePhase), (.setup, setupPhase),
    (.stream, streamPhase)]

/-- The phases of DIRECT_COPY after its start (R40, R217). -/
def copyPhases : List (Phase × (State → Result)) := [(.checkCap, copyCap), (.copy, copyPhase)]

/-- The phases of the command an opcode of `OwnPhase` selects. -/
def phasesOf (op : Word) : List (Phase × (State → Result)) := if op = 0x00000001 then decryptPhases else copyPhases

theorem execDecrypt_eq_runPhases {s : State} (h : s.eng.phase ≠ .idle) : execDecrypt s = runPhases decryptPhases s := by
  rw [execDecrypt_eq, inPhase_neg h]
  simp only [andThen_next, decryptPhases, runPhases, andThen_next_right]
  rfl

theorem execDirectCopy_eq_runPhases {s : State} (h : s.eng.phase ≠ .idle) : execDirectCopy s = runPhases copyPhases s := by
  unfold execDirectCopy
  rw [inPhase_neg h]
  simp only [andThen_next, copyPhases, runPhases, andThen_next_right]

/-- Two continuations that agree on what the first part establishes. -/
theorem andThen_congr {P : State → Prop} {o : Result} {f g : State → Result} (h : Sat P o) (hfg : ∀ s, P s → f s = g s) :
    andThen o f = andThen o g := by
  cases o with
  | next s => exact hfg s (h s rfl)
  | fault r => rfl
  | refused r => rfl

/-- Phases the sequencer is past, or has not reached, are passed by. -/
theorem runPhases_skip {l₁ : List (Phase × (State → Result))} (l₂ : List (Phase × (State → Result))) {s : State}
    (h : s.eng.phase ∉ l₁.map Prod.fst) : runPhases (l₁ ++ l₂) s = runPhases l₂ s := by
  induction l₁ with
  | nil => rfl
  | cons a l ih =>
    obtain ⟨hne, hnot⟩ : s.eng.phase ≠ a.1 ∧ s.eng.phase ∉ l.map Prod.fst := by simpa using h
    show andThen (inPhase a.1 a.2 s) (runPhases (l ++ l₂)) = _
    rw [inPhase_neg hne, andThen_next, ih hnot]

theorem runPhases_none {l : List (Phase × (State → Result))} {s : State} (h : s.eng.phase ∉ l.map Prod.fst) :
    runPhases l s = .next s := by
  have := runPhases_skip [] h
  rwa [List.append_nil] at this

/-- The phase the sequencer is in, then the rest: after it no phase up to it runs again. -/
theorem runPhases_at {l₁ l₂ : List (Phase × (State → Result))} {ph : Phase} {f : State → Result} {s : State}
    (hs : s.eng.phase = ph) (h₁ : ph ∉ l₁.map Prod.fst)
    (hf : Sat (fun t => t.eng.phase ∉ (l₁ ++ [(ph, f)]).map Prod.fst) (f s)) :
    runPhases (l₁ ++ (ph, f) :: l₂) s = andThen (f s) (runPhases (l₁ ++ (ph, f) :: l₂)) := by
  rw [runPhases_skip _ (by rwa [hs])]
  show andThen (inPhase ph f s) (runPhases l₂) = _
  rw [inPhase_pos hs]
  refine andThen_congr hf fun t ht => ?_
  rw [List.append_cons, runPhases_skip _ ht]

/-- A move leads to its phase or to IDLE. -/
theorem State.Moved.phase {ph : Phase} {s t : State} (h : s.Moved ph t) : t.eng.phase = ph ∨ t.eng.phase = .idle :=
  h.goes.imp (fun hg => hg.phase) fun he => he.phase

/-! ### The fields of the header -/

/-- The field behind a field of the header (R100, R130). -/
def nextField : FrameField → Option FrameField
  | .kis => some .ivs
  | .ivs => some .marker
  | .marker => none

/-- How many fields of the header are still to be decoded. -/
def fieldsLeft : Option FrameField → Nat
  | some .kis => 3
  | some .ivs => 2
  | some .marker => 1
  | none => 0

theorem fieldsLeft_nextField (f : FrameField) : fieldsLeft (nextField f) + 1 = fieldsLeft (some f) := by cases f <;> rfl

theorem fieldsLeft_le (f : Option FrameField) : fieldsLeft f ≤ 3 := by
  cases f with
  | none => decide
  | some f => cases f <;> decide

theorem fieldsLeft_eq_zero {f : Option FrameField} (h : fieldsLeft f ≤ 0) : f = none := by
  cases f with
  | none => rfl
  | some f =>
    rw [← fieldsLeft_nextField] at h
    omega

/-- A command that ends is not in PARSE any more. -/
theorem raiseStatus_left_parse {P : State → Prop} (c : StatusCode) (s : State) :
    Sat (fun t => t.eng.phase = .parse → P t) (raiseStatus c s) :=
  sat_next.2 fun h => nomatch h

/-- A header byte that PARSE accepts leads to the next field. -/
theorem headerByte_field {f : FrameField} {b : Byte} {s : State} (h : s.eng.phase = .parse) :
    Sat (fun t => t.eng.phase = .parse → t.eng.field = nextField f) (headerByte f b s) := by
  have hsetup : s.eng.phase ≠ .setup := by rw [h]; decide
  cases f with
  | kis =>
    by_cases hb : b = 0x00 ∨ b = 0x08
    · rw [headerByte_kis hb]
      rcases Nat.lt_or_ge (s.eng.p + 1 + b.toNat) s.n with hn | hn
      · rw [takeKeyId_ok hn]; exact sat_next.2 fun _ => rfl
      · rw [takeKeyId_short hn]; exact raiseStatus_left_parse _ _
    · rw [headerByte_kis_other (not_or.1 hb)]; exact raiseStatus_left_parse _ _
  | ivs =>
    by_cases hb : b = 0x04 ∨ b = 0x08
    · rw [headerByte_ivs hb]
      rcases Nat.lt_or_ge (s.eng.p + 1 + b.toNat) s.n with hn | hn
      · rw [takeIv_ok hn]; exact sat_next.2 fun _ => rfl
      · rw [takeIv_short hn]; exact raiseStatus_left_parse _ _
    · rw [headerByte_ivs_other (not_or.1 hb)]; exact raiseStatus_left_parse _ _
  | marker =>
    by_cases hb : b = 0x53 ∨ b = 0x41
    · rw [headerByte_marker hb hsetup]; exact sat_next.2 fun _ => rfl
    · rw [headerByte_marker_other (not_or.1 hb) hsetup]; exact raiseStatus_left_parse _ _

theorem parseField_field {s : State} {f : FrameField} (h : s.eng.phase = .parse) (hf : s.eng.field = some f) :
    Sat (fun t => t.eng.phase = .parse → t.eng.field = nextField f) (parseField s) := by
  rcases Nat.lt_or_ge s.eng.p s.n with hp | hp
  · rw [parseField_some hf hp]; exact headerByte_field h
  · rw [parseField_short hf hp]; exact raiseStatus_left_parse _ _

/-- A turn of PARSE's loop leaves one field less. -/
theorem parseTurn_fieldsLeft {k : Nat} {s : State} (h : s.eng.phase = .parse → fieldsLeft s.eng.field ≤ k + 1) :
    Sat (fun t => t.eng.phase = .parse → fieldsLeft t.eng.field ≤ k) (inPhase .parse parseField s) := by
  refine Sat.inPhase (fun hp => ?_) fun hp hp' => absurd hp' hp
  cases hf : s.eng.field with
  | none =>
    rw [parseField_none hf]
    exact sat_next.2 fun _ => by rw [hf]; exact Nat.zero_le k
  | some f =>
    have hle := h hp
    rw [hf, ← fieldsLeft_nextField] at hle
    exact (parseField_field hp hf).mono fun t ht htp => by rw [ht htp]; omega

/-- PARSE's loop body, `k` times. -/
def parseTimes : Nat → State → Result
  | 0, s => .next s
  | k + 1, s => andThen (inPhase .parse parseField s) (parseTimes k)

theorem parseFields_eq_parseTimes (s : State) : parseFields s = parseTimes 3 s := by
  simp only [parseFields, parseTimes, andThen_next_right]

/-- Once every field is decoded PARSE has nothing left to do. -/
theorem parseTimes_succ : ∀ (k : Nat) (s : State), (s.eng.phase = .parse → fieldsLeft s.eng.field ≤ k) →
    parseTimes (k + 1) s = parseTimes k s := by
  intro k
  induction k with
  | zero =>
    intro s hk
    show andThen (inPhase .parse parseField s) .next = .next s
    rw [andThen_next_right]
    by_cases hp : s.eng.phase = .parse
    · rw [inPhase_pos hp]
      exact parseField_none (fieldsLeft_eq_zero (hk hp))
    · exact inPhase_neg hp
  | succ k ih =>
    exact fun s hk => andThen_congr (parseTurn_fieldsLeft hk) ih

/-- PARSE's loop decodes every field of the header, or ends the command. -/
theorem parseFields_complete (s : State) :
    Sat (fun t => t.eng.phase = .parse → t.eng.field = none) (parseFields s) :=
  (parseTurn_fieldsLeft fun _ => fieldsLeft_le s.eng.field).andThen fun _ h₁ =>
    (parseTurn_fieldsLeft h₁).andThen fun _ h₂ =>
      (parseTurn_fieldsLeft h₂).mono fun _ ht hp => fieldsLeft_eq_zero (ht hp)

/-- PARSE is the next field and then PARSE. -/
theorem parsePhase_eq_parseField {s : State} {f : FrameField} (h : s.eng.phase = .parse) (hf : s.eng.field = some f) :
    parsePhase s = andThen (parseField s) (inPhase .parse parsePhase) := by
  unfold parsePhase
  rw [parseFields_eq_parseTimes, parseTimes, inPhase_pos h, andThen_assoc]
  refine andThen_congr (parseField_field h hf) fun t ht => ?_
  by_cases hp : t.eng.phase = .parse
  · have hle : fieldsLeft t.eng.field ≤ 2 := by
      have := fieldsLeft_nextField f
      have := fieldsLeft_le (some f)
      rw [ht hp]
      omega
    rw [inPhase_pos hp, parseFields_eq_parseTimes, parseTimes_succ 2 t fun _ => hle]
  · rw [inPhase_neg hp]
    have hskip : ∀ k, parseTimes k t = .next t := by
      intro k
      induction k with
      | zero => rfl
      | succ k ih => rw [parseTimes, inPhase_neg hp, andThen_next, ih]
    rw [hskip 2, andThen_next, inPhase_neg hp]

/-- PARSE of a complete header goes on to CHECK_CAP. -/
theorem parsePhase_complete {s : State} (h : s.eng.phase = .parse) (hf : s.eng.field = none) :
    parsePhase s = .next (s.modEng fun e => { e with phase := .checkCap }) := by
  unfold parsePhase parseFields
  simp only [inPhase_pos h, parseField_none hf, andThen_next]

/-! ### One engine step, and the rest -/

/-- The selected engine runs a command, in a phase of its own. -/
abbrev State.Runs (s : State) : Prop := s.eng.busy = true ∧ OwnPhase s.eng.op s.eng.phase

/-- In PARSE what is left of a DECRYPT is one field, or the way to CHECK_CAP, and what is left after it. -/
theorem runPhases_parse {s : State} (hp : s.eng.phase = .parse) :
    runPhases decryptPhases s = andThen (phaseStep s) (runPhases decryptPhases) := by
  rw [phaseStep, hp]
  cases hf : s.eng.field with
  | none =>
    have hcap : Sat (fun t => t.eng.phase ≠ .parse) (parsePhase s) := (parsePhase_moved hp).mono fun t ht => by
      rcases ht.phase with he | he <;> rw [he] <;> decide
    simp only [if_true]
    rw [← parsePhase_complete hp hf]
    exact runPhases_at (l₁ := []) (l₂ := decryptPhases.tail) hp (by decide) (hcap.mono fun t ht => by simpa using ht)
  | some f =>
    simp only [reduceCtorEq, if_false]
    show andThen (inPhase .parse parsePhase s) (runPhases decryptPhases.tail) = _
    rw [inPhase_pos hp, parsePhase_eq_parseField hp hf, andThen_assoc]
    rfl

/-- What is left of a running command is one engine step and what is left after it. -/
theorem runPhases_engineStep {s : State} (h : s.Runs) :
    runPhases (phasesOf s.eng.op) s = andThen (engineStep s) (runPhases (phasesOf s.eng.op)) := by
  obtain ⟨hb, hidle, hown⟩ := h
  rw [engineStep_busy hb]
  rcases hown with ⟨hop, hcopy⟩ | ⟨hop, hph⟩
  · rw [phasesOf, if_pos hop]
    have moved : ∀ {ph : Phase} {l : List Phase}, ph ∉ l → Phase.idle ∉ l → ∀ {o}, Sat (s.Moved ph) o →
        Sat (fun t => t.eng.phase ∉ l) o := fun hph hi _ ho => ho.mono fun t ht => by
      rcases ht.phase with he | he <;> rwa [he]
    cases hp : s.eng.phase with
    | idle => exact absurd hp hidle
    | copy => exact absurd hp hcopy
    | parse => exact runPhases_parse hp
    | checkCap =>
      rw [phaseStep, hp]
      simp only [hop, if_true]
      exact runPhases_at (l₁ := decryptPhases.take 1) (l₂ := decryptPhases.drop 2) hp (by decide)
        (moved (by decide) (by decide) (decryptCap_moved s))
    | lookup =>
      rw [phaseStep, hp]
      exact runPhases_at (l₁ := decryptPhases.take 2) (l₂ := decryptPhases.drop 3) hp (by decide)
        (moved (by decide) (by decide) (lookupPhase_moved s))
    | derive =>
      rw [phaseStep, hp]
      exact runPhases_at (l₁ := decryptPhases.take 3) (l₂ := decryptPhases.drop 4) hp (by decide)
        (moved (by decide) (by decide) (derivePhase_moved s))
    | setup =>
      rw [phaseStep, hp]
      exact runPhases_at (l₁ := decryptPhases.take 4) (l₂ := decryptPhases.drop 5) hp (by decide)
        (moved (by decide) (by decide) (setupPhase_moved hp))
    | stream =>
      rw [phaseStep, hp]
      exact runPhases_at (l₁ := decryptPhases.take 5) (l₂ := []) hp (by decide)
        ((streamPhase_finishes s).mono fun t ht => by rw [ht.ends.phase]; decide)
  · have hop1 : s.eng.op ≠ 0x00000001 := by rw [hop]; decide
    rw [phasesOf, if_neg hop1]
    rcases hph with hp | hp
    · rw [phaseStep, hp]
      simp only [hop1, if_false]
      exact runPhases_at (l₁ := []) (l₂ := copyPhases.tail) hp (by decide) ((copyCap_moved s).mono fun t ht => by
        rcases ht.phase with he | he <;> rw [he] <;> decide)
    · rw [phaseStep, hp]
      exact runPhases_at (l₁ := copyPhases.take 1) (l₂ := []) hp (by decide)
        ((copyPhase_finishes s).mono fun t ht => by rw [ht.ends.phase]; decide)

/-! ### How many steps are left -/

/-- A bound on the engine steps a command takes from where it is: one a field in PARSE and one to leave it, one a
phase. -/
def Engine.stepsLeft (e : Engine) : Nat :=
  match e.phase with
  | .idle => 0
  | .parse => 6 + fieldsLeft e.field
  | .checkCap => if e.op = 0x00000001 then 5 else 2
  | .lookup => 4
  | .derive => 3
  | .setup => 2
  | .stream => 1
  | .copy => 1

/-- The selected engine's command has ended. -/
abbrev State.Ended (s : State) : Prop := s.eng.busy = false ∧ s.eng.phase = .idle

/-- The command still runs, with fewer steps left, or it has ended. -/
abbrev State.Progresses (s t : State) : Prop :=
  (t.Runs ∨ t.Ended) ∧ t.eng.op = s.eng.op ∧ t.eng.stepsLeft < s.eng.stepsLeft

theorem stepsLeft_ended {e : Engine} (h : e.phase = .idle) : e.stepsLeft = 0 := by simp only [Engine.stepsLeft, h]

theorem stepsLeft_pos {e : Engine} (h : e.phase ≠ .idle) : 0 < e.stepsLeft := by
  unfold Engine.stepsLeft
  split
  · contradiction
  · omega
  · split <;> decide
  all_goals decide

/-- A move to a phase of its own with fewer steps left, or to the end. -/
theorem State.Moved.progress {s t : State} {ph : Phase} (hb : s.eng.busy = true) (hph : OwnPhase s.eng.op ph)
    (hp : s.eng.phase ≠ .idle) (m : s.Moved ph t) (hlt : t.eng.op = s.eng.op → t.eng.phase = ph → t.eng.stepsLeft < s.eng.stepsLeft) :
    s.Progresses t := by
  rcases m.goes with ⟨⟨-, -, gb, -⟩, gop, gph⟩ | ⟨-, gop, gb, -, gph, -⟩
  · exact ⟨.inl ⟨gb.trans hb, by rw [gop, gph]; exact hph⟩, gop, hlt gop gph⟩
  · exact ⟨.inr ⟨gb, gph⟩, gop, by rw [stepsLeft_ended gph]; exact stepsLeft_pos hp⟩

theorem State.Finishes.progress {s t : State} (hp : s.eng.phase ≠ .idle) (m : s.Finishes t) :
    s.Progresses t := by
  obtain ⟨-, gop, gb, -, gph, -⟩ := m.ends
  exact ⟨.inr ⟨gb, gph⟩, gop, by rw [stepsLeft_ended gph]; exact stepsLeft_pos hp⟩

theorem engineStep_progress {s : State} (h : s.Runs) :
    Sat s.Progresses (engineStep s) := by
  obtain ⟨hb, hown⟩ := h
  have moves : ∀ {ph o}, OwnPhase s.eng.op ph → Sat (s.Moved ph) o →
      (∀ e : Engine, e.op = s.eng.op → e.phase = ph → e.stepsLeft < s.eng.stepsLeft) →
      Sat s.Progresses o :=
    fun hph ho hlt => ho.mono fun t ht => ht.progress hb hph hown.1 (hlt t.eng)
  have fin : ∀ {o}, Sat s.Finishes o →
      Sat s.Progresses o :=
    fun ho => ho.mono fun t ht => ht.progress hown.1
  rw [engineStep_busy hb]
  cases hp : s.eng.phase with
  | idle => exact absurd hp hown.1
  | parse =>
    have hop : s.eng.op = 0x00000001 := (hown.2.resolve_right (by simp [hp])).1
    rw [phaseStep, hp]
    cases hf : s.eng.field with
    | none =>
      refine moves (ph := .checkCap) (hown.of_decrypt (.inl (by simp [hp])) (by decide))
        (sat_next.2 (moved_modEng ⟨sameVisible_refl s.eng, rfl, rfl⟩)) fun e he hph => ?_
      simp [Engine.stepsLeft, fieldsLeft, he, hph, hp, hf, hop]
    | some f =>
      intro t ht
      refine (parseField_moved hp t ht).progress hb (by rwa [hp] at hown) hown.1 fun _ htp => ?_
      have hfield := parseField_field hp hf t ht htp
      have := fieldsLeft_nextField f
      simp only [Engine.stepsLeft, htp, hp, hfield, hf]
      omega
  | checkCap =>
    rw [phaseStep, hp]
    dsimp only
    split
    next h1 =>
      refine moves (hown.of_decrypt (.inr h1) (by decide)) (decryptCap_moved s) fun e _ hph => ?_
      simp [Engine.stepsLeft, hph, hp, h1]
    next h1 =>
      refine moves (.copy_of_checkCap h1 (by rwa [hp] at hown)) (copyCap_moved s) fun e _ hph => ?_
      simp only [Engine.stepsLeft, hph, hp, if_neg h1]
      decide
  | lookup =>
    rw [phaseStep, hp]
    refine moves (hown.of_decrypt (.inl (by simp [hp])) (by decide)) (lookupPhase_moved s) fun e _ hph => ?_
    simp [Engine.stepsLeft, hph, hp]
  | derive =>
    rw [phaseStep, hp]
    refine moves (hown.of_decrypt (.inl (by simp [hp])) (by decide)) (derivePhase_moved s) fun e _ hph => ?_
    simp [Engine.stepsLeft, hph, hp]
  | setup =>
    rw [phaseStep, hp]
    refine moves (hown.of_decrypt (.inl (by simp [hp])) (by decide)) (setupPhase_moved hp) fun e _ hph => ?_
    simp [Engine.stepsLeft, hph, hp]
  | stream => rw [phaseStep, hp]; exact fin (streamPhase_finishes s)
  | copy => rw [phaseStep, hp]; exact fin (copyPhase_finishes s)

theorem idle_not_mem_phasesOf (op : Word) : Phase.idle ∉ (phasesOf op).map Prod.fst := by
  unfold phasesOf
  split
  · simp [decryptPhases]
  · simp [copyPhases]

/-- Engine steps enough for what is left of a command come to what is left of its meaning. -/
theorem engineSteps_eq_runPhases : ∀ (n : Nat) (s : State), s.Runs ∨ s.Ended → s.eng.stepsLeft ≤ n →
    engineSteps n s = runPhases (phasesOf s.eng.op) s := by
  have ended : ∀ {s : State}, s.Ended → runPhases (phasesOf s.eng.op) s = .next s := fun h =>
    runPhases_none (by rw [h.2]; exact idle_not_mem_phasesOf _)
  intro n
  induction n with
  | zero =>
    rintro s (h | h) hn
    · exact absurd (stepsLeft_pos h.2.1) (by omega)
    · rw [ended h]; rfl
  | succ n ih =>
    rintro s (h | h) hn
    · rw [runPhases_engineStep h, engineSteps]
      refine andThen_congr (engineStep_progress h) fun t ⟨ht, hop, hlt⟩ => ?_
      rw [ih t ht (by omega), hop]
    · rw [engineSteps, engineStep_notBusy h.1, andThen_next]
      exact ih s (.inr h) (by rw [stepsLeft_ended h.2]; exact Nat.zero_le n)

/-- Nine engine steps are enough for a DECRYPT, from whichever phase of its own. -/
theorem engineSteps_decrypt {s : State} (hb : s.eng.busy = true) (hop : s.eng.op = 0x00000001) (hidle : s.eng.phase ≠ .idle)
    (hcopy : s.eng.phase ≠ .copy) : engineSteps 9 s = exec .decrypt s := by
  have hle : s.eng.stepsLeft ≤ 9 := by
    have := fieldsLeft_le s.eng.field
    unfold Engine.stepsLeft
    split
    · omega
    · omega
    · split <;> omega
    all_goals omega
  rw [engineSteps_eq_runPhases 9 s (.inl ⟨hb, hidle, .inl ⟨hop, hcopy⟩⟩) hle, phasesOf, if_pos hop]
  exact (execDecrypt_eq_runPhases hidle).symm

/-- Two engine steps are enough for a DIRECT_COPY. -/
theorem engineSteps_directCopy {s : State} (hb : s.eng.busy = true) (hop : s.eng.op = 0x00000002)
    (hph : s.eng.phase = .checkCap ∨ s.eng.phase = .copy) : engineSteps 2 s = exec .directCopy s := by
  have hidle : s.eng.phase ≠ .idle := by rcases hph with hp | hp <;> rw [hp] <;> decide
  have hop1 : s.eng.op ≠ 0x00000001 := by rw [hop]; decide
  have hle : s.eng.stepsLeft ≤ 2 := by
    rcases hph with hp | hp
    · simp [Engine.stepsLeft, hp, hop]
    · simp [Engine.stepsLeft, hp]
  rw [engineSteps_eq_runPhases 2 s (.inl ⟨hb, hidle, .inr ⟨hop, hph⟩⟩) hle, phasesOf, if_neg hop1]
  exact (execDirectCopy_eq_runPhases hidle).symm

/-- Settles O46: the steps left of a command (`Engine.stepsLeft`) are at most nine and two, and what they run is the list
of its phases. -/
theorem engineStepsAreTheCommand : Obligations.EngineStepsAreTheCommand := by
  unfold Obligations.EngineStepsAreTheCommand
  exact ⟨fun _ => engineSteps_decrypt, fun _ => engineSteps_directCopy⟩

end Sys2Proof.Machine
end

section
/-! SUPPORT. The machine's invariant (`State.Inv`) along every step, what every step leaves of the parameters and of the
number of engines, and the state after reset. -/

namespace Sys2Proof.Machine

/-! ### Parameters and engines -/

/-- The parameters and the number of engines are as before (R8, R273). -/
abbrev State.SameMachine (s t : State) : Prop := t.cfg = s.cfg ∧ t.engines.length = s.engines.length

theorem State.SameMachine.trans {s t u : State} (h : s.SameMachine t) (g : t.SameMachine u) : s.SameMachine u :=
  ⟨g.1.trans h.1, g.2.trans h.2⟩

theorem length_engines (s : State) : s.engines.length = s.left.length + 1 + s.right.length := by
  simp [State.engines]
  omega

theorem sameMachine_of_around {s t : State} (h : s.SameAround t) : s.SameMachine t := by
  obtain ⟨hc, hl, hr, -⟩ := h
  exact ⟨hc, by rw [length_engines, length_engines, hl, hr]⟩

/-- No instruction but a register read changes anything around the selected engine. -/
theorem exec_around {i : Instr} (h : ∀ size off, i ≠ .regRead size off) (s : State) : Sat s.SameAround (exec i s) := by
  by_cases hw : writesMore i = false
  · exact (exec_still hw s).mono fun _ ht => ht.around
  cases i with
  | decrypt => exact (execDecrypt_stillOrSuccess s).mono fun _ ht => ht.elim State.Still.around And.left
  | directCopy => exact (execDirectCopy_stillOrSuccess s).mono fun _ ht => ht.elim State.Still.around And.left
  | xorStream => exact (execXorStream_streamed s).mono fun _ ht => ht.around
  | regRead size off => exact absurd rfl (h size off)
  | regWrite size off v =>
    refine (execRegWrite_sat size off v s).mono fun t ht => ?_
    rcases ht with rfl | ⟨-, rfl | ⟨-, -, rfl⟩⟩
    · exact sameAround_refl _
    · exact sameAround_refl s
    · exact sameAround_refl s
  | _ => exact absurd rfl hw

theorem exec_sameMachine (i : Instr) (s : State) : Sat s.SameMachine (exec i s) := by
  by_cases h : ∃ size off, i = .regRead size off
  · obtain ⟨size, off, rfl⟩ := h
    exact (execRegRead_sat size off s).mono fun t ht => by rw [ht]; exact ⟨rfl, rfl⟩
  · push Not at h
    exact (exec_around h s).mono fun _ ht => sameMachine_of_around ht

theorem selectEngine_sameMachine (k : Nat) (s : State) : Sat s.SameMachine (selectEngine k s) :=
  (selectEngine_sat k s).mono fun t ⟨he, _, ht⟩ => ⟨by rw [ht], by rw [he]⟩

theorem enginesRun_sameMachine (s : State) : Sat s.SameMachine (enginesRun s) := by
  unfold enginesRun
  split
  · exact exec_sameMachine _ s
  split
  · exact (selectEngine_sameMachine _ s).andThen fun u hu =>
      ((exec_sameMachine _ u).andThen fun v hv => (selectEngine_sameMachine _ v).mono fun _ ht => hv.trans ht).mono
        fun _ ht => hu.trans ht
  · exact sat_next.2 ⟨rfl, rfl⟩

theorem phaseStep_sameMachine (s : State) : Sat s.SameMachine (phaseStep s) := by
  by_cases hp : s.eng.phase = .idle
  · simp only [phaseStep, hp]
    exact exec_sameMachine _ s
  · refine (phaseStep_sat hp).mono fun t ht => ?_
    rcases ht with ⟨_, -, hm⟩ | hf
    · exact sameMachine_of_around hm.around
    · exact sameMachine_of_around hf.around

theorem hostReset_sameMachine (s : State) : Sat s.SameMachine (hostReset s) := by
  refine (hostReset_sat s).mono ?_
  rintro _ ⟨u, hu, rfl⟩
  refine ⟨by rw [hu.eq]; rfl, ?_⟩
  rw [engines_resetEngines, List.length_map, hu.eq]
  rfl

theorem engineStep_sameMachine (s : State) : Sat s.SameMachine (engineStep s) := by
  cases hb : s.eng.busy with
  | false => rw [engineStep_notBusy hb]; exact sat_next.2 ⟨rfl, rfl⟩
  | true => rw [engineStep_busy hb]; exact phaseStep_sameMachine s

theorem hostStep_sameMachine (ev : HostEvent) (s : State) : Sat s.SameMachine (hostStep ev s) := by
  cases ev with
  | access a =>
    rw [hostStep_access]
    split
    · exact exec_sameMachine (.regWrite ..) s
    · exact exec_sameMachine (.regRead ..) s
  | wait =>
    unfold hostStep
    dsimp only
    split
    · exact sat_next.2 ⟨rfl, rfl⟩
    · exact enginesRun_sameMachine _
  | memWrite a b => exact (hostWrite_sat a b s).mono fun t ⟨_, ht⟩ => by rw [ht]; exact ⟨rfl, rfl⟩
  | memRead a => exact (hostRead_sat a s).mono fun t ht => by rw [ht]; exact ⟨rfl, rfl⟩
  | reset => exact hostReset_sameMachine s
  | select k => exact selectEngine_sameMachine k s
  | engineTurn => exact engineStep_sameMachine s

/-- Settles O43, event by event. -/
theorem keyRomConstant : Obligations.KeyRomConstant := by
  unfold Obligations.KeyRomConstant
  intro s t ht
  unfold step at ht
  split at ht
  next ev rest _ => exact hostStep_sameMachine ev { s with script := rest } t ht
  · exact enginesRun_sameMachine s t ht

/-! ### The invariant of one engine -/

theorem onDevice_congr {e e' : Engine} (c : Config) (h : e'.SameOperands e) (hl : e'.outLen = e.outLen) :
    e'.onDevice c = e.onDevice c := by
  obtain ⟨h1, h2, h3, -⟩ := h
  unfold Engine.onDevice
  rw [h1, h2, h3, hl]

theorem inv_reset (c : Config) : Engine.reset.Inv c := by
  simp [Engine.Inv, Engine.reset, size_pos]

/-- A running command is in one of its own phases and not in the fatal state (R40, R247). -/
theorem Engine.Inv.running {c : Config} {e : Engine} (h : e.Inv c) (hb : e.busy = true) :
    OwnPhase e.op e.phase ∧ e.fatal = false := by
  obtain ⟨hph, -, -, -, -, hf, hop, -⟩ := h
  refine ⟨⟨fun hi => ?_, hop hb⟩, ?_⟩
  · rw [hph.1 hi] at hb
    cases hb
  · cases he : e.fatal with
    | false => rfl
    | true =>
      rw [(hf he).1] at hb
      cases hb

theorem Engine.Inv.busy_of_phase {c : Config} {e : Engine} (h : e.Inv c) (hp : e.phase ≠ .idle) : e.busy = true := by
  cases hb : e.busy with
  | true => rfl
  | false =>
    obtain ⟨hph, -⟩ := h
    exact absurd (hph.2 hb) hp

/-- A running command that goes on in a phase of its own keeps the invariant. -/
theorem Engine.Inv.goes {c : Config} {ph : Phase} {e e' : Engine} (h : e.Inv c) (hb : e.busy = true)
    (hph : OwnPhase e.op ph) (g : e.GoesTo ph e') : e'.Inv c := by
  obtain ⟨-, hbd, hcode, hin, hout, hfatal, -, hdev⟩ := h
  obtain ⟨⟨ho, hlen, gb, gd, gf, gc⟩, gop, gph⟩ := g
  have gdev := onDevice_congr c ho hlen
  obtain ⟨gin, -, gout, -⟩ := ho
  rw [Engine.Inv, gb, gd, gf, gc, gop, gph, gin, gout, gdev]
  exact ⟨by simp [hph.1, hb], hbd, hcode, hin, hout, hfatal, fun _ => hph.2, hdev⟩

/-- The end of a command outside the fatal state keeps the invariant, and so does the entry into it (R244, R247). -/
theorem Engine.Inv.ends {c : Config} {e e' : Engine} (hin : e.inAddr.toNat < c.size) (hout : e.outAddr.toNat < c.size)
    (hf : e.fatal = false) (g : e.Ends e') : e'.Inv c := by
  obtain ⟨⟨gin, -, gout, -⟩, -, gb, gd, gph, gs⟩ := g
  rw [Engine.Inv, gb, gd, gph, gin, gout]
  refine ⟨by simp, by simp, ?_, hin, hout, ?_, by simp, by simp⟩
  · rcases gs with ⟨-, hc⟩ | ⟨-, hc⟩
    · exact hc
    · simp [hc]
  · intro he
    rcases gs with ⟨hfe, -⟩ | ⟨-, hc⟩
    · rw [hfe, hf] at he
      cases he
    · exact ⟨rfl, rfl, hc⟩

/-- A register write of an idle engine keeps the invariant: the address registers take ADDR_W bits (R29, R221). -/
theorem Engine.Inv.writeReg {c : Config} {e : Engine} (h : e.Inv c) (hb : e.busy = false) (off : Nat) (v : Word) :
    (Engine.writeReg c off v e).Inv c := by
  have haddr : (addrBits c v).toNat < c.size := by
    rw [addrBits, BitVec.toNat_ofNat]
    exact lt_of_le_of_lt (Nat.mod_le _ _) (Nat.mod_lt _ (size_pos c))
  obtain ⟨h1, h2, h3, hin, hout, h6, h7, -⟩ := h
  have hdev : ∀ b : Bool, e.busy = true → b = false := fun _ hbt => by rw [hb] at hbt; cases hbt
  unfold Engine.writeReg
  split
  · exact ⟨h1, h2, h3, haddr, hout, h6, h7, hdev _⟩
  · exact ⟨h1, h2, h3, hin, hout, h6, h7, hdev _⟩
  · exact ⟨h1, h2, h3, hin, haddr, h6, h7, hdev _⟩
  · exact ⟨h1, h2, h3, hin, hout, h6, h7, hdev _⟩
  · exact ⟨h1, h2, h3, hin, hout, h6, h7, hdev _⟩
  · exact ⟨h1, h2, h3, hin, hout, h6, h7, hdev _⟩

/-- An accepted command has the invariant from its first phase on, ILLEGAL_CMD at its end (R218, R219). -/
theorem Engine.Inv.started {c : Config} {e : Engine} (h : e.Inv c) (hf : e.fatal = false) {v : Word}
    (hd : v = 0x00000001 ∨ v = 0x00000002 → e.onDevice c = false) : (e.started v).Inv c := by
  obtain ⟨-, -, hcode, hin, hout, -, -, -⟩ := h
  have hnf : e.fatal = true → False := fun he => by rw [hf] at he; cases he
  unfold Engine.started
  split
  next h1 =>
    exact ⟨by simp, by simp, hcode, hin, hout, fun he => (hnf he).elim, by simp, fun _ => hd (.inl h1)⟩
  split
  next h2 =>
    exact ⟨by simp, by simp, hcode, hin, hout, fun he => (hnf he).elim, by simp, fun _ => hd (.inr h2)⟩
  · exact Engine.Inv.ends (e := Engine.accepted v e) hin hout hf (ends_ended ..)

/-! ### The invariant of the machine -/

theorem State.inv_iff {s : State} : s.Inv ↔ s.cfg.Ok ∧ s.MemOk ∧ ∀ e ∈ s.engines, e.Inv s.cfg :=
  ⟨fun ⟨hc, hw, hb, he⟩ => ⟨hc, ⟨hw, hb⟩, he⟩, fun ⟨hc, ⟨hw, hb⟩, he⟩ => ⟨hc, hw, hb, he⟩⟩

theorem State.Inv.memOk {s : State} (h : s.Inv) : s.MemOk := (State.inv_iff.1 h).2.1

theorem State.mem_engines_self (s : State) : s.eng ∈ s.engines := by simp [State.engines]

theorem State.Inv.eng {s : State} (h : s.Inv) : s.eng.Inv s.cfg := (State.inv_iff.1 h).2.2 _ s.mem_engines_self

/-- A change of the selected engine and of memory. -/
theorem State.Inv.around {s t : State} (h : s.Inv) (ha : s.SameAround t) (hm : t.MemOk) (he : t.eng.Inv s.cfg) : t.Inv := by
  obtain ⟨hcfg, -, hall⟩ := State.inv_iff.1 h
  obtain ⟨hc, hl, hr, -⟩ := ha
  rw [State.inv_iff, hc]
  refine ⟨hcfg, hm, fun e hmem => ?_⟩
  rw [State.engines, hl, hr] at hmem
  rcases List.mem_append.1 hmem with h' | h'
  · exact hall e (List.mem_append_left _ h')
  · rcases List.mem_cons.1 h' with rfl | h'
    · exact he
    · exact hall e (List.mem_append_right _ (List.mem_cons_of_mem _ h'))

/-- A move of a running command. -/
theorem State.Inv.moved {s t : State} {ph : Phase} (h : s.Inv) (hb : s.eng.busy = true) (hph : OwnPhase s.eng.op ph)
    (m : s.Moved ph t) : t.Inv := by
  obtain ⟨-, -, -, hin, hout, -, -, -⟩ := h.eng
  refine h.around m.around ?_ ?_
  · rw [State.MemOk, m.mem, m.around.1]
    exact h.memOk
  · rcases m.goes with hg | he
    · exact h.eng.goes hb hph hg
    · exact .ends hin hout (h.eng.running hb).2 he

/-- The last phase of a running command. -/
theorem State.Inv.finishes {s t : State} (h : s.Inv) (hb : s.eng.busy = true) (m : s.Finishes t) : t.Inv := by
  obtain ⟨-, -, -, hin, hout, -, -, -⟩ := h.eng
  exact h.around m.around (m.mem h.memOk) (.ends hin hout (h.eng.running hb).2 m.ends)

/-! ### The steps of the engine -/

theorem phaseStep_inv {s : State} (h : s.Inv) (hb : s.eng.busy = true) : Sat State.Inv (phaseStep s) := by
  have hown := (h.eng.running hb).1
  refine (phaseStep_sat hown.1).mono fun t ht => ?_
  rcases ht with ⟨ph, hph, hm⟩ | hf
  · exact h.moved hb (hph hown) hm
  · exact h.finishes hb hf

theorem engineStep_inv {s : State} (h : s.Inv) : Sat State.Inv (engineStep s) := by
  cases hb : s.eng.busy with
  | false => rw [engineStep_notBusy hb]; exact sat_next.2 h
  | true => rw [engineStep_busy hb]; exact phaseStep_inv h hb

theorem engineSteps_inv (n : Nat) : ∀ {s : State}, s.Inv → Sat State.Inv (engineSteps n s) := by
  induction n with
  | zero => exact fun h => sat_next.2 h
  | succ n ih => exact fun h => (engineStep_inv h).andThen fun _ ht => ih ht

/-- A command run to its end is so many engine steps. -/
theorem engineRun_inv {s : State} (h : s.Inv) (hb : s.eng.busy = true) : Sat State.Inv (engineRun s) := by
  obtain ⟨⟨hidle, hown⟩, -⟩ := h.eng.running hb
  unfold engineRun
  rcases hown with ⟨hop, hcopy⟩ | ⟨hop, hph⟩
  · rw [hop, show decodeCmd 0x00000001 = .decrypt from rfl, ← engineSteps_decrypt hb hop hidle hcopy]
    exact engineSteps_inv 9 h
  · rw [hop, show decodeCmd 0x00000002 = .directCopy from rfl, ← engineSteps_directCopy hb hop hph]
    exact engineSteps_inv 2 h

theorem selectEngine_inv (k : Nat) {s : State} (h : s.Inv) :
    Sat (fun t => t.Inv ∧ s.engines[k]? = some t.eng) (selectEngine k s) := by
  refine (selectEngine_sat k s).mono fun t ⟨hall, hk, ht⟩ => ⟨?_, hk⟩
  have hc : t.cfg = s.cfg := by rw [ht]
  have hm : t.mem = s.mem := by rw [ht]
  rw [State.inv_iff, State.MemOk, hall, hc, hm]
  exact State.inv_iff.1 h

theorem enginesRun_inv {s : State} (h : s.Inv) : Sat State.Inv (enginesRun s) := by
  unfold enginesRun
  split
  next hb => exact engineRun_inv h hb
  split
  next k hk =>
    obtain ⟨e, he, heb⟩ := busy_of_firstBusy hk
    refine (selectEngine_inv k h).andThen fun u ⟨hu, huk⟩ => ?_
    have hub : u.eng.busy = true := by
      rw [Option.some.inj (huk.symm.trans he)]
      exact heb
    exact (engineRun_inv hu hub).andThen fun v hv => (selectEngine_inv _ hv).mono fun _ ht => ht.1
  · exact sat_next.2 h

/-! ### The steps of the host -/

theorem execRegWrite_inv (size off : Nat) (v : Word) {s : State} (h : s.Inv) : Sat State.Inv (execRegWrite size off v s) := by
  refine (execRegWrite_sat size off v s).mono fun t ht => ?_
  rcases ht with rfl | ⟨hb, rfl | ⟨hf, hd, rfl⟩⟩
  · exact h
  · exact h.around (sameAround_refl s) h.memOk (h.eng.writeReg hb off v)
  · exact h.around (sameAround_refl s) h.memOk (h.eng.started hf hd)

theorem hostWrite_inv (a : Nat) (b : Byte) {s : State} (h : s.Inv) : Sat State.Inv (hostWrite a b s) := by
  refine (hostWrite_sat a b s).mono ?_
  rintro _ ⟨ha, rfl⟩
  exact h.around (sameAround_refl s) ⟨h.memOk.1.write a b, h.memOk.2.write ha b⟩ h.eng

theorem hostReset_inv {s : State} (h : s.Inv) : Sat State.Inv (hostReset s) := by
  refine (hostReset_sat s).mono ?_
  rintro _ ⟨u, hu, rfl⟩
  have hc : u.cfg = s.cfg := by rw [hu.eq]
  rw [State.inv_iff, engines_resetEngines]
  refine ⟨?_, hu.mem h.memOk, fun e he => ?_⟩
  · show u.cfg.Ok
    rw [hc]
    exact (State.inv_iff.1 h).1
  · obtain ⟨o, -, rfl⟩ := List.mem_map.1 he
    exact inv_reset _

theorem hostStep_inv (ev : HostEvent) {s : State} (h : s.Inv) : Sat State.Inv (hostStep ev s) := by
  cases ev with
  | access a =>
    rw [hostStep_access]
    split
    · exact execRegWrite_inv _ _ _ h
    · refine (execRegRead_sat _ _ s).mono ?_
      rintro _ rfl
      exact h
  | wait =>
    unfold hostStep
    dsimp only
    split
    · exact sat_next.2 h
    · exact enginesRun_inv h
  | memWrite a b => exact hostWrite_inv a b h
  | memRead a => exact (hostRead_sat a s).mono fun t ht => by rw [ht]; exact h
  | reset => exact hostReset_inv h
  | select k => exact (selectEngine_inv k h).mono fun _ ht => ht.1
  | engineTurn => exact engineStep_inv h

/-- Settles O40: each event of the host keeps the invariant, and so does the engines' turn. -/
theorem stepKeepsInvariant : Obligations.StepKeepsInvariant := by
  unfold Obligations.StepKeepsInvariant
  intro s t h ht
  unfold step at ht
  split at ht
  next ev rest _ => exact hostStep_inv ev (s := { s with script := rest }) h t ht
  · exact enginesRun_inv h t ht

end Sys2Proof.Machine
end

section
/-! SUPPORT. The register window's refusals (R22) and the state after reset (R46, R8). -/

namespace Sys2Proof.Machine

/-! ### Which register accesses are refused -/

/-- `o` is no refusal. -/
def Answered (o : Result) : Prop := ∀ r, o ≠ .refused r

theorem Answered.next (s : State) : Answered (.next s) := fun _ h => nomatch h

theorem Answered.fault (r : Fault) : Answered (.fault r) := fun _ h => nomatch h

theorem Answered.andThen {o : Result} {f : State → Result} (ho : Answered o) (hf : ∀ s, Answered (f s)) :
    Answered (andThen o f) := by
  cases o with
  | next s => exact hf s
  | fault r => exact .fault r
  | refused r => exact absurd rfl (ho r)

theorem checkBuffers_answered {f : State → Result} (hf : ∀ s, Answered (f s)) (s : State) : Answered (checkBuffers f s) := by
  unfold checkBuffers
  split
  · exact .fault _
  · exact hf s

theorem startCommand_answered (v : Word) (s : State) : Answered (startCommand v s) := by
  unfold startCommand
  split
  · exact checkBuffers_answered (fun _ => .next _) s
  split
  · exact checkBuffers_answered (fun _ => .next _) s
  · exact .next _

theorem checkShared_answered (s : State) : Answered (checkShared s) := by
  unfold checkShared
  split
  · exact .fault _
  · exact .next s

/-- A write to CMD is never refused: it is ignored, or starts a command, or faults (R219, R220, R258). -/
theorem writeCmd_answered (v : Word) (s : State) : Answered (writeCmd v s) := by
  unfold writeCmd
  split
  · exact .next s
  · exact (startCommand_answered v _).andThen checkShared_answered

theorem execRegWrite_refused_iff (size off : Nat) (v : Word) (s : State) :
    execRegWrite size off v s = .refused .badAccess ↔ ¬ (size = 4 ∧ offsetOk off) := by
  unfold execRegWrite
  split
  next hbad => exact iff_of_true rfl (by tauto)
  next hok =>
    refine iff_of_false ?_ (by tauto)
    split
    · exact writeCmd_answered v s _
    split
    · exact Answered.next _ _
    · exact Answered.next _ _

theorem execRegRead_refused_iff (size off : Nat) (s : State) :
    execRegRead size off s = .refused .badAccess ↔ ¬ (size = 4 ∧ offsetOk off) := by
  unfold execRegRead
  split
  next hbad => exact iff_of_true rfl (by tauto)
  next hok => exact iff_of_false (Answered.next _ _) (by tauto)

/-- Settles O7: by the refusals of the two register instructions, which the access event shares (`hostStep_access`). -/
theorem registerAccessRefused : Obligations.RegisterAccessRefused := by
  unfold Obligations.RegisterAccessRefused
  intro size off v s
  refine ⟨execRegWrite_refused_iff size off v s, execRegRead_refused_iff size off s, fun w rest hs => ?_⟩
  have hstep : step s = hostStep (.access ⟨w, size, off, v⟩) { s with script := rest } := by
    unfold step
    rw [hs]
  rw [hstep, hostStep_access]
  cases w with
  | true => exact execRegWrite_refused_iff size off v _
  | false => exact execRegRead_refused_iff size off _

/-! ### The key table after reset -/

/-- Entries without the keyId 0 before the sentinel are all live (R44, R122). -/
theorem liveEntries_append_sentinel {l : List KeyEntry} (h : ∀ e ∈ l, e.keyId ≠ 0) (key : Vector Byte 16) :
    liveEntries (l ++ [⟨0, key⟩]) = l := by
  induction l with
  | nil => rfl
  | cons e es ih =>
    rw [List.cons_append, liveEntries, if_neg (h e (List.mem_cons_self ..)), ih fun o ho => h o (List.mem_cons_of_mem _ ho)]

theorem liveOnly_keyId_ne_zero (l : List KeyEntry) : ∀ e ∈ liveOnly l, e.keyId ≠ 0 := by
  induction l with
  | nil => simp [liveOnly]
  | cons e es ih =>
    intro o ho
    unfold liveOnly at ho
    split at ho
    · exact ih o ho
    next h0 =>
      rcases List.mem_cons.1 ho with rfl | ho
      · exact h0
      · exact ih o (List.mem_of_mem_filter ho)

theorem liveOnly_pairwise (l : List KeyEntry) : (liveOnly l).Pairwise fun a b => a.keyId ≠ b.keyId := by
  induction l with
  | nil => exact List.Pairwise.nil
  | cons e es ih =>
    unfold liveOnly
    split
    · exact ih
    · refine List.pairwise_cons.2 ⟨fun o ho => ?_, ih.filter _⟩
      have hne : (o.keyId != e.keyId) = true := (List.mem_filter.1 ho).2
      exact fun he => (bne_iff_ne.1 hne) he.symm

/-- R8's constraint holds of the real table whatever its open entries are. -/
theorem keyTableOk_realKeyTable : keyTableOk realKeyTable := by
  have hlive : liveEntries realKeyTable = liveOnly (⟨knownKeyId, Config.knownKey⟩ :: Config.otherEntries) :=
    liveEntries_append_sentinel (liveOnly_keyId_ne_zero _) _
  rw [keyTableOk, hlive]
  exact ⟨by simp [realKeyTable], liveOnly_pairwise _⟩

/-- Settles O41. -/
theorem resetHasInvariant : Obligations.ResetHasInvariant := by
  unfold Obligations.ResetHasInvariant
  have hcfg : State.reset.cfg.Ok := ⟨by decide, by decide, keyTableOk_realKeyTable⟩
  have hmem : State.reset.MemOk := ⟨Memory.wf_nil, fun _ hc => nomatch hc⟩
  refine State.inv_iff.2 ⟨hcfg, hmem, fun e he => ?_⟩
  rw [List.mem_singleton.1 he]
  exact inv_reset _

/-! ### The registers after reset -/

theorem readReg_reset (off : Nat) : Engine.reset.readReg off = 0 := by
  unfold Engine.readReg
  split
  · decide
  all_goals rfl

/-- Settles O50. -/
theorem resetState : Obligations.ResetState := by
  unfold Obligations.ResetState
  refine ⟨fun w off h4 hoff => ?_, rfl, rfl⟩
  show execRegRead 4 off _ = _
  unfold execRegRead
  rw [if_neg (by simp [offsetOk, h4, hoff])]
  show Host.Outcome.next { State.reset with rdata := Engine.reset.readReg off } = _
  rw [readReg_reset]

end Sys2Proof.Machine
end

section
/-! SUPPORT. Two runs of one command side by side (R41, R225, R274): from states in which the host sees the same, and
which agree on the internal registers the command has written so far and still reads, every phase gives such states
again, or the same fault. -/

namespace Sys2Proof.Machine

/-! ### Outcomes side by side -/

/-- Two outcomes are next states related by `R`, or the same stop. -/
inductive Alike (R : State → State → Prop) : Result → Result → Prop
  | next {s u : State} (h : R s u) : Alike R (.next s) (.next u)
  | fault (r : Fault) : Alike R (.fault r) (.fault r)
  | refused (r : Refusal) : Alike R (.refused r) (.refused r)

theorem Alike.andThen {R Q : State → State → Prop} {o o' : Result} {f g : State → Result} (h : Alike R o o')
    (hf : ∀ s u, R s u → Alike Q (f s) (g u)) : Alike Q (andThen o f) (andThen o' g) := by
  cases h with
  | next h => exact hf _ _ h
  | fault r => exact .fault r
  | refused r => exact .refused r

/-- What the first outcome is known to satisfy. -/
theorem Alike.and_sat {R : State → State → Prop} {P : State → Prop} {o o' : Result} (h : Alike R o o') (hP : Sat P o) :
    Alike (fun s u => R s u ∧ P s) o o' := by
  cases h with
  | next h => exact .next ⟨h, sat_next.1 hP⟩
  | fault r => exact .fault r
  | refused r => exact .refused r

/-- The host sees the same: parameters, memory, host-visible registers; and the sequencers are in the same phase. -/
structure State.Seen (s u : State) : Prop where
  cfg : s.cfg = u.cfg
  mem : s.mem = u.mem
  visible : s.eng.SameVisible u.eng
  phase : s.eng.phase = u.eng.phase

theorem Engine.SameVisible.symm {a b : Engine} (h : a.SameVisible b) : b.SameVisible a := by
  obtain ⟨⟨h1, h2, h3, h4⟩, h5, h6, h7, h8, h9⟩ := h
  exact ⟨⟨h1.symm, h2.symm, h3.symm, h4.symm⟩, h5.symm, h6.symm, h7.symm, h8.symm, h9.symm⟩

theorem Alike.inPhase {R : State → State → Prop} {ph : Phase} {f : State → Result} {s u : State} (h : R s u)
    (hseen : s.Seen u) (hf : s.eng.phase = ph → Alike R (f s) (f u)) : Alike R (inPhase ph f s) (inPhase ph f u) := by
  by_cases hp : s.eng.phase = ph
  · rw [inPhase_pos hp, inPhase_pos (hseen.phase ▸ hp)]
    exact hf hp
  · rw [inPhase_neg hp, inPhase_neg (hseen.phase ▸ hp)]
    exact .next h

section
variable {s u : State} (h : s.Seen u)
include h

theorem State.Seen.n : s.n = u.n := by
  obtain ⟨⟨-, hlen, -⟩, -⟩ := h.visible
  exact congrArg BitVec.toNat hlen

theorem State.Seen.cap : s.cap = u.cap := by
  obtain ⟨-, hcap, -⟩ := h.visible
  exact congrArg BitVec.toNat hcap

theorem State.Seen.plen (hp : s.eng.poff = u.eng.poff) : s.plen = u.plen := by rw [State.plen, State.plen, h.n, hp]

theorem State.Seen.inByte (i : Nat) : s.inByte i = u.inByte i := by
  obtain ⟨⟨hin, -⟩, -⟩ := h.visible
  rw [State.inByte, State.inByte, h.cfg, h.mem, hin]

theorem State.Seen.outAt (i : Nat) : s.outAt i = u.outAt i := by
  obtain ⟨⟨-, -, hout, -⟩, -⟩ := h.visible
  rw [State.outAt, State.outAt, h.cfg, hout]

theorem State.Seen.contractBroken (len : Nat) : contractBroken len s = contractBroken len u := by
  obtain ⟨⟨hin, hlen, hout, -⟩, -⟩ := h.visible
  exact contractBroken_congr h.cfg hout hin hlen

theorem State.Seen.outByte (i : Nat) {v w : Byte} (hv : v = w) : (s.outByte i v).Seen (u.outByte i w) :=
  ⟨h.cfg, by rw [State.outByte_mem, State.outByte_mem, h.outAt, h.mem, hv], h.visible, h.phase⟩

/-- Internal registers are not seen (R23). -/
theorem State.Seen.modEng {f g : Engine → Engine} (hf : s.eng.GoesTo s.eng.phase (f s.eng))
    (hg : u.eng.GoesTo u.eng.phase (g u.eng)) : (s.modEng f).Seen (u.modEng g) :=
  ⟨h.cfg, h.mem, (Engine.SameVisible.trans hf.visible h.visible).trans (Engine.SameVisible.symm hg.visible),
    hf.phase.trans (h.phase.trans hg.phase.symm)⟩

theorem State.Seen.ended (c : StatusCode) : (s.modEng (Engine.ended c)).Seen (u.modEng (Engine.ended c)) := by
  obtain ⟨hoperands, hcap, -, -, hfatal, -⟩ := h.visible
  exact ⟨h.cfg, h.mem, ⟨hoperands, hcap, rfl, rfl, hfatal, rfl⟩, rfl⟩

theorem State.Seen.goTo (ph : Phase) :
    (s.modEng fun e => { e with phase := ph }).Seen (u.modEng fun e => { e with phase := ph }) :=
  ⟨h.cfg, h.mem, h.visible, rfl⟩

theorem checkContract_alike {R : State → State → Prop} {f : State → Result} {len len' : Nat} (hlen : len = len')
    (hf : Alike R (f s) (f u)) : Alike R (checkContract len f s) (checkContract len' f u) := by
  subst hlen
  cases hc : Machine.contractBroken len u with
  | none => rwa [checkContract_ok hc, checkContract_ok (h.contractBroken len ▸ hc)]
  | some v =>
    rw [checkContract_broken hc, checkContract_broken (h.contractBroken len ▸ hc)]
    exact .fault _

theorem checkBuffers_alike {R : State → State → Prop} {f : State → Result} (hf : Alike R (f s) (f u)) :
    Alike R (checkBuffers f s) (checkBuffers f u) := by
  have hd : s.eng.onDevice s.cfg = u.eng.onDevice u.cfg := by
    obtain ⟨hoperands, hcap, -⟩ := h.visible
    rw [h.cfg, onDevice_congr u.cfg hoperands hcap]
  unfold checkBuffers
  rw [hd]
  split
  · exact .fault _
  · exact hf

end

/-! ### DIRECT_COPY -/

theorem copyBytes_seen {s u : State} (h : s.Seen u) (m : Nat) : (copyBytes m s).Seen (copyBytes m u) := by
  induction m with
  | zero => exact h
  | succ m ih => exact ih.outByte m (ih.inByte m)

theorem finishSuccess_seen {s u : State} (h : s.Seen u) {len len' : Nat} (hlen : len = len') :
    Alike State.Seen (finishSuccess len s) (finishSuccess len' u) := by
  subst hlen
  obtain ⟨hoperands, -, -, -, hfatal, -⟩ := h.visible
  exact .next ⟨h.cfg, h.mem, ⟨hoperands, rfl, rfl, rfl, hfatal, rfl⟩, rfl⟩

theorem copyCap_seen {s u : State} (h : s.Seen u) : Alike State.Seen (copyCap s) (copyCap u) := by
  have hfits : s.cap + 1 < s.n ↔ u.cap + 1 < u.n := by rw [h.cap, h.n]
  by_cases hlong : s.cap + 1 < s.n
  · rw [copyCap_long hlong, copyCap_long (hfits.1 hlong)]
    exact .next (h.ended _)
  · unfold copyCap
    rw [if_neg hlong, if_neg fun hu => hlong (hfits.2 hu)]
    exact checkContract_alike h h.n (.next (h.goTo .copy))

theorem copyStart_seen {s u : State} (h : s.Seen u) : Alike State.Seen (copyStart s) (copyStart u) :=
  checkBuffers_alike h (.next (h.goTo .checkCap))

theorem copyPhase_seen {s u : State} (h : s.Seen u) : Alike State.Seen (copyPhase s) (copyPhase u) := by
  unfold copyPhase
  rw [h.n]
  exact finishSuccess_seen (copyBytes_seen h _) rfl

/-- DIRECT_COPY reads host-visible registers only (R217). -/
theorem execDirectCopy_seen {s u : State} (h : s.Seen u) : Alike State.Seen (execDirectCopy s) (execDirectCopy u) :=
  (Alike.inPhase h h fun _ => copyStart_seen h).andThen fun _ _ h₁ =>
    (Alike.inPhase h₁ h₁ fun _ => copyCap_seen h₁).andThen fun _ _ h₂ =>
      Alike.inPhase h₂ h₂ fun _ => copyPhase_seen h₂

/-! ### DECRYPT: the internal registers that are still read -/

/-- The registers of a complete header that later phases read (R35). -/
abbrev Engine.SameHeader (a b : Engine) : Prop :=
  a.keyId = b.keyId ∧ a.baseIv = b.baseIv ∧ a.marker = b.marker ∧ a.poff = b.poff

/-- The registers of the fields before `f` that later phases read. -/
def Engine.SameBefore (f : Option FrameField) (a b : Engine) : Prop :=
  match f with
  | some .kis => True
  | some .ivs => a.keyId = b.keyId
  | some .marker => a.keyId = b.keyId ∧ a.baseIv = b.baseIv
  | none => a.SameHeader b

/-- The internal registers a DECRYPT has written when it is in a phase, and reads in that phase or later. -/
def Engine.SameLive (a b : Engine) : Prop :=
  match a.phase with
  | .idle => True
  | .parse => a.field = b.field ∧ a.p = b.p ∧ a.SameBefore a.field b
  | .checkCap => a.SameHeader b
  | .lookup => a.SameHeader b
  | .derive => a.SameHeader b ∧ a.key = b.key
  | .setup => a.SameHeader b ∧ a.key = b.key ∧ a.eiv = b.eiv
  | .stream => a.x = b.x ∧ a.poff = b.poff
  | .copy => True

theorem sameLive_parse {a b : Engine} (h : a.phase = .parse) :
    a.SameLive b ↔ a.field = b.field ∧ a.p = b.p ∧ a.SameBefore a.field b := by
  rw [Engine.SameLive, h]

/-- Two states a DECRYPT goes on from alike. -/
structure State.SameRun (s u : State) : Prop extends s.Seen u where
  live : s.eng.SameLive u.eng

/-- In phase `ph` the live registers are the ones of `ph`. -/
theorem State.SameRun.live_in {s u : State} (h : s.SameRun u) {ph : Phase} (hp : s.eng.phase = ph) :
    { s.eng with phase := ph }.SameLive u.eng := by
  subst hp
  exact h.live

theorem State.Seen.raise {s u : State} (h : s.Seen u) (c : StatusCode) :
    Alike State.SameRun (raiseStatus c s) (raiseStatus c u) := .next ⟨h.ended c, trivial⟩

/-- The end of a command after internal registers have been written. -/
theorem State.Seen.raise_modEng {s u : State} (h : s.Seen u) {c : StatusCode} {f : Engine → Engine}
    (hf : ∀ e : Engine, e.GoesTo e.phase (f e)) :
    Alike State.SameRun (raiseStatus c (s.modEng f)) (raiseStatus c (u.modEng f)) :=
  (h.modEng (hf _) (hf _)).raise c

theorem takeKeyId_alike {s u : State} (h : s.Seen u) (hph : s.eng.phase = .parse) (hp : s.eng.p = u.eng.p) (k : Byte) :
    Alike State.SameRun (takeKeyId k s) (takeKeyId k u) := by
  have hn : s.eng.p + 1 + k.toNat < s.n ↔ u.eng.p + 1 + k.toNat < u.n := by rw [hp, h.n]
  by_cases hs : s.eng.p + 1 + k.toNat < s.n
  · rw [takeKeyId_ok hs, takeKeyId_ok (hn.1 hs)]
    refine .next ⟨⟨h.cfg, h.mem, h.visible, h.phase⟩, ?_⟩
    refine (sameLive_parse (by exact hph)).2 ⟨rfl, by rw [hp], ?_⟩
    simp only [Engine.SameBefore, hp, h.inByte]
  · rw [takeKeyId_short (Nat.not_lt.1 hs), takeKeyId_short (Nat.not_lt.1 fun hu => hs (hn.2 hu))]
    exact h.raise_modEng fun e => ⟨sameVisible_refl e, rfl, rfl⟩

theorem takeIv_alike {s u : State} (h : s.Seen u) (hph : s.eng.phase = .parse) (hp : s.eng.p = u.eng.p)
    (hid : s.eng.keyId = u.eng.keyId) (v : Byte) : Alike State.SameRun (takeIv v s) (takeIv v u) := by
  have hn : s.eng.p + 1 + v.toNat < s.n ↔ u.eng.p + 1 + v.toNat < u.n := by rw [hp, h.n]
  by_cases hs : s.eng.p + 1 + v.toNat < s.n
  · rw [takeIv_ok hs, takeIv_ok (hn.1 hs)]
    refine .next ⟨⟨h.cfg, h.mem, h.visible, h.phase⟩, ?_⟩
    refine (sameLive_parse (by exact hph)).2 ⟨rfl, by rw [hp], hid, ?_⟩
    simp only [hp, h.inByte]
  · rw [takeIv_short (Nat.not_lt.1 hs), takeIv_short (Nat.not_lt.1 fun hu => hs (hn.2 hu))]
    exact h.raise_modEng fun e => ⟨sameVisible_refl e, rfl, rfl⟩

theorem takeMarker_alike {s u : State} (h : s.Seen u) (hph : s.eng.phase = .parse) (hp : s.eng.p = u.eng.p)
    (hid : s.eng.keyId = u.eng.keyId ∧ s.eng.baseIv = u.eng.baseIv) (m : Byte) :
    Alike State.SameRun (takeMarker m s) (takeMarker m u) := by
  refine .next ⟨⟨h.cfg, h.mem, h.visible, h.phase⟩, ?_⟩
  have hp1 : s.eng.p + 1 = u.eng.p + 1 := by rw [hp]
  exact (sameLive_parse (by exact hph)).2 ⟨rfl, hp1, hid.1, hid.2, rfl, hp1⟩

theorem headerByte_alike {s u : State} (h : s.Seen u) (hph : s.eng.phase = .parse) (hp : s.eng.p = u.eng.p) {f : FrameField}
    (hf : s.eng.SameBefore (some f) u.eng) (b : Byte) : Alike State.SameRun (headerByte f b s) (headerByte f b u) := by
  have hs : s.eng.phase ≠ .setup := by rw [hph]; decide
  have hu : u.eng.phase ≠ .setup := by rwa [← h.phase]
  cases f with
  | kis =>
    by_cases hb : b = 0x00 ∨ b = 0x08
    · rw [headerByte_kis hb, headerByte_kis hb]
      exact takeKeyId_alike h hph hp b
    · rw [headerByte_kis_other (not_or.1 hb), headerByte_kis_other (not_or.1 hb)]
      exact h.raise_modEng fun e => ⟨sameVisible_refl e, rfl, rfl⟩
  | ivs =>
    by_cases hb : b = 0x04 ∨ b = 0x08
    · rw [headerByte_ivs hb, headerByte_ivs hb]
      exact takeIv_alike h hph hp hf b
    · rw [headerByte_ivs_other (not_or.1 hb), headerByte_ivs_other (not_or.1 hb)]
      exact h.raise_modEng fun e => ⟨sameVisible_refl e, rfl, rfl⟩
  | marker =>
    by_cases hb : b = 0x53 ∨ b = 0x41
    · rw [headerByte_marker hb hs, headerByte_marker hb hu]
      exact takeMarker_alike h hph hp hf b
    · rw [headerByte_marker_other (not_or.1 hb) hs, headerByte_marker_other (not_or.1 hb) hu]
      exact h.raise_modEng fun e => ⟨sameVisible_refl e, rfl, rfl⟩

theorem parseField_alike {s u : State} (h : s.SameRun u) (hph : s.eng.phase = .parse) :
    Alike State.SameRun (parseField s) (parseField u) := by
  obtain ⟨hfield, hp, hbefore⟩ : s.eng.field = u.eng.field ∧ s.eng.p = u.eng.p ∧ s.eng.SameBefore s.eng.field u.eng :=
    h.live_in hph
  cases hf : s.eng.field with
  | none =>
    rw [parseField_none hf, parseField_none (hfield ▸ hf)]
    exact .next h
  | some f =>
    have hfu : u.eng.field = some f := hfield ▸ hf
    have hn : s.eng.p < s.n ↔ u.eng.p < u.n := by rw [hp, h.n]
    by_cases hs : s.eng.p < s.n
    · rw [parseField_some hf hs, parseField_some hfu (hn.1 hs), h.inByte, hp]
      exact headerByte_alike h.toSeen hph hp (hf ▸ hbefore) _
    · rw [parseField_short hf (Nat.not_lt.1 hs), parseField_short hfu (Nat.not_lt.1 fun hu => hs (hn.2 hu))]
      exact h.toSeen.raise _

theorem parseFields_alike {s u : State} (h : s.SameRun u) : Alike State.SameRun (parseFields s) (parseFields u) :=
  (Alike.inPhase h h.toSeen (parseField_alike h)).andThen fun _ _ h₁ =>
    (Alike.inPhase h₁ h₁.toSeen (parseField_alike h₁)).andThen fun _ _ h₂ => Alike.inPhase h₂ h₂.toSeen (parseField_alike h₂)

theorem parsePhase_alike {s u : State} (h : s.SameRun u) : Alike State.SameRun (parsePhase s) (parsePhase u) := by
  refine ((parseFields_alike h).and_sat (parseFields_complete s)).andThen fun s' u' ⟨h', hdone⟩ =>
    Alike.inPhase h' h'.toSeen fun hp => .next ⟨h'.toSeen.goTo .checkCap, ?_⟩
  obtain ⟨-, -, hbefore⟩ := (sameLive_parse hp).1 h'.live
  rw [hdone hp] at hbefore
  exact hbefore

/-! ### DECRYPT: the other phases -/

theorem decryptStart_alike {s u : State} (h : s.Seen u) : Alike State.SameRun (decryptStart s) (decryptStart u) :=
  checkBuffers_alike h (.next ⟨⟨h.cfg, h.mem, h.visible, rfl⟩, rfl, rfl, trivial⟩)

theorem decryptCap_alike {s u : State} (h : s.SameRun u) (hp : s.eng.phase = .checkCap) :
    Alike State.SameRun (decryptCap s) (decryptCap u) := by
  have hlive : s.eng.SameHeader u.eng := h.live_in hp
  have ⟨_, _, _, hpoff⟩ := hlive
  have hfits : s.cap < s.plen ↔ u.cap < u.plen := by rw [h.cap, h.plen hpoff]
  by_cases hlong : s.cap < s.plen
  · rw [decryptCap_long hlong, decryptCap_long (hfits.1 hlong)]
    exact h.toSeen.raise _
  · rw [decryptCap_fits (Nat.not_lt.1 hlong), decryptCap_fits (Nat.not_lt.1 fun hu => hlong (hfits.2 hu))]
    exact .next ⟨h.toSeen.goTo .lookup, hlive⟩

/-- Phase LOOKUP when the key is found, as one next state (R213). -/
theorem lookupPhase_found {s : State} {k : Vector Byte 16} (h : lookupKey s.cfg.keyTable s.eng.keyId = some k) :
    lookupPhase s = .next (s.modEng fun e => { e with key := k, hit := true, phase := .derive }) := by
  rw [lookupPhase, execLookup_found h]
  rfl

/-- Phase LOOKUP when it is not (R213). -/
theorem lookupPhase_notFound {s : State} (h : lookupKey s.cfg.keyTable s.eng.keyId = none) :
    lookupPhase s = raiseStatus .fileEncrypted (s.modEng fun e => { e with hit := false }) := by
  rw [lookupPhase, execLookup_notFound h]
  rfl

theorem lookupPhase_alike {s u : State} (h : s.SameRun u) (hp : s.eng.phase = .lookup) :
    Alike State.SameRun (lookupPhase s) (lookupPhase u) := by
  have hlive : s.eng.SameHeader u.eng := h.live_in hp
  have hkey : lookupKey s.cfg.keyTable s.eng.keyId = lookupKey u.cfg.keyTable u.eng.keyId := by rw [h.cfg, hlive.1]
  cases hk : lookupKey u.cfg.keyTable u.eng.keyId with
  | none =>
    rw [lookupPhase_notFound (hkey.trans hk), lookupPhase_notFound hk]
    exact h.toSeen.raise_modEng fun e => ⟨sameVisible_refl e, rfl, rfl⟩
  | some k =>
    rw [lookupPhase_found (hkey.trans hk), lookupPhase_found hk]
    exact .next ⟨⟨h.cfg, h.mem, h.visible, rfl⟩, hlive, rfl⟩

/-- Phase DERIVE as one next state. -/
theorem derivePhase_eq (s : State) :
    derivePhase s = .next (s.modEng fun e => { e with eiv := mixIv e.baseIv e.frameIndex, phase := .setup }) := rfl

theorem derivePhase_alike {s u : State} (h : s.SameRun u) (hp : s.eng.phase = .derive) :
    Alike State.SameRun (derivePhase s) (derivePhase u) := by
  obtain ⟨⟨hid, hbase, hmark, hpoff⟩, hkey⟩ : s.eng.SameHeader u.eng ∧ s.eng.key = u.eng.key := h.live_in hp
  obtain ⟨⟨-, -, -, hindex⟩, -⟩ := h.visible
  have hiv : mixIv s.eng.baseIv s.eng.frameIndex = mixIv u.eng.baseIv u.eng.frameIndex := by rw [hbase, hindex]
  rw [derivePhase_eq, derivePhase_eq]
  exact .next ⟨⟨h.cfg, h.mem, h.visible, rfl⟩, ⟨hid, hbase, hmark, hpoff⟩, hkey, hiv⟩

/-- The dispatch on MARKER (R215). -/
theorem setupPhase_eq {s : State} (h : s.eng.phase = .setup) :
    setupPhase s = if s.eng.marker = 0x53 then dispatchSalsa s else raiseFatal s := by
  unfold setupPhase headerByte execFrameMarkerS execFrameMarkerA execFrameMarkerOther
  simp only [h, if_true, ite_self]

theorem setupPhase_alike {s u : State} (h : s.SameRun u) (hp : s.eng.phase = .setup) :
    Alike State.SameRun (setupPhase s) (setupPhase u) := by
  obtain ⟨⟨-, -, hmark, hpoff⟩, hkey, heiv⟩ :
    s.eng.SameHeader u.eng ∧ s.eng.key = u.eng.key ∧ s.eng.eiv = u.eng.eiv := h.live_in hp
  rw [setupPhase_eq hp, setupPhase_eq (h.phase ▸ hp), hmark]
  split
  · have hx : keyMatrix s.eng.key.toList s.eng.eiv.toList = keyMatrix u.eng.key.toList u.eng.eiv.toList := by
      rw [hkey, heiv]
    exact checkContract_alike h.toSeen (h.plen hpoff) (.next ⟨⟨h.cfg, h.mem, h.visible, rfl⟩, hx, hpoff⟩)
  · obtain ⟨hoperands, hcap, -⟩ := h.visible
    exact .next ⟨⟨h.cfg, h.mem, ⟨hoperands, hcap, rfl, rfl, rfl, rfl⟩, rfl⟩, trivial⟩

/-! ### XOR_STREAM -/

/-- What XOR_STREAM reads between two turns is the same (R180). -/
structure State.SameStream (s u : State) : Prop extends s.Seen u where
  x : s.eng.x = u.eng.x
  pos : s.eng.pos = u.eng.pos
  poff : s.eng.poff = u.eng.poff

theorem xorBytes_seen {s u : State} (h : s.Seen u) (hpos : s.eng.pos = u.eng.pos) (hks : s.eng.ks = u.eng.ks)
    (src dst m : Nat) : (xorBytes src dst m s).Seen (xorBytes src dst m u) := by
  induction m with
  | zero => exact h
  | succ m ih =>
    simp only [xorBytes, xorBytes_eng, hpos]
    exact ih.outByte _ (by rw [ih.inByte, hks])

/-- The registers after a turn of XOR_STREAM (R180). -/
theorem xorTurn_eng (src dst len : Nat) (s : State) :
    (xorTurn src dst len s).eng
      = (Engine.blockStep s.eng).turnDone (min 64 (len - s.eng.pos)) := by
  rw [xorTurn_eq, State.modEng_eng, xorBytes_eng]
  rfl

theorem xorTurn_sameStream {s u : State} (h : s.SameStream u) (src dst len : Nat) :
    (xorTurn src dst len s).SameStream (xorTurn src dst len u) := by
  have hks : (Engine.blockStep s.eng).ks = (Engine.blockStep u.eng).ks := by
    rw [Engine.blockStep_ks, Engine.blockStep_ks, h.x]
  have hblock : (s.modEng Engine.blockStep).Seen (u.modEng Engine.blockStep) :=
    h.toSeen.modEng ⟨sameVisible_refl s.eng, rfl, rfl⟩ ⟨sameVisible_refl u.eng, rfl, rfl⟩
  have hbytes := xorBytes_seen hblock h.pos hks src dst (min 64 (len - s.eng.pos))
  have hlen : min 64 (len - s.eng.pos) = min 64 (len - u.eng.pos) := by rw [h.pos]
  refine ⟨?_, ?_, ?_, ?_⟩
  · rw [xorTurn_eq _ _ _ s, xorTurn_eq _ _ _ u, ← hlen]
    exact hbytes.modEng (goesTo_turnDone _ _) (goesTo_turnDone _ _)
  · rw [xorTurn_eng, xorTurn_eng]
    exact congrArg counterUp h.x
  · rw [xorTurn_eng, xorTurn_eng, hlen]
    exact congrArg (· + _) h.pos
  · rw [xorTurn_eng, xorTurn_eng]
    exact h.poff

theorem xorLoop_sameStream (src dst len : Nat) : ∀ (k : Nat) {s u : State}, s.SameStream u →
    (xorLoop src dst len k s).SameStream (xorLoop src dst len k u) := by
  intro k
  induction k with
  | zero => exact fun h => h
  | succ k ih =>
    intro s u h
    unfold xorLoop
    rw [h.pos]
    split
    · exact ih (xorTurn_sameStream h src dst len)
    · exact h

theorem streamPhase_alike {s u : State} (h : s.SameRun u) (hp : s.eng.phase = .stream) :
    Alike State.Seen (streamPhase s) (streamPhase u) := by
  obtain ⟨hx, hpoff⟩ : s.eng.x = u.eng.x ∧ s.eng.poff = u.eng.poff := h.live_in hp
  have hstart : (s.modEng fun e => { e with pos := 0 }).SameStream (u.modEng fun e => { e with pos := 0 }) :=
    ⟨⟨h.cfg, h.mem, h.visible, h.phase⟩, hx, rfl, hpoff⟩
  have hdone : (xorStream s.eng.poff 0 s.plen s).SameStream (xorStream u.eng.poff 0 u.plen u) := by
    rw [hpoff, h.plen hpoff]
    exact xorLoop_sameStream _ _ _ _ hstart
  exact finishSuccess_seen hdone.toSeen (hdone.plen hdone.poff)

/-! ### DECRYPT -/

/-- DECRYPT from two states the host sees the same, in phase IDLE or at the first field. -/
theorem execDecrypt_seen {s u : State} (h : s.SameRun u) : Alike State.Seen (execDecrypt s) (execDecrypt u) := by
  rw [execDecrypt_eq, execDecrypt_eq]
  exact (Alike.inPhase h h.toSeen fun _ => decryptStart_alike h.toSeen).andThen fun _ _ h₁ =>
    (Alike.inPhase h₁ h₁.toSeen fun _ => parsePhase_alike h₁).andThen fun _ _ h₂ =>
    (Alike.inPhase h₂ h₂.toSeen fun hp => decryptCap_alike h₂ hp).andThen fun _ _ h₃ =>
    (Alike.inPhase h₃ h₃.toSeen fun hp => lookupPhase_alike h₃ hp).andThen fun _ _ h₄ =>
    (Alike.inPhase h₄ h₄.toSeen fun hp => derivePhase_alike h₄ hp).andThen fun _ _ h₅ =>
    (Alike.inPhase h₅ h₅.toSeen fun hp => setupPhase_alike h₅ hp).andThen fun _ _ h₆ =>
      Alike.inPhase (R := State.Seen) h₆.toSeen h₆.toSeen fun hp => streamPhase_alike h₆ hp

/-- Settles O39: at its start a command has no live internal register, and side by side two runs stay alike. -/
theorem internalRegistersUnseen : Obligations.InternalRegistersUnseen := by
  unfold Obligations.InternalRegistersUnseen
  intro i s u hcfg hmem hvis hstart
  have key : Alike State.Seen (exec i s) (exec i u) := by
    rcases hstart with ⟨hi, hs, hu⟩ | ⟨rfl, ⟨hs, hsp, hsf⟩, hu, hup, huf⟩ | ⟨rfl, hs, hu⟩
    · have h : s.Seen u := ⟨hcfg, hmem, hvis, hs.trans hu.symm⟩
      rcases hi with rfl | rfl | ⟨op, rfl⟩
      · exact execDecrypt_seen ⟨h, by rw [Engine.SameLive, hs]; trivial⟩
      · exact execDirectCopy_seen h
      · exact .next (h.ended _)
    · have hlive : s.eng.SameLive u.eng :=
        (sameLive_parse hs).2 ⟨hsf.trans huf.symm, hsp.trans hup.symm, by rw [hsf]; trivial⟩
      exact execDecrypt_seen ⟨⟨hcfg, hmem, hvis, hs.trans hu.symm⟩, hlive⟩
    · exact execDirectCopy_seen ⟨hcfg, hmem, hvis, hs.trans hu.symm⟩
  refine ⟨fun t ht => ?_, fun f hf => ?_⟩
  · rw [ht] at key
    generalize exec i u = o at key
    cases key with
    | next h => exact ⟨_, rfl, h.mem.symm, Engine.SameVisible.symm h.visible⟩
  · rw [hf] at key
    generalize exec i u = o at key
    cases key with
    | fault r => rfl

end Sys2Proof.Machine
end

section
/-! SUPPORT. Where a command writes memory (20_memory.md R65, R252): its last phase writes the first OUT_LEN output bytes
and ends it with Success, and no other part of it writes any. -/

namespace Sys2Proof.Machine

/-- `o` is a next state, and it satisfies `P`. -/
def Yields (P : State → Prop) (o : Result) : Prop := ∃ t, o = .next t ∧ P t

theorem Yields.next {P : State → Prop} {s : State} (h : P s) : Yields P (.next s) := ⟨s, rfl, h⟩

/-- What a next state is known to satisfy. -/
theorem Yields.and_sat {P Q : State → Prop} {o : Result} (h : Yields P o) (hQ : Sat Q o) :
    Yields (fun t => P t ∧ Q t) o := by
  obtain ⟨t, rfl, ht⟩ := h
  exact .next ⟨ht, sat_next.1 hQ⟩

theorem Yields.sat {P : State → Prop} {o : Result} (h : Yields P o) : Sat P o := by
  obtain ⟨t, rfl, ht⟩ := h
  exact sat_next.2 ht

theorem Yields.andThen {P Q : State → Prop} {o : Result} {f : State → Result} (h : Yields P o)
    (hf : ∀ s, P s → Yields Q (f s)) : Yields Q (andThen o f) := by
  obtain ⟨t, rfl, ht⟩ := h
  exact hf t ht

/-! ### The phases that write memory -/

/-- Of memory only the first `len` output bytes have changed. -/
structure State.OutputOnly (len : Nat) (s t : State) : Prop where
  cfg : t.cfg = s.cfg
  outAddr : t.eng.outAddr = s.eng.outAddr
  wf : t.mem.Wf
  frame : ∀ a, (∀ j, j < len → a ≠ s.outAt j) → t.mem.read a = s.mem.read a

theorem outAt_congr {s t : State} (hc : t.cfg = s.cfg) (ho : t.eng.outAddr = s.eng.outAddr) (j : Nat) :
    t.outAt j = s.outAt j := by rw [State.outAt, State.outAt, hc, ho]

theorem State.OutputOnly.trans {len : Nat} {s t u : State} (h : s.OutputOnly len t) (g : t.OutputOnly len u) :
    s.OutputOnly len u := by
  refine ⟨g.cfg.trans h.cfg, g.outAddr.trans h.outAddr, g.wf, fun a ha => ?_⟩
  have hat : ∀ j, j < len → a ≠ t.outAt j := fun j hj => by
    rw [outAt_congr h.cfg h.outAddr]
    exact ha j hj
  exact (g.frame a hat).trans (h.frame a ha)

theorem xorTurn_outputOnly (src len : Nat) {s : State} (h : s.mem.Wf) : s.OutputOnly len (xorTurn src 0 len s) := by
  obtain ⟨⟨hcfg, -⟩, heng, hwf, hframe, -⟩ := xorTurn_spec src len s h
  exact ⟨hcfg, by rw [heng], hwf, fun a ha => hframe a fun i hi => ha _ (by omega)⟩

theorem xorStream_outputOnly (src len : Nat) {s : State} (h : s.mem.Wf) : s.OutputOnly len (xorStream src 0 len s) :=
  xorLoop_keeps (P := s.OutputOnly len) (fun _ hu => hu.trans (xorTurn_outputOnly src len hu.wf)) _ _
    ⟨rfl, rfl, h, fun _ _ => rfl⟩

theorem xorStream_poff (src dst len : Nat) (s : State) : (xorStream src dst len s).eng.poff = s.eng.poff :=
  xorLoop_keeps (P := fun u => u.eng.poff = s.eng.poff) (fun u hu => by rw [xorTurn_eng]; exact hu) _ _ rfl

theorem xorStream_plen (src dst len : Nat) (s : State) : (xorStream src dst len s).plen = s.plen := by
  obtain ⟨⟨-, hlen, -⟩, -⟩ := (xorStream_streamed src dst len s).goes.visible
  rw [State.plen, State.plen, State.n, State.n, hlen, xorStream_poff]

/-- `t` is `s` with its command ended by Success and the first `len` output bytes written (R216, R217). -/
structure State.Writes (len : Nat) (s t : State) : Prop where
  code : t.eng.code = 0
  done : t.eng.done = true
  outLen : t.eng.outLen.toNat = len
  output : s.mem.Wf → s.OutputOnly len t

theorem toNat_ofNat_of_le_n {len : Nat} {s : State} (h : len ≤ s.n) : (BitVec.ofNat 32 len).toNat = len := by
  have hn : s.n < 2 ^ 32 := s.eng.inLen.isLt
  rw [BitVec.toNat_ofNat]
  exact Nat.mod_eq_of_lt (lt_of_le_of_lt h hn)

/-- Phase STREAM writes plen bytes and ends the command (R216). -/
theorem streamPhase_writes (s : State) : Yields (s.Writes s.plen) (streamPhase s) := by
  refine .next ⟨rfl, rfl, ?_, fun h => ?_⟩
  · show (BitVec.ofNat 32 (xorStream s.eng.poff 0 s.plen s).plen).toNat = s.plen
    rw [xorStream_plen]
    exact toNat_ofNat_of_le_n (Nat.sub_le ..)
  · obtain ⟨hcfg, hout, hwf, hframe⟩ := xorStream_outputOnly s.eng.poff s.plen h
    exact ⟨hcfg, hout, hwf, hframe⟩

/-- Phase COPY writes n bytes and ends the command (R217). -/
theorem copyPhase_writes (s : State) : Yields (s.Writes s.n) (copyPhase s) := by
  refine .next ⟨rfl, rfl, toNat_ofNat_of_le_n (Nat.le_refl s.n), fun h => ?_⟩
  obtain ⟨⟨hcfg, -⟩, heng, hwf, hframe, -⟩ := copyBytes_spec s.n s h
  have hout : (copyBytes s.n s).eng.outAddr = s.eng.outAddr := by rw [heng]
  exact ⟨hcfg, hout, hwf, hframe⟩

/-! ### The commands -/

theorem State.Still.then_writes {len : Nat} {s u t : State} (h : s.Still u) (g : u.Writes len t) : s.Writes len t := by
  obtain ⟨hcfg, -⟩ := h.around
  obtain ⟨-, -, hout, -⟩ := h.operands
  refine ⟨g.code, g.done, g.outLen, fun hwf => ?_⟩
  have hstart : s.OutputOnly len u := ⟨hcfg, hout, h.mem ▸ hwf, fun _ _ => by rw [h.mem]⟩
  exact hstart.trans (g.output hstart.wf)

/-- A command leaves memory still or it has written its output and ended with Success. -/
abbrev State.StillOrWrites (s t : State) : Prop := s.Still t ∨ ∃ len, s.Writes len t

theorem State.Still.then_last {s u : State} (h : s.Still u) {len : Nat} {o : Result} (ho : Yields (u.Writes len) o) :
    Sat s.StillOrWrites o :=
  ho.sat.mono fun _ ht => .inr ⟨len, h.then_writes ht⟩

theorem execDecrypt_stillOrWrites (s : State) : Sat s.StillOrWrites (execDecrypt s) := by
  rw [execDecrypt_eq_stream]
  exact (decrypt_keeps (.refl s) fun hu ht => hu.trans ht.toStill).andThen fun u hu =>
    Sat.inPhase (fun _ => hu.then_last (streamPhase_writes u)) fun _ => .inl hu

theorem execDirectCopy_eq_copy (s : State) :
    execDirectCopy s
      = andThen (andThen (inPhase .idle copyStart s) (inPhase .checkCap copyCap)) (inPhase .copy copyPhase) := by
  rw [andThen_assoc]
  rfl

/-- DIRECT_COPY up to its copy writes nothing. -/
theorem copyToCopy_still (s : State) :
    Sat s.Still (andThen (inPhase .idle copyStart s) (inPhase .checkCap copyCap)) := by
  refine Sat.andThen (P := s.Still) (Sat.inPhase (fun _ => ?_) fun _ => .refl s) fun u hu =>
    Sat.inPhase (fun _ => ?_) fun _ => hu
  · exact (copyStart_moved s).mono fun _ ht => ht.toStill
  · exact (copyCap_moved u).mono fun _ ht => hu.trans ht.toStill

theorem execDirectCopy_stillOrWrites (s : State) : Sat s.StillOrWrites (execDirectCopy s) := by
  rw [execDirectCopy_eq_copy]
  exact (copyToCopy_still s).andThen fun u hu =>
    Sat.inPhase (fun _ => hu.then_last (copyPhase_writes u)) fun _ => .inl hu

/-- A byte a command has changed is one of its OUT_LEN output bytes, and it has ended with Success. -/
theorem State.StillOrWrites.changed {s t : State} (h : s.StillOrWrites t) (hwf : s.mem.Wf) {a : Nat}
    (ha : t.mem.read a ≠ s.mem.read a) :
    t.eng.code = 0 ∧ t.eng.done = true ∧ ∃ j, j < t.eng.outLen.toNat ∧ a = s.outAt j := by
  rcases h with h | ⟨len, h⟩
  · exact absurd (congrArg (Memory.read · a) h.mem) ha
  · refine ⟨h.code, h.done, ?_⟩
    rw [h.outLen]
    by_contra hout
    push Not at hout
    exact ha ((h.output hwf).frame a hout)

/-- No instruction outside DECRYPT, DIRECT_COPY and XOR_STREAM writes memory. -/
theorem exec_mem {i : Instr} (hd : i ≠ .decrypt) (hc : i ≠ .directCopy) (hx : i ≠ .xorStream) (s : State) :
    Sat (fun t => t.mem = s.mem) (exec i s) := by
  by_cases hw : writesMore i = false
  · exact (exec_still hw s).mono fun _ ht => ht.mem
  cases i with
  | decrypt => exact absurd rfl hd
  | directCopy => exact absurd rfl hc
  | xorStream => exact absurd rfl hx
  | regRead size off => exact (execRegRead_sat size off s).mono fun t ht => by rw [ht]
  | regWrite size off v =>
    refine (execRegWrite_sat size off v s).mono ?_
    rintro t (rfl | ⟨-, rfl | ⟨-, -, rfl⟩⟩)
    all_goals rfl
  | _ => exact absurd rfl hw

/-- Settles O37: the two commands write memory in their last phase only, and no other instruction but XOR_STREAM does. -/
theorem onlyOutputsAreWritten : Obligations.OnlyOutputsAreWritten := by
  unfold Obligations.OnlyOutputsAreWritten
  refine ⟨fun i s t hd hc hx ht => exec_mem hd hc hx s t ht, ?_⟩
  rintro _ s t (rfl | rfl) hwf ht a ha
  · exact (execDecrypt_stillOrWrites s t ht).changed hwf ha
  · exact (execDirectCopy_stillOrWrites s t ht).changed hwf ha

end Sys2Proof.Machine
end

section
/-! SUPPORT. The host reads a byte of its memory while one engine runs a command, or none (20_memory.md R70, R71). -/

namespace Sys2Proof.Machine

theorem engines_alone {s : State} (hl : s.left = []) (hr : s.right = []) : s.engines = [s.eng] := by
  rw [State.engines, hl, hr]
  rfl

/-- No byte is pending of an engine that runs no command. -/
theorem pendingByte_notBusy {s : State} (h : s.eng.busy = false) (a : Nat) : s.pendingByte a [s.eng] = .ok none := by
  simp [State.pendingByte, h]

/-- A running command's pending bytes are those it has written at its end (log 15). -/
theorem pendingByte_busy {s u : State} (h : s.eng.busy = true) (hu : exec (decodeCmd s.eng.op) s = .next u) (a : Nat) :
    s.pendingByte a [s.eng]
      = .ok (if inRange s.cfg.size s.eng.outAddr.toNat u.eng.written a then some (u.mem.read a) else none) := by
  have hrun : runCommand { s with eng := s.eng } = .next u := (runCommand_eq s).trans hu
  simp only [State.pendingByte, h, if_true, hrun]
  split <;> rfl

/-- The addresses an ended command wrote are its first OUT_LEN output bytes, with Success (R65). -/
theorem inRange_written {s : State} {e : Engine} {a : Nat} (ha : a < s.cfg.size)
    (h : inRange s.cfg.size s.eng.outAddr.toNat e.written a = true) :
    e.code = 0 ∧ ∃ j, j < e.outLen.toNat ∧ a = s.outAt j := by
  obtain ⟨j, hj, haj⟩ := (inRange_iff (size_pos s.cfg) ha).1 h
  unfold Engine.written at hj
  split at hj
  next hcode => exact ⟨hcode, j, hj, haj⟩
  · exact absurd hj (Nat.not_lt_zero j)

theorem pick_old_or_new (b : Bool) (old new : Byte) : pick b old new = old ∨ pick b old new = new := by
  cases b with
  | true => exact .inr rfl
  | false => exact .inl rfl

theorem step_memRead {s : State} {a : Nat} {rest : List HostEvent} (hs : s.script = .memRead a :: rest) :
    step s = hostRead a { s with script := rest } := by
  unfold step
  rw [hs]
  rfl

section
variable {s : State} {a : Nat} (ha : a < 2 ^ s.cfg.addrW) (hd : s.cfg.onDevice a 1 = false) (halone : s.engines = [s.eng])
include ha hd halone

/-- A host read with no command running (R70). -/
theorem hostRead_notBusy (hb : s.eng.busy = false) : hostRead a s = .next { s with mdata := s.mem.read a } := by
  unfold hostRead
  rw [hostAddress_ok ha hd, halone, pendingByte_notBusy hb]

/-- A host read while a command runs that ends in `u` (R71). -/
theorem hostRead_busy {u : State} (hb : s.eng.busy = true) (hu : exec (decodeCmd s.eng.op) s = .next u) :
    ∃ b n, hostRead a s = .next { s with mdata := b, draws := n } ∧
      (b = s.mem.read a ∨ u.eng.code = 0 ∧ (∃ j, j < u.eng.outLen.toNat ∧ a = s.outAt j) ∧ b = u.mem.read a) := by
  unfold hostRead
  rw [hostAddress_ok ha hd, halone, pendingByte_busy hb hu]
  split
  next r hr => cases hr
  · exact ⟨_, _, rfl, .inl rfl⟩
  next new hnew =>
    obtain ⟨hin, rfl⟩ := Option.ite_some_none_eq_some.1 (Except.ok.inj hnew)
    obtain ⟨hcode, hout⟩ := inRange_written ha hin
    exact ⟨_, _, rfl, (pick_old_or_new _ _ _).imp_right fun h => ⟨hcode, hout, h⟩⟩

end

/-- Settles O52: what a read may return is decided by the one engine's pending bytes. -/
theorem hostMemoryRead : Obligations.HostMemoryRead := by
  unfold Obligations.HostMemoryRead
  intro s a rest hl hr hs ha hd
  have halone : ({ s with script := rest } : State).engines = [s.eng] := engines_alone hl hr
  rw [step_memRead hs]
  refine ⟨hostRead_notBusy (s := { s with script := rest }) ha hd halone, fun hb u hu => ?_⟩
  obtain ⟨b, n, hread, hbyte⟩ := hostRead_busy (s := { s with script := rest }) ha hd halone hb hu
  exact ⟨_, hread, rfl, rfl, rfl, rfl, hbyte⟩

end Sys2Proof.Machine
end

section
/-! SUPPORT. How a running command ends, against the number of bytes it is going to write (R65, R223, R281; log 15): it has
written that many and ended with Success, it has ended with another status and writes none, or its contract is broken for
that many. -/

namespace Sys2Proof.Machine

/-! ### The outcomes of a command -/

/-- `o` is an end of a command of `s` that is going to write `len` bytes. -/
inductive CommandEnd (s : State) : Nat → Result → Prop
  | success {len : Nat} {t : State} (h : s.Writes len t) : CommandEnd s len (.next t)
  | failure {t : State} (h : t.eng.code ≠ 0) : CommandEnd s 0 (.next t)
  | broken {len : Nat} {v : Violation} (h : contractBroken len s = some v) : CommandEnd s len (.fault (.hostContract v))

theorem CommandEnd.of_writes {s : State} {len : Nat} {o : Result} (h : Yields (s.Writes len) o) : CommandEnd s len o := by
  obtain ⟨t, rfl, ht⟩ := h
  exact .success ht

/-- What went before in a command has changed nothing its end depends on. -/
theorem CommandEnd.of_still {s u : State} {len : Nat} {o : Result} (h : s.Still u) (g : CommandEnd u len o) :
    CommandEnd s len o := by
  cases g with
  | success hw => exact .success (h.then_writes hw)
  | failure hc => exact .failure hc
  | broken hb =>
    obtain ⟨hcfg, -⟩ := h.around
    obtain ⟨hin, hlen, hout, -⟩ := h.operands
    exact .broken ((contractBroken_congr hcfg hout hin hlen).symm.trans hb)

/-- A command that has ended with another status than Success passes its later phases by. -/
theorem CommandEnd.of_failed {s t : State} (hp : t.eng.phase = .idle) (hcode : t.eng.code ≠ 0) {ph : Phase}
    (hph : ph ≠ .idle) (f : State → Result) : CommandEnd s 0 (inPhase ph f t) := by
  rw [inPhase_neg (by rw [hp]; exact hph.symm)]
  exact .failure hcode

theorem checkContract_end {s : State} {len : Nat} {f g : State → Result}
    (h : contractBroken len s = none → CommandEnd s len (andThen (f s) g)) :
    CommandEnd s len (andThen (checkContract len f s) g) := by
  cases hc : contractBroken len s with
  | none => rw [checkContract_ok hc]; exact h hc
  | some v => rw [checkContract_broken hc]; exact .broken hc

/-! ### DECRYPT up to the marker: it goes on, or it ends without Success -/

/-- The command goes on, or it has ended with a status other than Success. -/
abbrev State.GoesOnOrFailed (s : State) : Prop := s.eng.phase = .idle → s.eng.code ≠ 0

theorem goesOn_of_phase {s : State} (h : s.eng.phase ≠ .idle) : s.GoesOnOrFailed := fun hi => absurd hi h

theorem raiseStatus_fails {c : StatusCode} (hc : c.bits ≠ 0) (s : State) : Yields State.GoesOnOrFailed (raiseStatus c s) :=
  .next fun _ => hc

theorem goesOn_inPhase {ph : Phase} {f : State → Result} {s : State} (h : s.GoesOnOrFailed)
    (hf : s.eng.phase = ph → Yields State.GoesOnOrFailed (f s)) : Yields State.GoesOnOrFailed (inPhase ph f s) := by
  by_cases hp : s.eng.phase = ph
  · rw [inPhase_pos hp]; exact hf hp
  · rw [inPhase_neg hp]; exact .next h

theorem takeKeyId_goesOn (k : Byte) {s : State} (h : s.eng.phase ≠ .idle) : Yields State.GoesOnOrFailed (takeKeyId k s) := by
  rcases Nat.lt_or_ge (s.eng.p + 1 + k.toNat) s.n with hn | hn
  · rw [takeKeyId_ok hn]; exact .next (goesOn_of_phase h)
  · rw [takeKeyId_short hn]; exact raiseStatus_fails (by decide) _

theorem takeIv_goesOn (v : Byte) {s : State} (h : s.eng.phase ≠ .idle) : Yields State.GoesOnOrFailed (takeIv v s) := by
  rcases Nat.lt_or_ge (s.eng.p + 1 + v.toNat) s.n with hn | hn
  · rw [takeIv_ok hn]; exact .next (goesOn_of_phase h)
  · rw [takeIv_short hn]; exact raiseStatus_fails (by decide) _

theorem headerByte_goesOn (f : FrameField) (b : Byte) {s : State} (h : s.eng.phase = .parse) :
    Yields State.GoesOnOrFailed (headerByte f b s) := by
  have hidle : s.eng.phase ≠ .idle := by rw [h]; decide
  have hsetup : s.eng.phase ≠ .setup := by rw [h]; decide
  cases f with
  | kis =>
    by_cases hb : b = 0x00 ∨ b = 0x08
    · rw [headerByte_kis hb]; exact takeKeyId_goesOn b hidle
    · rw [headerByte_kis_other (not_or.1 hb)]; exact raiseStatus_fails (by decide) _
  | ivs =>
    by_cases hb : b = 0x04 ∨ b = 0x08
    · rw [headerByte_ivs hb]; exact takeIv_goesOn b hidle
    · rw [headerByte_ivs_other (not_or.1 hb)]; exact raiseStatus_fails (by decide) _
  | marker =>
    by_cases hb : b = 0x53 ∨ b = 0x41
    · rw [headerByte_marker hb hsetup]; exact .next (goesOn_of_phase hidle)
    · rw [headerByte_marker_other (not_or.1 hb) hsetup]; exact raiseStatus_fails (by decide) _

theorem parseField_goesOn {s : State} (h : s.eng.phase = .parse) : Yields State.GoesOnOrFailed (parseField s) := by
  cases hf : s.eng.field with
  | none => rw [parseField_none hf]; exact .next (goesOn_of_phase (by rw [h]; decide))
  | some f =>
    rcases Nat.lt_or_ge s.eng.p s.n with hp | hp
    · rw [parseField_some hf hp]; exact headerByte_goesOn f _ h
    · rw [parseField_short hf hp]; exact raiseStatus_fails (by decide) _

theorem parsePhase_goesOn {s : State} (h : s.eng.phase = .parse) : Yields State.GoesOnOrFailed (parsePhase s) := by
  have field : ∀ u : State, u.GoesOnOrFailed → Yields State.GoesOnOrFailed (inPhase .parse parseField u) :=
    fun u hu => goesOn_inPhase hu parseField_goesOn
  have fields : Yields State.GoesOnOrFailed (parseFields s) :=
    (field s (goesOn_of_phase (by rw [h]; decide))).andThen fun t ht => (field t ht).andThen field
  exact fields.andThen fun t ht => goesOn_inPhase ht fun _ => .next (goesOn_of_phase nofun)

theorem decryptCap_goesOn (s : State) : Yields State.GoesOnOrFailed (decryptCap s) := by
  rcases Nat.lt_or_ge s.cap s.plen with hc | hc
  · rw [decryptCap_long hc]; exact raiseStatus_fails (by decide) s
  · rw [decryptCap_fits hc]; exact .next (goesOn_of_phase nofun)

theorem lookupPhase_goesOn (s : State) : Yields State.GoesOnOrFailed (lookupPhase s) := by
  cases hk : lookupKey s.cfg.keyTable s.eng.keyId with
  | none => rw [lookupPhase_notFound hk]; exact raiseStatus_fails (by decide) _
  | some k => rw [lookupPhase_found hk]; exact .next (goesOn_of_phase nofun)

/-- From `s` the command has come to one of the phases `l` with memory and operands still, or it has failed. -/
structure State.Reaches (l : List Phase) (s t : State) : Prop where
  still : s.Still t
  phase : t.eng.phase ∈ l ∨ t.eng.phase = .idle ∧ t.eng.code ≠ 0

/-- The first of the phases the command may be in, run where it is in it. -/
theorem State.Reaches.then_phase {ph ph' : Phase} {l : List Phase} {f : State → Result} {s t : State}
    (h : s.Reaches (ph :: l) t) (hl : ph' ∈ l) (hm : t.eng.phase = ph → Sat (t.Moved ph') (f t))
    (hf : t.eng.phase = ph → Yields State.GoesOnOrFailed (f t)) : Yields (s.Reaches l) (inPhase ph f t) := by
  by_cases hp : t.eng.phase = ph
  · rw [inPhase_pos hp]
    obtain ⟨u, hu, hfail, hmoved⟩ := (hf hp).and_sat (hm hp)
    refine ⟨u, hu, h.still.trans hmoved.toStill, ?_⟩
    rcases hmoved.phase with hph | hi
    · exact .inl (hph ▸ hl)
    · exact .inr ⟨hi, hfail hi⟩
  · rw [inPhase_neg hp]
    exact .next ⟨h.still, h.phase.imp_left fun hmem => (List.mem_cons.1 hmem).resolve_left hp⟩

/-- DECRYPT begun comes to its dispatch on MARKER, or fails. -/
theorem decryptToSetup_reaches {s : State} (hidle : s.eng.phase ≠ .idle) (hcopy : s.eng.phase ≠ .copy) :
    Yields (s.Reaches [.setup, .stream]) (decryptToSetup s) := by
  have begun : s.eng.phase ∈ [.parse, .checkCap, .lookup, .derive, .setup, .stream] := by
    cases hp : s.eng.phase with
    | idle => exact absurd hp hidle
    | copy => exact absurd hp hcopy
    | _ => decide
  unfold decryptToSetup
  rw [inPhase_neg hidle, andThen_next]
  exact (State.Reaches.then_phase ⟨.refl s, .inl begun⟩ (ph' := .checkCap) (by decide) parsePhase_moved
      parsePhase_goesOn).andThen fun t₁ h₁ =>
    (h₁.then_phase (ph' := .lookup) (by decide) (fun _ => decryptCap_moved t₁)
      fun _ => decryptCap_goesOn t₁).andThen fun t₂ h₂ =>
    (h₂.then_phase (ph' := .derive) (by decide) (fun _ => lookupPhase_moved t₂)
      fun _ => lookupPhase_goesOn t₂).andThen fun t₃ h₃ =>
    h₃.then_phase (f := derivePhase) (ph' := .setup) (by decide) (fun _ => derivePhase_moved t₃)
      fun _ => .next (goesOn_of_phase nofun)

/-! ### DECRYPT from the marker on -/

/-- DECRYPT from its dispatch on MARKER on. -/
def decryptFromSetup (s : State) : Result := andThen (inPhase .setup setupPhase s) (inPhase .stream streamPhase)

theorem execDecrypt_eq_fromSetup (s : State) : execDecrypt s = andThen (decryptToSetup s) decryptFromSetup := rfl

/-- How many bytes a DECRYPT that has come to its dispatch on MARKER, or has ended, is going to write. -/
def State.streamLength (s : State) : Nat :=
  if s.eng.phase = .stream ∨ s.eng.phase = .setup ∧ s.eng.marker = 0x53 then s.plen else 0

theorem bytesToWrite_decrypt {s t : State} (hop : s.eng.op = 0x00000001) (ht : decryptToSetup s = .next t) :
    bytesToWrite s = t.streamLength := by
  unfold bytesToWrite
  rw [if_pos hop, ht]
  rfl

theorem decryptFromSetup_stream {s : State} (h : s.eng.phase = .stream) : decryptFromSetup s = streamPhase s := by
  unfold decryptFromSetup
  rw [inPhase_neg (by rw [h]; decide), andThen_next, inPhase_pos h]

/-- The marker 'S': the contract, and XOR_STREAM (R215, R216). -/
theorem decryptFromSetup_salsa {s : State} (h : s.eng.phase = .setup) (hm : s.eng.marker = 0x53) :
    CommandEnd s s.plen (decryptFromSetup s) := by
  unfold decryptFromSetup
  rw [inPhase_pos h, setupPhase_eq h, if_pos hm]
  refine checkContract_end fun _ => ?_
  obtain ⟨t, ht, ⟨hmoved, hphase, hplen⟩⟩ : Yields (fun t => s.Moved .stream t ∧ t.eng.phase = .stream ∧ t.plen = s.plen)
      (andThen (execKeySetup .keyReg s) fun t => .next (t.modEng fun e => { e with phase := .stream })) :=
    .next ⟨moved_modEng (f := fun _ => _) ⟨sameVisible_refl s.eng, rfl, rfl⟩, rfl, rfl⟩
  rw [ht, andThen_next, inPhase_pos hphase, ← hplen]
  exact (CommandEnd.of_writes (streamPhase_writes t)).of_still hmoved.toStill

/-- Any other marker: the fatal entry (R215, R247). -/
theorem decryptFromSetup_fatal {s : State} (h : s.eng.phase = .setup) (hm : s.eng.marker ≠ 0x53) :
    CommandEnd s 0 (decryptFromSetup s) := by
  unfold decryptFromSetup
  rw [inPhase_pos h, setupPhase_eq h, if_neg hm]
  have hcode : StatusCode.internalError.bits ≠ 0 := by decide
  exact .of_failed rfl hcode (by decide) streamPhase

theorem decryptFromSetup_end {s : State}
    (h : s.eng.phase ∈ [Phase.setup, .stream] ∨ s.eng.phase = .idle ∧ s.eng.code ≠ 0) :
    CommandEnd s s.streamLength (decryptFromSetup s) := by
  simp only [List.mem_cons, List.not_mem_nil, or_false] at h
  unfold State.streamLength
  rcases h with (hp | hp) | ⟨hp, hcode⟩
  · by_cases hm : s.eng.marker = 0x53
    · rw [if_pos (.inr ⟨hp, hm⟩)]
      exact decryptFromSetup_salsa hp hm
    · rw [if_neg (by simpa [hp] using hm)]
      exact decryptFromSetup_fatal hp hm
  · rw [if_pos (.inl hp), decryptFromSetup_stream hp]
    exact .of_writes (streamPhase_writes s)
  · unfold decryptFromSetup
    rw [if_neg (by simp [hp]), inPhase_neg (by rw [hp]; decide)]
    exact .of_failed hp hcode (by decide) streamPhase

/-! ### The commands -/

/-- A DECRYPT that runs ends as the number of its bytes says. -/
theorem execDecrypt_end {s : State} (hop : s.eng.op = 0x00000001) (hidle : s.eng.phase ≠ .idle)
    (hcopy : s.eng.phase ≠ .copy) : CommandEnd s (bytesToWrite s) (execDecrypt s) := by
  obtain ⟨t, ht, hreach⟩ := decryptToSetup_reaches hidle hcopy
  rw [execDecrypt_eq_fromSetup, bytesToWrite_decrypt hop ht, ht, andThen_next]
  exact (decryptFromSetup_end hreach.phase).of_still hreach.still

theorem bytesToWrite_copy {s : State} (hop : s.eng.op = 0x00000002) :
    bytesToWrite s = if s.eng.phase = .copy ∨ s.n ≤ s.cap + 1 then s.n else 0 := by
  unfold bytesToWrite
  rw [if_neg (by rw [hop]; decide), if_pos hop]

/-- A DIRECT_COPY before its capacity check (R217). -/
theorem execDirectCopy_checkCap {s : State} (h : s.eng.phase = .checkCap) :
    execDirectCopy s = andThen (copyCap s) (inPhase .copy copyPhase) := by
  unfold execDirectCopy
  rw [inPhase_neg (by rw [h]; decide), andThen_next, inPhase_pos h]

theorem execDirectCopy_copy {s : State} (h : s.eng.phase = .copy) : execDirectCopy s = copyPhase s := by
  unfold execDirectCopy
  rw [inPhase_neg (by rw [h]; decide), andThen_next, inPhase_neg (by rw [h]; decide), andThen_next, inPhase_pos h]

/-- A DIRECT_COPY that fits: the contract, and the copy. -/
theorem copyCap_end {s : State} (h : s.n ≤ s.cap + 1) : CommandEnd s s.n (andThen (copyCap s) (inPhase .copy copyPhase)) := by
  unfold copyCap
  rw [if_neg (Nat.not_lt.2 h)]
  refine checkContract_end fun _ => ?_
  have hmoved : s.Moved .copy (s.modEng fun e => { e with phase := .copy }) :=
    moved_modEng ⟨sameVisible_refl s.eng, rfl, rfl⟩
  rw [andThen_next, inPhase_pos (by rfl)]
  exact (CommandEnd.of_writes (copyPhase_writes _)).of_still hmoved.toStill

/-- A DIRECT_COPY that runs ends as the number of its bytes says. -/
theorem execDirectCopy_end {s : State} (hop : s.eng.op = 0x00000002) (hph : s.eng.phase = .checkCap ∨ s.eng.phase = .copy) :
    CommandEnd s (bytesToWrite s) (execDirectCopy s) := by
  rw [bytesToWrite_copy hop]
  rcases hph with hp | hp
  · rw [execDirectCopy_checkCap hp]
    by_cases hfits : s.n ≤ s.cap + 1
    · rw [if_pos (.inr hfits)]
      exact copyCap_end hfits
    · rw [if_neg (by simp [hp, hfits]), copyCap_long (Nat.not_le.1 hfits)]
      have hcode : StatusCode.insufficientBuffer.bits ≠ 0 := by decide
      exact .of_failed rfl hcode (by decide) copyPhase
  · rw [if_pos (.inl hp), execDirectCopy_copy hp]
    exact .of_writes (copyPhase_writes s)

/-- A running command in a phase of its own ends as the number of its bytes says. -/
theorem runningCommand_end {s : State} (h : OwnPhase s.eng.op s.eng.phase) :
    CommandEnd s (bytesToWrite s) (exec (decodeCmd s.eng.op) s) := by
  obtain ⟨hidle, ⟨hop, hcopy⟩ | ⟨hop, hph⟩⟩ := h
  · rw [hop, show decodeCmd 0x00000001 = .decrypt from rfl]
    exact execDecrypt_end hop hidle hcopy
  · rw [hop, show decodeCmd 0x00000002 = .directCopy from rfl]
    exact execDirectCopy_end hop hph

/-- Settles O56: by the three ends of a running command. -/
theorem willWriteIsWritten : Obligations.WillWriteIsWritten := by
  unfold Obligations.WillWriteIsWritten
  intro s e hinv hb
  have hend : CommandEnd { s with eng := e } (s.willWrite e) (exec (decodeCmd e.op) { s with eng := e }) :=
    runningCommand_end (s := { s with eng := e }) (hinv.running hb).1
  generalize s.willWrite e = len at hend
  refine ⟨fun t ht => ?_, fun r hr => ?_⟩
  · rw [ht] at hend
    cases hend with
    | success h => rw [if_pos h.code, h.outLen]
    | failure h => rw [if_neg h]
  · rw [hr] at hend
    cases hend with
    | broken h => exact ⟨_, rfl, h⟩

end Sys2Proof.Machine
end

section
/-! SUPPORT. The decoders and the encoder against each other (30_encoding.md R90 to R105): each word and each header
byte has one meaning, and the encoding of that meaning is the word or the byte again. -/

namespace Sys2Proof.Machine

/-! ### Every other value -/

theorem decodeCmd_other {v : Word} (h1 : v ≠ 0x00000001) (h2 : v ≠ 0x00000002) : decodeCmd v = .illegalCmd v := by
  rw [decodeCmd, if_neg h1, if_neg h2]

theorem decodeHeaderByte_kis_other {b : Byte} (h0 : b ≠ 0x00) (h8 : b ≠ 0x08) :
    decodeHeaderByte .kis b = .frameKisOther b := by
  rw [decodeHeaderByte, if_neg h0, if_neg h8]

theorem decodeHeaderByte_ivs_other {b : Byte} (h4 : b ≠ 0x04) (h8 : b ≠ 0x08) :
    decodeHeaderByte .ivs b = .frameIvsOther b := by
  rw [decodeHeaderByte, if_neg h4, if_neg h8]

theorem decodeHeaderByte_marker_other {b : Byte} (hS : b ≠ 0x53) (hA : b ≠ 0x41) :
    decodeHeaderByte .marker b = .frameMarkerOther b := by
  rw [decodeHeaderByte, if_neg hS, if_neg hA]

/-! ### From an instruction to its encoding and back -/

/-- The bytes of a CMD word decode to the word's instruction, whatever follows (R90, R93). -/
theorem decodeBytes_leBytes (v : Word) (rest : List Byte) :
    decodeBytes .cmd (leBytes v ++ rest) = .ok (decodeCmd v, rest) :=
  congrArg (fun w => Except.ok (decodeCmd w, rest)) (le32_leBytes v)

/-- The bytes of a well-formed instruction decode to it, whatever follows. -/
theorem decodeBytes_of_encode {i : Instr} {slot : Slot} {bs : List Byte} (hw : i.wellFormed = true)
    (h : encode i = some (.bytes slot bs)) (rest : List Byte) : decodeBytes slot (bs ++ rest) = .ok (i, rest) := by
  have header : ∀ {f b j}, decodeHeaderByte f b = j → decodeBytes (.header f) ([b] ++ rest) = .ok (j, rest) :=
    fun hj => congrArg (fun j => Except.ok (j, rest)) hj
  cases i with
  | decrypt => cases h; exact decodeBytes_leBytes 0x00000001 rest
  | directCopy => cases h; exact decodeBytes_leBytes 0x00000002 rest
  | illegalCmd op =>
    cases h
    obtain ⟨h1, h2⟩ := of_decide_eq_true hw
    rw [decodeBytes_leBytes, decodeCmd_other h1 h2]
  | frameKis0 => cases h; exact header rfl
  | frameKis8 => cases h; exact header rfl
  | frameKisOther b =>
    cases h
    obtain ⟨h0, h8⟩ := of_decide_eq_true hw
    exact header (decodeHeaderByte_kis_other h0 h8)
  | frameIvs4 => cases h; exact header rfl
  | frameIvs8 => cases h; exact header rfl
  | frameIvsOther b =>
    cases h
    obtain ⟨h4, h8⟩ := of_decide_eq_true hw
    exact header (decodeHeaderByte_ivs_other h4 h8)
  | frameMarkerS => cases h; exact header rfl
  | frameMarkerA => cases h; exact header rfl
  | frameMarkerOther b =>
    cases h
    obtain ⟨hS, hA⟩ := of_decide_eq_true hw
    exact header (decodeHeaderByte_marker_other hS hA)
  | _ => cases h

/-- A register access of 32 bits at a window offset decodes to its register instruction (R94). -/
theorem decodeAccess_ok {a : BusAccess} (hs : a.size = 4) (ho : offsetOk a.off) :
    decodeAccess a = .ok (if a.write then .regWrite a.size a.off a.value else .regRead a.size a.off) := by
  rw [decodeAccess, if_neg (not_not.2 hs), if_neg (not_not.2 ho)]
  exact (apply_ite Except.ok _ _ _).symm

/-- The access of a well-formed register instruction decodes to it. -/
theorem decodeAccess_of_encode {i : Instr} {a : BusAccess} (hw : i.wellFormed = true)
    (h : encode i = some (.access a)) : decodeAccess a = .ok i := by
  cases i with
  | regWrite size off v =>
    cases h
    obtain ⟨hs, ho⟩ := of_decide_eq_true hw
    exact decodeAccess_ok hs ho
  | regRead size off =>
    cases h
    obtain ⟨hs, ho⟩ := of_decide_eq_true hw
    exact decodeAccess_ok hs ho
  | _ => cases h

/-- The rows without an encoding are the INTERNAL ones (R96). -/
theorem encode_eq_none_iff (i : Instr) : encode i = none ↔ i.format = .internal := by
  cases i <;> simp [encode, Instr.format]

/-- Settles O1: the bytes of an encoding decode by `decodeBytes_of_encode`, its register access by
`decodeAccess_of_encode`. -/
theorem decodeOfEncode : Obligations.DecodeOfEncode := by
  unfold Obligations.DecodeOfEncode
  intro i hw
  refine ⟨fun e he => ?_, fun slot bs rest h => decodeBytes_of_encode hw h rest, encode_eq_none_iff i⟩
  cases e with
  | bytes slot bs =>
    have hd := decodeBytes_of_encode hw he []
    rw [List.append_nil] at hd
    rw [decode, hd]
  | access a => exact decodeAccess_of_encode hw he

/-! ### From bytes to an instruction and back -/

theorem wellFormed_decodeCmd (v : Word) : (decodeCmd v).wellFormed = true := by
  unfold decodeCmd
  split
  · rfl
  split
  · rfl
  next h1 h2 => exact decide_eq_true ⟨h1, h2⟩

theorem encode_decodeCmd (v : Word) : encode (decodeCmd v) = some (.bytes .cmd (leBytes v)) := by
  unfold decodeCmd
  split
  next h => rw [h]; rfl
  split
  next h => rw [h]; rfl
  · rfl

theorem wellFormed_decodeHeaderByte (f : FrameField) (b : Byte) : (decodeHeaderByte f b).wellFormed = true := by
  cases f <;>
  · unfold decodeHeaderByte
    dsimp only
    split
    · rfl
    split
    · rfl
    next h1 h2 => exact decide_eq_true ⟨h1, h2⟩

theorem encode_decodeHeaderByte (f : FrameField) (b : Byte) :
    encode (decodeHeaderByte f b) = some (.bytes (.header f) [b]) := by
  cases f <;>
  · unfold decodeHeaderByte
    dsimp only
    split
    next h => rw [h]; rfl
    split
    next h => rw [h]; rfl
    · rfl

/-- What the decoder reads in the CMD slot are the four bytes of a word (R93). -/
theorem decodeBytes_cmd_ok {bs rest : List Byte} {i : Instr} (h : decodeBytes .cmd bs = .ok (i, rest)) :
    ∃ v, bs = leBytes v ++ rest ∧ i = decodeCmd v := by
  match bs with
  | b0 :: b1 :: b2 :: b3 :: _ =>
    cases h
    exact ⟨le32 b0 b1 b2 b3, by rw [leBytes_le32]; rfl, rfl⟩
  | [] => cases h
  | [_] => cases h
  | [_, _] => cases h
  | [_, _, _] => cases h

/-- What the decoder reads in a header field is one byte. -/
theorem decodeBytes_header_ok {f : FrameField} {bs rest : List Byte} {i : Instr}
    (h : decodeBytes (.header f) bs = .ok (i, rest)) : ∃ b, bs = [b] ++ rest ∧ i = decodeHeaderByte f b := by
  cases bs with
  | nil => cases h
  | cons b bs => cases h; exact ⟨b, rfl, rfl⟩

/-- Settles O2: the bytes read are a CMD word's or a header field's, and what they decode to encodes as they stand. -/
theorem encodeOfDecode : Obligations.EncodeOfDecode := by
  unfold Obligations.EncodeOfDecode
  intro slot bs i rest h
  cases slot with
  | cmd =>
    obtain ⟨v, hbs, rfl⟩ := decodeBytes_cmd_ok h
    exact ⟨wellFormed_decodeCmd v, leBytes v, encode_decodeCmd v, hbs⟩
  | header f =>
    obtain ⟨b, hbs, rfl⟩ := decodeBytes_header_ok h
    exact ⟨wellFormed_decodeHeaderByte f b, [b], encode_decodeHeaderByte f b, hbs⟩

/-! ### The words of the opcode table -/

theorem decodeTableWord_cmd (w : Nat) : decodeTableWord 32 w = some (decodeCmd (BitVec.ofNat 32 w)) :=
  congrArg (fun v => some (decodeCmd v)) (le32_leBytes (BitVec.ofNat 32 w))

theorem decodeTableWord_header (w : Nat) :
    decodeTableWord 8 w = some (decodeHeaderByte (fieldOfValue (BitVec.ofNat 8 w)) (BitVec.ofNat 8 w)) := rfl

/-- Settles O3: by `decodeCmd`'s rows, which a table word of 32 bits is read by (log 17). -/
theorem opcodeAssignments : Obligations.OpcodeAssignments := by
  unfold Obligations.OpcodeAssignments
  exact ⟨rfl, rfl, decodeTableWord_cmd _, decodeTableWord_cmd _, fun _ => decodeCmd_other⟩

/-- Settles O4: by the rows of each field. -/
theorem headerByteCodes : Obligations.HeaderByteCodes := by
  unfold Obligations.HeaderByteCodes
  exact ⟨rfl, rfl, rfl, rfl, rfl, rfl, fun _ => decodeHeaderByte_kis_other, fun _ => decodeHeaderByte_ivs_other,
    fun _ => decodeHeaderByte_marker_other⟩

end Sys2Proof.Machine
end

section
/-! SUPPORT. The header bytes one by one and PARSE over a header it accepts (41_header_parser.md R130): the state after
each field in terms of the header as 30_encoding.md R100 lays it out. -/

namespace Sys2Proof.Machine

/-! ### One byte -/

theorem execFrameMarkerS_parse {s : State} (h : s.eng.phase ≠ .setup) : execFrameMarkerS s = takeMarker 0x53 s :=
  if_neg h

theorem execFrameMarkerA_parse {s : State} (h : s.eng.phase ≠ .setup) : execFrameMarkerA s = takeMarker 0x41 s :=
  if_neg h

theorem execFrameMarkerOther_parse (b : Byte) {s : State} (h : s.eng.phase ≠ .setup) :
    execFrameMarkerOther b s = raiseStatus .notSupported (s.modEng fun e => { e with marker := b }) := if_neg h

theorem takeMarker_eq {m : Byte} {p : Nat} {s : State} (h : s.eng.p + 1 = p) :
    takeMarker m s = .next { s with eng := { s.eng with marker := m, p := p, poff := p, field := none } } := by
  subst h
  rfl

/-- Settles O28: each of the three rows ends the command after one internal register has been written
(`ended_through`). -/
theorem unsupportedByteEnds : Obligations.UnsupportedByteEnds := by
  unfold Obligations.UnsupportedByteEnds
  intro b s
  refine ⟨ended_through _ s _ ⟨rfl, rfl, rfl, rfl⟩ rfl rfl, ended_through _ s _ ⟨rfl, rfl, rfl, rfl⟩ rfl rfl,
    fun hp => ?_⟩
  obtain ⟨t, ht, hend⟩ :=
    ended_through .notSupported s (fun e => { e with marker := b }) ⟨rfl, rfl, rfl, rfl⟩ rfl rfl
  exact ⟨t, (execFrameMarkerOther_parse b hp).trans ht, hend⟩

/-- Settles O29: outside the dispatch both markers are `takeMarker`. -/
theorem markerByteAccepted : Obligations.MarkerByteAccepted := by
  unfold Obligations.MarkerByteAccepted
  exact fun _ hp => ⟨(execFrameMarkerS_parse hp).trans (takeMarker_eq rfl),
    (execFrameMarkerA_parse hp).trans (takeMarker_eq rfl)⟩

/-! ### A header that PARSE accepts -/

/-- The header is legal and the input reaches past it (R131, R132, R134). -/
structure HeaderLegal (n : Nat) (inp : Nat → Byte) : Prop where
  kis : frameK inp = 0x00 ∨ frameK inp = 0x08
  ivs : frameV inp = 0x04 ∨ frameV inp = 0x08
  marker : frameM inp = 0x53 ∨ frameM inp = 0x41
  length : 2 + (frameK inp).toNat + (frameV inp).toNat < n

theorem headerLegal_of_frameStatus {n : Nat} {inp : Nat → Byte} (h : frameStatus n inp = none) : HeaderLegal n inp := by
  simp only [frameStatus, ite_eq_iff, reduceCtorEq, and_false, and_true, false_or, not_and_or, not_not, not_le] at h
  obtain ⟨-, hk, -, hv, hn, hm⟩ := h
  exact ⟨hk, hv, hm, hn⟩

/-- PARSE has taken keyIdSize and keyId (R130 steps 1 and 2). -/
def State.keyIdTaken (s : State) : State :=
  { s with eng := { s.eng with
      phase := .parse, kis := frameK s.inByte, keyId := frameKeyId s.inByte, p := 1 + (frameK s.inByte).toNat
      field := some .ivs } }

/-- PARSE has taken ivSize and the IV too (R130 steps 3 and 4). -/
def State.ivTaken (s : State) : State :=
  { s.keyIdTaken with eng := { s.keyIdTaken.eng with
      ivs := frameV s.inByte, baseIv := frameIv s.inByte, p := 2 + (frameK s.inByte).toNat + (frameV s.inByte).toNat
      field := some .marker } }

/-- PARSE has taken the whole header (R130 step 5). -/
def State.headerTaken (s : State) : State :=
  { s.ivTaken with eng := { s.ivTaken.eng with
      marker := frameM s.inByte, p := framePoff s.inByte, poff := framePoff s.inByte, field := none } }

section
variable {s : State} (h : HeaderLegal s.n s.inByte)
include h

theorem parseField_keyIdTaken : parseField (s.modEng Engine.parseStart) = .next s.keyIdTaken := by
  have hlen := h.length
  rw [parseField_some (f := .kis) rfl (show 0 < s.n by omega)]
  refine (headerByte_kis h.kis _).trans ?_
  rw [takeKeyId_ok (show 0 + 1 + (frameK s.inByte).toNat < s.n by omega)]
  rfl

theorem parseField_ivTaken : parseField s.keyIdTaken = .next s.ivTaken := by
  have hlen := h.length
  have hp : s.keyIdTaken.eng.p + 1 = 2 + (frameK s.inByte).toNat := by
    show 1 + (frameK s.inByte).toNat + 1 = _
    omega
  rw [parseField_some (f := .ivs) rfl (show 1 + (frameK s.inByte).toNat < s.n by omega)]
  refine (headerByte_ivs h.ivs _).trans ?_
  rw [takeIv_ok (by rw [hp]; exact hlen), hp]
  rfl

theorem parseField_headerTaken : parseField s.ivTaken = .next s.headerTaken := by
  have hp : s.ivTaken.eng.p + 1 = framePoff s.inByte := by
    show 2 + (frameK s.inByte).toNat + (frameV s.inByte).toNat + 1 = 3 + _ + _
    omega
  rw [parseField_some (f := .marker) rfl h.length]
  exact (headerByte_marker h.marker (show Phase.parse ≠ .setup by decide)).trans (takeMarker_eq hp)

/-- PARSE takes an accepted header field by field. -/
theorem execParse_accepted : execParse s = .next s.headerTaken := by
  have kis : inPhase .parse parseField (s.modEng Engine.parseStart) = .next s.keyIdTaken :=
    (inPhase_pos rfl).trans (parseField_keyIdTaken h)
  have ivs : inPhase .parse parseField s.keyIdTaken = .next s.ivTaken := (inPhase_pos rfl).trans (parseField_ivTaken h)
  have marker : inPhase .parse parseField s.ivTaken = .next s.headerTaken :=
    (inPhase_pos rfl).trans (parseField_headerTaken h)
  rw [execParse, parseFields, kis, andThen_next, ivs, andThen_next, marker]

end

/-! ### The fields byte by byte -/

/-- Byte i of KEYID for a legal keyIdSize (R102). -/
theorem frameKeyId_byte {inp : Nat → Byte} (hk : frameK inp = 0x00 ∨ frameK inp = 0x08) {i : Nat} (hi : i < 8) :
    (frameKeyId inp >>> (8 * i)).setWidth 8 = if i < (frameK inp).toNat then inp (1 + i) else (0x00 : Byte) := by
  unfold frameKeyId
  rcases hk with hk | hk
  · rw [hk, if_neg (show ¬ i < (0x00 : Byte).toNat from Nat.not_lt_zero i)]
    simp [le64]
  · rw [hk, if_pos (show i < (0x08 : Byte).toNat from hi)]
    exact le64_byte _ i hi

/-- Byte i of BASE_IV (R104). -/
theorem frameIv_byte (inp : Nat → Byte) {i : Nat} (hi : i < 8) :
    (frameIv inp)[i] = if i < (frameV inp).toNat then inp (2 + (frameK inp).toNat + i) else 0x00 :=
  Vector.getElem_ofFn hi

/-- Settles O25: PARSE leaves `frameKeyId` and `frameIv` of an accepted header. -/
theorem headerFieldBytes : Obligations.HeaderFieldBytes := by
  unfold Obligations.HeaderFieldBytes
  intro s hs
  have h := headerLegal_of_frameStatus hs
  exact ⟨s.headerTaken, execParse_accepted h, rfl, rfl, fun _ hi => frameKeyId_byte h.kis hi,
    fun _ hi => frameIv_byte s.inByte hi⟩

end Sys2Proof.Machine
end

section
/-! SUPPORT. What one step runs: the event at the head of the host's queue, the instruction an engine step issues, and
with no event the command of a busy engine; a table word placed before the step (log 10, log 12, log 17). -/

namespace Sys2Proof.Machine

/-! ### The step by the head of the queue -/

theorem step_event {s : State} {ev : HostEvent} {rest : List HostEvent} (h : s.script = ev :: rest) :
    step s = hostStep ev { s with script := rest } := by
  rw [step, h]

theorem step_noEvent {s : State} (h : s.script = []) : step s = enginesRun s := by
  rw [step, h]

theorem hostStep_decoded {a : BusAccess} {i : Instr} (h : decodeAccess a = .ok i) (s : State) :
    hostStep (.access a) s = exec i s := by
  rw [hostStep, h]

/-! ### One engine step -/

theorem engineStep_issue {s : State} {i : Instr} (h : s.issue = some i) :
    engineStep s = andThen (exec i s) (advance s.eng.phase) := by
  rw [engineStep, h]

/-- An engine step in PARSE is the meaning of the byte at P in the field it stands in, and nothing else (R130). -/
theorem engineStep_headerByte {s : State} {f : FrameField} (hb : s.eng.busy = true) (hp : s.eng.phase = .parse)
    (hf : s.eng.field = some f) (hn : s.eng.p < s.n) :
    engineStep s = exec (decodeHeaderByte f (s.inByte s.eng.p)) s := by
  have hfield : s.eng.field ≠ none := by rw [hf]; nofun
  rw [engineStep_parse hb hp, if_neg hfield, parseField_some hf hn, exec_decodeHeaderByte]

/-- Settles O5: a step is the event it takes off the queue (`step_event`), or with none the engines' turn
(`step_noEvent`). -/
theorem stepRunsDecoded : Obligations.StepRunsDecoded := by
  unfold Obligations.StepRunsDecoded
  refine ⟨fun s a rest i hs ha => ?access, fun s rest f i hs hb hp hf hn hd => ?headerByte,
    fun s rest i hs hi => ?issued, fun s hs hb => ?own, fun s k o hs hb hk ho hfirst => ?other⟩
  case access => rw [step_event hs, hostStep_decoded ha]
  case headerByte =>
    cases hd
    rw [step_event hs]
    exact engineStep_headerByte (s := { s with script := rest }) hb hp hf hn
  case issued =>
    rw [step_event hs]
    exact engineStep_issue (s := { s with script := rest }) hi
  case own => rw [step_noEvent hs, enginesRun_self hb]
  case other => rw [step_noEvent hs, enginesRun_other hb hk ho hfirst]

/-! ### A placed table word -/

/-- A CMD word placed is a command accepted and not begun, with the word captured. -/
theorem withFetchWord_cmd (s : State) (w : Nat) :
    s.withFetchWord 32 w = { s.modEng (Engine.placeCmd (BitVec.ofNat 32 w)) with script := [] } := by
  rw [← le32_leBytes (BitVec.ofNat 32 w)]
  rfl

/-- `s` with the header byte `b` placed in field `f`, but no engine turn yet in the queue. -/
def State.withHeaderByte (s : State) (f : FrameField) (b : Byte) : State :=
  { s.modEng (Engine.placeField f) with
    mem := s.mem.write (s.cfg.addr s.eng.inAddr (fieldOffset f)) b, script := [] }

theorem withFetchWord_header (s : State) (w : Nat) :
    s.withFetchWord 8 w
      = { s.withHeaderByte (fieldOfValue (BitVec.ofNat 8 w)) (BitVec.ofNat 8 w) with script := [.engineTurn] } := rfl

/-- A placed header byte is the byte at P. -/
theorem inByte_withHeaderByte {s : State} (h : s.mem.Wf) (f : FrameField) (b : Byte) :
    (s.withHeaderByte f b).inByte (fieldOffset f) = b :=
  Memory.read_write_self h _ b

/-- The engine step of a placed header byte runs it. -/
theorem engineStep_withHeaderByte {s : State} (h : s.mem.Wf) (f : FrameField) (b : Byte) :
    engineStep (s.withHeaderByte f b) = exec (decodeHeaderByte f b) (s.withHeaderByte f b) := by
  have hn : fieldOffset f < 19 := by cases f <;> decide
  rw [engineStep_headerByte (f := f) rfl rfl rfl hn]
  show exec (decodeHeaderByte f ((s.withHeaderByte f b).inByte (fieldOffset f))) _ = _
  rw [inByte_withHeaderByte h]

/-- A table word that decodes to an instruction has the width of a CMD word or of a header byte (log 17). -/
theorem decodeTableWord_width {nbits w : Nat} {i : Instr} (h : decodeTableWord nbits w = some i) :
    nbits = 32 ∨ nbits = 8 := by
  unfold decodeTableWord tableSlot at h
  split at h
  next hslot =>
    split at hslot
    · exact .inl rfl
    · exact .inr rfl
    · cases hslot
  · cases h

/-- Settles O6: a placed CMD word is the command the engines' turn runs, a placed header byte the one the engine's turn
decodes. -/
theorem placedWordRuns : Obligations.PlacedWordRuns := by
  unfold Obligations.PlacedWordRuns
  intro s nbits w i hwf hd
  rcases decodeTableWord_width hd with rfl | rfl
  · rw [decodeTableWord_cmd] at hd
    cases hd
    rw [withFetchWord_cmd, step_noEvent rfl, enginesRun_self rfl]
    rfl
  · rw [decodeTableWord_header] at hd
    cases hd
    rw [withFetchWord_header, step_event rfl]
    exact engineStep_withHeaderByte hwf _ _

/-! ### WAIT -/

/-- WAIT reads STATUS, and it is over or stays in the queue while the engines have the turn (R110). -/
theorem step_wait {s : State} {rest : List HostEvent} (h : s.script = .wait :: rest) :
    step s
      = if s.eng.done = true ∨ s.eng.fatal = true then .next { s with script := rest, rdata := s.eng.statusWord }
        else enginesRun { s with rdata := s.eng.statusWord } := by
  rw [step_event h]
  unfold hostStep
  dsimp only
  rw [← h]

/-- Settles O55: while neither DONE nor FATAL is set, the engines have the turn that `enginesRun`'s laws tell. -/
theorem waitPollsStatus : Obligations.WaitPollsStatus := by
  unfold Obligations.WaitPollsStatus
  intro s rest hs
  have waiting : s.eng.done = false → s.eng.fatal = false → step s = enginesRun { s with rdata := s.eng.statusWord } :=
    fun hd hf => by rw [step_wait hs, if_neg (by simp [hd, hf])]
  refine ⟨fun h => ?finished, fun hd hf hb => ?own,
    fun hd hf hb => ⟨fun k o hk ho hfirst => ?other, fun hidle => ?idle⟩⟩
  case finished => rw [step_wait hs, if_pos h]
  case own => rw [waiting hd hf]; exact enginesRun_self hb
  case other => rw [waiting hd hf]; exact enginesRun_other hb hk ho hfirst
  case idle => rw [waiting hd hf]; exact enginesRun_idle hidle

end Sys2Proof.Machine
end

section
/-! SUPPORT. The key store's LOOKUP (40_keystore.md R120, R122): the entry that decides the scan. -/

namespace Sys2Proof.Machine

theorem lookupKey_zero (t : List KeyEntry) : lookupKey t 0 = none := if_pos rfl

/-- Live entries with another keyId are passed over. -/
theorem lookupKey_before {before rest : List KeyEntry} {k : DWord} (hk : k ≠ 0)
    (h : ∀ o ∈ before, o.keyId ≠ 0 ∧ o.keyId ≠ k) : lookupKey (before ++ rest) k = scanKeys rest k :=
  (if_neg hk).trans (scanKeys_before before rest k h)

theorem scanKeys_match {e : KeyEntry} {k : DWord} (hk : k ≠ 0) (h : e.keyId = k) (after : List KeyEntry) :
    scanKeys (e :: after) k = some e.key := by
  rw [scanKeys, if_neg (h ▸ hk), if_pos h]

theorem scanKeys_sentinel {e : KeyEntry} (h : e.keyId = 0) (after : List KeyEntry) (k : DWord) :
    scanKeys (e :: after) k = none := if_pos h

/-- Settles O12: the scan comes to the first entry that is the sentinel or matches, and that entry decides it. -/
theorem lookupScan : Obligations.LookupScan := by
  unfold Obligations.LookupScan
  refine fun s => ⟨fun h0 => execLookup_notFound (by rw [h0, lookupKey_zero]), fun before e after hk ht hbefore => ?_⟩
  have scan : lookupKey s.cfg.keyTable s.eng.keyId = scanKeys (e :: after) s.eng.keyId := by
    rw [ht, lookupKey_before hk hbefore]
  exact ⟨fun he => execLookup_found (scan.trans (scanKeys_match hk he after)),
    fun he => execLookup_notFound (scan.trans (scanKeys_sentinel he after _))⟩

end Sys2Proof.Machine
end

section
/-! SUPPORT. PARSE over a header it rejects (41_header_parser.md R130, R133), and the DECRYPT that PARSE, the capacity check
or LOOKUP ends (44_dispatch.md R211 to R213). -/

namespace Sys2Proof.Machine

/-! ### A header that PARSE rejects -/

theorem State.EndedWith.idle {c : StatusCode} {s t : State} (h : s.EndedWith c t) : t.eng.phase = .idle := by
  obtain ⟨-, -, -, -, -, -, -, -, hphase⟩ := h
  exact hphase

theorem parseTimes_idle {s : State} (h : s.eng.phase = .idle) : ∀ k, parseTimes k s = .next s
  | 0 => rfl
  | k + 1 => by rw [parseTimes, inPhase_neg (by rw [h]; decide), andThen_next, parseTimes_idle h k]

/-- A command that ends after internal registers only have changed has ended with nothing else visible changed. -/
theorem raiseStatus_ends {c : StatusCode} {s : State} {f : Engine → Engine} (hf : (f s.eng).SameVisible s.eng) :
    Yields (s.EndedWith c) (raiseStatus c (s.modEng f)) := by
  obtain ⟨hoperands, hlen, -, -, hfatal, -⟩ := hf
  exact ended_through c s f hoperands hlen hfatal

/-- A check that fails ends PARSE, only internal registers having changed before it. -/
theorem parseTimes_raised {c : StatusCode} {s u : State} {f : Engine → Engine} (hp : u.eng.phase = .parse)
    (h : parseField u = raiseStatus c (s.modEng f)) (hf : (f s.eng).SameVisible s.eng) (k : Nat) :
    Yields (s.EndedWith c) (parseTimes (k + 1) u) := by
  rw [parseTimes, inPhase_pos hp, h]
  exact (raiseStatus_ends hf).andThen fun t ht => ⟨t, parseTimes_idle ht.idle k, ht⟩

/-! Each check of R130 in turn: where it fails the command ends, where it passes PARSE is past its field, whatever stands
behind (the lemmas of an accepted header ask for the whole of it). -/

section
variable {s : State}

theorem parseTimes_noInput (h : s.n = 0) (k : Nat) :
    Yields (s.EndedWith .fileCorrupt) (parseTimes (k + 1) (s.modEng Engine.parseStart)) :=
  parseTimes_raised rfl (parseField_short (s := s.modEng Engine.parseStart) rfl (Nat.le_of_eq h)) (sameVisible_refl s.eng) k

theorem parseField_kisByte (h : 0 < s.n) :
    parseField (s.modEng Engine.parseStart) = headerByte .kis (frameK s.inByte) (s.modEng Engine.parseStart) :=
  parseField_some rfl h

theorem parseTimes_kisIllegal (h : 0 < s.n) (hk : frameK s.inByte ≠ 0x00 ∧ frameK s.inByte ≠ 0x08) (k : Nat) :
    Yields (s.EndedWith .notSupported) (parseTimes (k + 1) (s.modEng Engine.parseStart)) :=
  parseTimes_raised (f := fun e => { Engine.parseStart e with kis := frameK s.inByte }) rfl
    ((parseField_kisByte h).trans (headerByte_kis_other hk _)) (sameVisible_refl s.eng) k

section
variable (hk : frameK s.inByte = 0x00 ∨ frameK s.inByte = 0x08)
include hk

theorem parseTimes_keyIdShort (h : 0 < s.n) (hn : s.n ≤ 1 + (frameK s.inByte).toNat) (k : Nat) :
    Yields (s.EndedWith .fileCorrupt) (parseTimes (k + 1) (s.modEng Engine.parseStart)) := by
  have short : s.n ≤ 0 + 1 + (frameK s.inByte).toNat := by omega
  exact parseTimes_raised (f := fun e => { Engine.parseStart e with kis := frameK s.inByte, p := 1 }) rfl
    ((parseField_kisByte h).trans ((headerByte_kis hk _).trans (takeKeyId_short short))) (sameVisible_refl s.eng) k

theorem parseTimes_keyIdTaken (hn : 1 + (frameK s.inByte).toNat < s.n) (k : Nat) :
    parseTimes (k + 1) (s.modEng Engine.parseStart) = parseTimes k s.keyIdTaken := by
  have taken : parseField (s.modEng Engine.parseStart) = .next s.keyIdTaken := by
    rw [parseField_kisByte (by omega), headerByte_kis hk,
      takeKeyId_ok (show 0 + 1 + (frameK s.inByte).toNat < s.n by omega)]
    rfl
  rw [parseTimes, inPhase_pos (by rfl), taken, andThen_next]

end

theorem parseField_ivsByte (h : 1 + (frameK s.inByte).toNat < s.n) :
    parseField s.keyIdTaken = headerByte .ivs (frameV s.inByte) s.keyIdTaken := parseField_some rfl h

theorem parseTimes_ivsIllegal (h : 1 + (frameK s.inByte).toNat < s.n)
    (hv : frameV s.inByte ≠ 0x04 ∧ frameV s.inByte ≠ 0x08) (k : Nat) :
    Yields (s.EndedWith .notSupported) (parseTimes (k + 1) s.keyIdTaken) :=
  parseTimes_raised (f := fun _ => { s.keyIdTaken.eng with ivs := frameV s.inByte }) rfl
    ((parseField_ivsByte h).trans (headerByte_ivs_other hv _)) (sameVisible_refl s.eng) k

section
variable (hv : frameV s.inByte = 0x04 ∨ frameV s.inByte = 0x08)
include hv

theorem parseTimes_ivShort (h : 1 + (frameK s.inByte).toNat < s.n)
    (hn : s.n ≤ 2 + (frameK s.inByte).toNat + (frameV s.inByte).toNat) (k : Nat) :
    Yields (s.EndedWith .fileCorrupt) (parseTimes (k + 1) s.keyIdTaken) := by
  have short : s.n ≤ 1 + (frameK s.inByte).toNat + 1 + (frameV s.inByte).toNat := by omega
  exact parseTimes_raised (f := fun _ => { s.keyIdTaken.eng with ivs := frameV s.inByte, p := s.keyIdTaken.eng.p + 1 })
    rfl ((parseField_ivsByte h).trans ((headerByte_ivs hv _).trans (takeIv_short short))) (sameVisible_refl s.eng) k

theorem parseTimes_ivTaken (hn : 2 + (frameK s.inByte).toNat + (frameV s.inByte).toNat < s.n) (k : Nat) :
    parseTimes (k + 1) s.keyIdTaken = parseTimes k s.ivTaken := by
  have hp : s.keyIdTaken.eng.p + 1 = 2 + (frameK s.inByte).toNat := by
    show 1 + (frameK s.inByte).toNat + 1 = _
    omega
  have taken : parseField s.keyIdTaken = .next s.ivTaken := by
    rw [parseField_ivsByte (by omega), headerByte_ivs hv, takeIv_ok (by rw [hp]; exact hn), hp]
    rfl
  rw [parseTimes, inPhase_pos (by rfl), taken, andThen_next]

end

theorem parseTimes_markerIllegal (h : 2 + (frameK s.inByte).toNat + (frameV s.inByte).toNat < s.n)
    (hm : frameM s.inByte ≠ 0x53 ∧ frameM s.inByte ≠ 0x41) (k : Nat) :
    Yields (s.EndedWith .notSupported) (parseTimes (k + 1) s.ivTaken) :=
  parseTimes_raised (f := fun _ => { s.ivTaken.eng with marker := frameM s.inByte }) rfl
    ((parseField_some rfl h).trans (headerByte_marker_other hm (show Phase.parse ≠ .setup by decide)))
    (sameVisible_refl s.eng) k

end

/-- PARSE ends the command with the status of the first check that fails (R133). -/
theorem execParse_rejected {c : StatusCode} {s : State} (h : frameStatus s.n s.inByte = some c) :
    Yields (s.EndedWith c) (execParse s) := by
  rw [execParse, parseFields_eq_parseTimes]
  unfold frameStatus at h
  split at h
  next h0 => cases h; exact parseTimes_noInput h0 2
  next h0 =>
  replace h0 : 0 < s.n := Nat.pos_of_ne_zero h0
  split at h
  next hk => cases h; exact parseTimes_kisIllegal h0 hk 2
  next hk =>
  rw [← or_iff_not_and_not] at hk
  split at h
  next hn => cases h; exact parseTimes_keyIdShort hk h0 hn 2
  next hn =>
  rw [not_le] at hn
  rw [parseTimes_keyIdTaken hk hn]
  split at h
  next hv => cases h; exact parseTimes_ivsIllegal hn hv 1
  next hv =>
  rw [← or_iff_not_and_not] at hv
  split at h
  next hlen => cases h; exact parseTimes_ivShort hv hn hlen 1
  next hlen =>
  rw [not_le] at hlen
  rw [parseTimes_ivTaken hv hlen]
  split at h
  next hm => cases h; exact parseTimes_markerIllegal hlen hm 0
  next => cases h

/-! ### DECRYPT up to LOOKUP -/

/-- A DECRYPT with everything still to do runs PARSE and the phases behind it (R210). -/
theorem execDecrypt_fresh {s : State} (h : s.Fresh) :
    execDecrypt s = andThen (parsePhase (s.modEng Engine.parseStart)) (runPhases decryptPhases.tail) := by
  have begun : execDecrypt (s.modEng Engine.parseStart)
      = andThen (parsePhase (s.modEng Engine.parseStart)) (runPhases decryptPhases.tail) :=
    (execDecrypt_eq_runPhases (show Phase.parse ≠ .idle by decide)).trans
      (congrArg (andThen · (runPhases decryptPhases.tail)) (inPhase_pos rfl))
  rcases h with ⟨hp, hd⟩ | ⟨hp, h0, hf⟩
  · have start : inPhase .idle decryptStart s = .next (s.modEng Engine.parseStart) :=
      (inPhase_pos hp).trans (if_neg (by simp [hd]))
    rw [← begun, execDecrypt_eq, execDecrypt_eq, start, inPhase_neg (show Phase.parse ≠ .idle by decide)]
  · have same : s.modEng Engine.parseStart = s := by
      show { s with eng := { s.eng with phase := .parse, p := 0, field := some .kis } } = s
      rw [← hp, ← h0, ← hf]
    rw [← begun, same]

/-- A phase that ends the command ends DECRYPT. -/
theorem runPhases_ended {c : StatusCode} {s : State} {o : Result} {l : List (Phase × (State → Result))}
    (hl : Phase.idle ∉ l.map Prod.fst) (h : Yields (s.EndedWith c) o) : Yields (s.EndedWith c) (andThen o (runPhases l)) :=
  h.andThen fun t ht => ⟨t, runPhases_none (by rwa [ht.idle]), ht⟩

/-- A header that PARSE rejects ends DECRYPT with PARSE's status (R211). -/
theorem execDecrypt_rejected {c : StatusCode} {s : State} (hs : s.Fresh) (h : frameStatus s.n s.inByte = some c) :
    Yields (s.EndedWith c) (execDecrypt s) := by
  rw [execDecrypt_fresh hs]
  refine runPhases_ended (by decide) ((execParse_rejected h).andThen fun t ht => ⟨t, ?_, ht⟩)
  rw [inPhase_neg (by rw [ht.idle]; decide)]

/-- What is left of a DECRYPT from its capacity check on (R210). -/
def decryptFromCap (s : State) : Result := andThen (decryptCap s) (runPhases decryptPhases.tail.tail)

/-- A payload longer than the output buffer ends DECRYPT at the capacity check (R212). -/
theorem decryptFromCap_long {s : State} (h : s.cap < s.plen) :
    Yields (s.EndedWith .insufficientBuffer) (decryptFromCap s) := by
  rw [decryptFromCap, decryptCap_long h]
  exact runPhases_ended (by decide) (.next (endedWith_raise _ s))

/-- A keyId that is not found ends DECRYPT at LOOKUP (R213). -/
theorem decryptFromCap_notFound {s : State} (hcap : s.plen ≤ s.cap) (hkey : lookupKey s.cfg.keyTable s.eng.keyId = none) :
    Yields (s.EndedWith .fileEncrypted) (decryptFromCap s) := by
  rw [decryptFromCap, decryptCap_fits hcap, andThen_next]
  show Yields _ (andThen (inPhase .lookup lookupPhase _) (runPhases decryptPhases.tail.tail.tail))
  rw [inPhase_pos (by rfl), lookupPhase_notFound (s := s.modEng fun e => { e with phase := .lookup }) hkey,
    State.modEng_modEng]
  exact runPhases_ended (by decide) (raiseStatus_ends (sameVisible_refl s.eng))

/-- The machine with an accepted header, before the capacity check. -/
def State.parsed (s : State) : State := s.headerTaken.modEng fun e => { e with phase := .checkCap }

section
variable {s : State} (h : frameStatus s.n s.inByte = none)
include h

theorem parsePhase_accepted : parsePhase (s.modEng Engine.parseStart) = .next s.parsed := by
  show andThen (execParse s) _ = _
  rw [execParse_accepted (headerLegal_of_frameStatus h), andThen_next, inPhase_pos (by rfl)]
  rfl

/-- A DECRYPT whose header PARSE accepts comes to its capacity check. -/
theorem execDecrypt_accepted (hs : s.Fresh) : execDecrypt s = decryptFromCap s.parsed := by
  rw [execDecrypt_fresh hs, parsePhase_accepted h]
  rfl

/-- PARSE has changed nothing visible, so what ends the command after it leaves the same. -/
theorem endedWith_of_parsed {c : StatusCode} {t : State} (ht : s.parsed.EndedWith c t) : s.EndedWith c t := by
  have moved : (s.modEng Engine.parseStart).Moved .checkCap s.parsed := parsePhase_moved rfl _ (parsePhase_accepted h)
  have goes : (s.modEng Engine.parseStart).eng.GoesTo .checkCap s.parsed.eng :=
    moved.goes.resolve_right fun he => nomatch he.phase
  obtain ⟨hoperands, hlen, -, -, hfatal, -⟩ := goes.visible
  exact EndedWith.of_around ht moved.mem moved.around hoperands hlen hfatal

end

/-! ### A frame without a keyId -/

theorem frameStatus_some {n : Nat} {inp : Nat → Byte} {c : StatusCode} (h : frameStatus n inp = some c) :
    c = .fileCorrupt ∨ c = .notSupported := by
  unfold frameStatus at h
  split_ifs at h <;> cases h <;> simp

/-- keyIdSize 0 is the keyId 0 (R102), which LOOKUP never finds (R121). -/
theorem lookupKey_frame_noKeyId {inp : Nat → Byte} (h : frameK inp = 0x00) (t : List KeyEntry) :
    lookupKey t (frameKeyId inp) = none := by
  have hid : frameKeyId inp = 0 := by
    unfold frameKeyId
    rw [h]
    rfl
  rw [hid, lookupKey_zero]

/-- A DECRYPT of a frame without a keyId ends in PARSE, at the capacity check or at LOOKUP. -/
theorem execDecrypt_noKeyId {s : State} (hs : s.Fresh) (hk : frameK s.inByte = 0x00) :
    ∃ c, (c = .fileCorrupt ∨ c = .notSupported ∨ c = .insufficientBuffer ∨ c = .fileEncrypted) ∧
      Yields (s.EndedWith c) (execDecrypt s) := by
  cases hstatus : frameStatus s.n s.inByte with
  | some c =>
    have hc : c = .fileCorrupt ∨ c = .notSupported := frameStatus_some hstatus
    exact ⟨c, hc.imp_right .inl, execDecrypt_rejected hs hstatus⟩
  | none =>
    rw [execDecrypt_accepted hstatus hs]
    rcases Nat.lt_or_ge s.parsed.cap s.parsed.plen with hcap | hcap
    · exact ⟨.insufficientBuffer, by simp,
        (decryptFromCap_long hcap).imp fun _ => .imp_right (endedWith_of_parsed hstatus)⟩
    · have hkey : lookupKey s.parsed.cfg.keyTable s.parsed.eng.keyId = none := lookupKey_frame_noKeyId hk _
      exact ⟨.fileEncrypted, by simp,
        (decryptFromCap_notFound hcap hkey).imp fun _ => .imp_right (endedWith_of_parsed hstatus)⟩

/-- Settles O34: PARSE, the capacity check or LOOKUP ends such a DECRYPT, each with its status. -/
theorem noKeyIdNoDecryption : Obligations.NoKeyIdNoDecryption := by
  unfold Obligations.NoKeyIdNoDecryption
  intro s hs hk
  obtain ⟨c, hc, t, ht, hmem, -, -, hlen, hfatal, hcode, -⟩ := execDecrypt_noKeyId hs hk
  have bounds : 1 ≤ c.bits.toNat ∧ c.bits.toNat ≤ 4 := by rcases hc with rfl | rfl | rfl | rfl <;> decide
  exact ⟨t, ht, hcode ▸ bounds.1, hcode ▸ bounds.2, hmem, hlen, hfatal⟩

end Sys2Proof.Machine
end

section
/-! SUPPORT. PARSE and its size bytes by their outcomes (41_header_parser.md R130 to R134): a field inside the input is
taken, one that reaches its end or past it ends the command with FileCorrupt (R132). -/

namespace Sys2Proof.Machine

/-- Settles O24: by the two outcomes of PARSE. -/
theorem parseHeader : Obligations.ParseHeader := by
  unfold Obligations.ParseHeader
  exact fun s => ⟨fun _ h => execParse_rejected h, fun h => execParse_accepted (headerLegal_of_frameStatus h)⟩

theorem takeKeyId_short_ends {k : Byte} {s : State} (h : s.n ≤ s.eng.p + 1 + k.toNat) :
    Yields (s.EndedWith .fileCorrupt) (takeKeyId k s) := by
  rw [takeKeyId_short h]
  exact raiseStatus_ends (sameVisible_refl s.eng)

theorem takeIv_short_ends {v : Byte} {s : State} (h : s.n ≤ s.eng.p + 1 + v.toNat) :
    Yields (s.EndedWith .fileCorrupt) (takeIv v s) := by
  rw [takeIv_short h]
  exact raiseStatus_ends (sameVisible_refl s.eng)

/-- Settles O26: both bytes are `takeKeyId`, which the bound of R132 decides; no bytes are the keyId 0 and eight are
KEYID's own (`le64_byte`). -/
theorem keyIdSizeByte : Obligations.KeyIdSizeByte := by
  unfold Obligations.KeyIdSizeByte
  refine fun s => ⟨fun h => ?taken0, fun h => ?short0, fun h => ?taken8, fun h => ?short8⟩
  case taken0 => exact takeKeyId_ok (k := 0x00) h
  case short0 => exact takeKeyId_short_ends (k := 0x00) h
  case taken8 => exact ⟨_, takeKeyId_ok (k := 0x08) h, le64_byte _⟩
  case short8 => exact takeKeyId_short_ends (k := 0x08) h

/-- Settles O27: both bytes are `takeIv`, which the bound of R132 decides. -/
theorem ivSizeByte : Obligations.IvSizeByte := by
  unfold Obligations.IvSizeByte
  refine fun s => ⟨fun h => ?taken4, fun h => ?short4, fun h => ?taken8, fun h => ?short8⟩
  case taken4 => exact ⟨_, takeIv_ok (v := 0x04) h, fun _ hi => Vector.getElem_ofFn hi⟩
  case short4 => exact takeIv_short_ends (v := 0x04) h
  case taken8 => exact ⟨_, takeIv_ok (v := 0x08) h, fun _ hi => (Vector.getElem_ofFn hi).trans (if_pos hi)⟩
  case short8 => exact takeIv_short_ends (v := 0x08) h

end Sys2Proof.Machine
end

section
/-! SUPPORT. Where a running DECRYPT stands in its header (`Engine.HeaderInv`; 41_header_parser.md R130, R134, R135) along
every step: an engine step moves it on, a command that has ended has no place, and the host changes no running command
(44_dispatch.md R221). -/

namespace Sys2Proof.Machine

/-! ### The place in the header -/

/-- The place of a DECRYPT in PARSE by the field it decodes next, none when the header is complete (R130). -/
def Engine.HeaderPlace (e : Engine) : Option FrameField → Prop
  | some .kis => e.p = 0
  | some .ivs => (e.kis = 0x00 ∨ e.kis = 0x08) ∧ e.p = 1 + e.kis.toNat ∧ e.p < e.inLen.toNat
  | some .marker =>
    (e.kis = 0x00 ∨ e.kis = 0x08) ∧ (e.ivs = 0x04 ∨ e.ivs = 0x08) ∧ e.p = 2 + e.kis.toNat + e.ivs.toNat ∧
      e.p < e.inLen.toNat
  | none => e.HeaderComplete

theorem headerInv_parse {e : Engine} {f : Option FrameField} (hp : e.phase = .parse) (hf : e.field = f) :
    e.HeaderInv ↔ (e.busy = true → e.op = 0x00000001 → e.HeaderPlace f) := by
  subst hf
  rw [Engine.HeaderInv, hp]
  cases e.field with
  | none => exact Iff.rfl
  | some f => cases f <;> exact Iff.rfl

theorem headerInv_of_notBusy {e : Engine} (h : e.busy = false) : e.HeaderInv := fun hb => by
  rw [h] at hb
  cases hb

theorem headerInv_of_otherCommand {e : Engine} (h : e.op ≠ 0x00000001) : e.HeaderInv := fun _ hop => absurd hop h

/-- A command that has ended has no place in a header. -/
theorem raiseStatus_header (c : StatusCode) (s : State) : Sat (fun t => t.eng.HeaderInv) (raiseStatus c s) :=
  sat_next.2 (headerInv_of_notBusy rfl)

theorem raiseFatal_header (s : State) : Sat (fun t => t.eng.HeaderInv) (raiseFatal s) :=
  sat_next.2 (headerInv_of_notBusy rfl)

/-- An accepted command stands at the start of its header, or it has none (R219). -/
theorem headerInv_started (v : Word) (e : Engine) : (e.started v).HeaderInv := by
  unfold Engine.started
  split
  · exact (headerInv_parse rfl rfl).2 fun _ _ => rfl
  split
  · exact headerInv_of_otherCommand (show (0x00000002 : Word) ≠ 0x00000001 by decide)
  · exact headerInv_of_notBusy rfl

/-! ### PARSE, field by field: a field that is taken ends inside the input (R132) -/

section
variable {s : State} (hp : s.eng.phase = .parse)
include hp

theorem takeKeyId_header {k : Byte} (hk : k = 0x00 ∨ k = 0x08) (hplace : s.eng.HeaderPlace (some .kis)) :
    Sat (fun t => t.eng.HeaderInv) (takeKeyId k s) := by
  have h0 : s.eng.p = 0 := hplace
  rcases Nat.lt_or_ge (s.eng.p + 1 + k.toNat) s.n with hn | hn
  · rw [takeKeyId_ok hn]
    have hpos : s.eng.p + 1 + k.toNat = 1 + k.toNat := by omega
    exact sat_next.2 ((headerInv_parse (by exact hp) rfl).2 fun _ _ => ⟨hk, hpos, hn⟩)
  · rw [takeKeyId_short hn]
    exact raiseStatus_header _ _

theorem takeIv_header {v : Byte} (hv : v = 0x04 ∨ v = 0x08) (hplace : s.eng.HeaderPlace (some .ivs)) :
    Sat (fun t => t.eng.HeaderInv) (takeIv v s) := by
  obtain ⟨hk, hpos, -⟩ := hplace
  rcases Nat.lt_or_ge (s.eng.p + 1 + v.toNat) s.n with hn | hn
  · rw [takeIv_ok hn]
    have hpos' : s.eng.p + 1 + v.toNat = 2 + s.eng.kis.toNat + v.toNat := by omega
    exact sat_next.2 ((headerInv_parse (by exact hp) rfl).2 fun _ _ => ⟨hk, hv, hpos', hn⟩)
  · rw [takeIv_short hn]
    exact raiseStatus_header _ _

theorem takeMarker_header {m : Byte} (hm : m = 0x53 ∨ m = 0x41) (hplace : s.eng.HeaderPlace (some .marker)) :
    Sat (fun t => t.eng.HeaderInv) (takeMarker m s) := by
  obtain ⟨hk, hv, hpos, hn⟩ := hplace
  have hpoff : s.eng.p + 1 = 3 + s.eng.kis.toNat + s.eng.ivs.toNat := by omega
  exact sat_next.2 ((headerInv_parse (by exact hp) rfl).2 fun _ _ => ⟨hk, hv, hm, hpoff, hn⟩)

theorem headerByte_header {f : FrameField} (b : Byte) (hplace : s.eng.HeaderPlace (some f)) :
    Sat (fun t => t.eng.HeaderInv) (headerByte f b s) := by
  have hsetup : s.eng.phase ≠ .setup := by rw [hp]; decide
  cases f with
  | kis =>
    by_cases hb : b = 0x00 ∨ b = 0x08
    · rw [headerByte_kis hb]; exact takeKeyId_header hp hb hplace
    · rw [headerByte_kis_other (not_or.1 hb)]; exact raiseStatus_header _ _
  | ivs =>
    by_cases hb : b = 0x04 ∨ b = 0x08
    · rw [headerByte_ivs hb]; exact takeIv_header hp hb hplace
    · rw [headerByte_ivs_other (not_or.1 hb)]; exact raiseStatus_header _ _
  | marker =>
    by_cases hb : b = 0x53 ∨ b = 0x41
    · rw [headerByte_marker hb hsetup]; exact takeMarker_header hp hb hplace
    · rw [headerByte_marker_other (not_or.1 hb) hsetup]; exact raiseStatus_header _ _

theorem parseField_header {f : FrameField} (hf : s.eng.field = some f) (hplace : s.eng.HeaderPlace (some f)) :
    Sat (fun t => t.eng.HeaderInv) (parseField s) := by
  rcases Nat.lt_or_ge s.eng.p s.n with hn | hn
  · rw [parseField_some hf hn]; exact headerByte_header hp _ hplace
  · rw [parseField_short hf hn]; exact raiseStatus_header _ _

end

/-! ### The phases after PARSE: no header register is written any more -/

section
variable {s : State} (h : s.eng.HeaderComplete)
include h

theorem decryptCap_header : Sat (fun t => t.eng.HeaderInv) (decryptCap s) := by
  rcases Nat.lt_or_ge s.cap s.plen with hc | hc
  · rw [decryptCap_long hc]; exact raiseStatus_header _ _
  · rw [decryptCap_fits hc]; exact sat_next.2 fun _ _ => h

theorem lookupPhase_header : Sat (fun t => t.eng.HeaderInv) (lookupPhase s) := by
  cases hk : lookupKey s.cfg.keyTable s.eng.keyId with
  | none => rw [lookupPhase_notFound hk]; exact raiseStatus_header _ _
  | some k => rw [lookupPhase_found hk]; exact sat_next.2 fun _ _ => h

theorem derivePhase_header : Sat (fun t => t.eng.HeaderInv) (derivePhase s) := sat_next.2 fun _ _ => h

/-- Only the marker 'S' goes on to XOR_STREAM (R215). -/
theorem setupPhase_header (hp : s.eng.phase = .setup) : Sat (fun t => t.eng.HeaderInv) (setupPhase s) := by
  rw [setupPhase_eq hp]
  split
  next hm => exact checkContract_sat (sat_next.2 fun _ _ => ⟨h, hm⟩)
  · exact raiseFatal_header s

end

/-- One engine step of a running DECRYPT. -/
theorem phaseStep_header {s : State} (hb : s.eng.busy = true) (hop : s.eng.op = 0x00000001) (hidle : s.eng.phase ≠ .idle)
    (hcopy : s.eng.phase ≠ .copy) (h : s.eng.HeaderInv) : Sat (fun t => t.eng.HeaderInv) (phaseStep s) := by
  have place := h hb hop
  cases hp : s.eng.phase with
  | idle => exact absurd hp hidle
  | copy => exact absurd hp hcopy
  | parse =>
    rw [phaseStep, hp]
    cases hf : s.eng.field with
    | none =>
      have complete : s.eng.HeaderComplete := (headerInv_parse hp hf).1 h hb hop
      exact sat_next.2 fun _ _ => complete
    | some f => exact parseField_header hp hf ((headerInv_parse hp hf).1 h hb hop)
  | checkCap =>
    rw [hp] at place
    rw [phaseStep, hp]
    dsimp only
    rw [if_pos hop]
    exact decryptCap_header place
  | lookup => rw [hp] at place; rw [phaseStep, hp]; exact lookupPhase_header place
  | derive => rw [hp] at place; rw [phaseStep, hp]; exact derivePhase_header place
  | setup => rw [hp] at place; rw [phaseStep, hp]; exact setupPhase_header place hp
  | stream =>
    rw [phaseStep, hp]
    exact (streamPhase_finishes s).mono fun t ht => headerInv_of_notBusy ht.ends.busy

theorem engineStep_header {s : State} (hinv : s.Inv) (h : s.eng.HeaderInv) :
    Sat (fun t => t.eng.HeaderInv) (engineStep s) := by
  cases hb : s.eng.busy with
  | false => rw [engineStep_notBusy hb]; exact sat_next.2 h
  | true =>
    have hown : OwnPhase s.eng.op s.eng.phase := (hinv.eng.running hb).1
    by_cases hop : s.eng.op = 0x00000001
    · have hcopy : s.eng.phase ≠ .copy := (hown.2.resolve_right fun ⟨h2, _⟩ => absurd (hop.symm.trans h2) (by decide)).2
      rw [engineStep_busy hb]
      exact phaseStep_header hb hop hown.1 hcopy h
    · refine (engineStep_progress ⟨hb, hown⟩).mono fun t ⟨_, hop', _⟩ => headerInv_of_otherCommand ?_
      rwa [hop']

/-! ### Every engine -/

/-- Every engine stands in its header as `Engine.HeaderInv` says. -/
abbrev State.HeadersInv (s : State) : Prop := ∀ e ∈ s.engines, e.HeaderInv

/-- Only the selected engine has changed. -/
theorem State.HeadersInv.around {s t : State} (h : s.HeadersInv) (ha : s.SameAround t) (he : t.eng.HeaderInv) :
    t.HeadersInv := by
  obtain ⟨-, hl, hr, -⟩ := ha
  simp only [State.HeadersInv, State.engines, List.forall_mem_append, List.forall_mem_cons] at h ⊢
  obtain ⟨hleft, -, hright⟩ := h
  rw [hl, hr]
  exact ⟨hleft, he, hright⟩

theorem engineStep_around {s : State} (h : s.Inv) : Sat s.SameAround (engineStep s) := by
  cases hb : s.eng.busy with
  | false => rw [engineStep_notBusy hb]; exact sat_next.2 (sameAround_refl s)
  | true =>
    rw [engineStep_busy hb]
    exact (phaseStep_sat (h.eng.running hb).1.1).mono fun t ht =>
      ht.elim (fun ⟨_, _, moved⟩ => moved.around) fun finishes => finishes.around

theorem engineStep_headers {s : State} (hinv : s.Inv) (h : s.HeadersInv) : Sat State.HeadersInv (engineStep s) :=
  fun t ht => h.around (engineStep_around hinv t ht) (engineStep_header hinv (h _ s.mem_engines_self) t ht)

theorem engineSteps_headers (n : Nat) : ∀ {s : State}, s.Inv → s.HeadersInv → Sat State.HeadersInv (engineSteps n s) := by
  induction n with
  | zero => exact fun _ h => sat_next.2 h
  | succ n ih =>
    intro s hinv h t ht
    obtain ⟨u, hu, hrest⟩ := andThen_eq_next.1 ht
    exact ih (engineStep_inv hinv u hu) (engineStep_headers hinv h u hu) t hrest

/-- A running command's run to its end is so many engine steps. -/
theorem engineRun_eq_engineSteps {s : State} (h : s.Inv) (hb : s.eng.busy = true) :
    ∃ n, engineRun s = engineSteps n s := by
  obtain ⟨⟨hidle, ⟨hop, hcopy⟩ | ⟨hop, hph⟩⟩, -⟩ := h.eng.running hb
  · exact ⟨9, by rw [engineSteps_decrypt hb hop hidle hcopy, engineRun, hop]; rfl⟩
  · exact ⟨2, by rw [engineSteps_directCopy hb hop hph, engineRun, hop]; rfl⟩

theorem engineRun_headers {s : State} (hinv : s.Inv) (hb : s.eng.busy = true) (h : s.HeadersInv) :
    Sat State.HeadersInv (engineRun s) := by
  obtain ⟨n, hn⟩ := engineRun_eq_engineSteps hinv hb
  rw [hn]
  exact engineSteps_headers n hinv h

theorem selectEngine_headers (k : Nat) {s : State} (h : s.HeadersInv) : Sat State.HeadersInv (selectEngine k s) :=
  (selectEngine_sat k s).mono fun t ⟨hall, _, _⟩ => by rwa [State.HeadersInv, hall]

theorem selectEngine_firstBusy {s : State} {k : Nat} (h : s.firstBusy = some k) :
    Sat (fun t => t.eng.busy = true) (selectEngine k s) := by
  obtain ⟨e, he, hb⟩ := busy_of_firstBusy h
  refine (selectEngine_sat k s).mono fun t ⟨_, hk, _⟩ => ?_
  rwa [Option.some.inj (hk.symm.trans he)]

theorem enginesRun_headers {s : State} (hinv : s.Inv) (h : s.HeadersInv) : Sat State.HeadersInv (enginesRun s) := by
  unfold enginesRun
  split
  next hb => exact engineRun_headers hinv hb h
  split
  next k hk =>
    intro t ht
    obtain ⟨u, hu, hrun⟩ := andThen_eq_next.1 ht
    obtain ⟨v, hv, hback⟩ := andThen_eq_next.1 hrun
    have huInv : u.Inv := (selectEngine_inv k hinv u hu).1
    have hvHeaders : v.HeadersInv :=
      engineRun_headers huInv (selectEngine_firstBusy hk u hu) (selectEngine_headers k h u hu) v hv
    exact selectEngine_headers _ hvHeaders t hback
  · exact sat_next.2 h

/-! ### The host -/

theorem writeReg_busy (c : Config) (off : Nat) (v : Word) (e : Engine) : (Engine.writeReg c off v e).busy = e.busy := by
  unfold Engine.writeReg
  split <;> rfl

/-- A register write changes no running command: it is ignored, or the engine was not busy (R219 to R221). -/
theorem execRegWrite_headers (size off : Nat) (v : Word) {s : State} (h : s.HeadersInv) :
    Sat State.HeadersInv (execRegWrite size off v s) := by
  refine (execRegWrite_sat size off v s).mono fun t ht => ?_
  rcases ht with rfl | ⟨hb, rfl | ⟨-, -, rfl⟩⟩
  · exact h
  · exact h.around (sameAround_refl s) (headerInv_of_notBusy ((writeReg_busy ..).trans hb))
  · exact h.around (sameAround_refl s) (headerInv_started v s.eng)

/-- No command runs after a reset (R270). -/
theorem hostReset_headers (s : State) : Sat State.HeadersInv (hostReset s) := by
  refine (hostReset_sat s).mono ?_
  rintro _ ⟨u, -, rfl⟩
  rw [State.HeadersInv, engines_resetEngines, List.forall_mem_map]
  exact fun _ _ => headerInv_of_notBusy rfl

theorem hostStep_headers (ev : HostEvent) {s : State} (hinv : s.Inv) (h : s.HeadersInv) :
    Sat State.HeadersInv (hostStep ev s) := by
  cases ev with
  | access a =>
    rw [hostStep_access]
    split
    · exact execRegWrite_headers _ _ _ h
    · exact (execRegRead_sat _ _ s).mono fun t ht => by rw [ht]; exact h
  | wait =>
    unfold hostStep
    dsimp only
    split
    · exact sat_next.2 h
    · exact enginesRun_headers hinv h
  | memWrite a b => exact (hostWrite_sat a b s).mono fun t ⟨_, ht⟩ => by rw [ht]; exact h
  | memRead a => exact (hostRead_sat a s).mono fun t ht => by rw [ht]; exact h
  | reset => exact hostReset_headers s
  | select k => exact selectEngine_headers k h
  | engineTurn => exact engineStep_headers hinv h

/-- Settles O42: an engine step moves a DECRYPT on in its header, a command run to its end is so many engine steps, and
each event of the host leaves the running commands where they stand. -/
theorem stepKeepsHeader : Obligations.StepKeepsHeader := by
  unfold Obligations.StepKeepsHeader
  intro s t hinv h ht
  cases hs : s.script with
  | nil =>
    rw [step_noEvent hs] at ht
    exact enginesRun_headers hinv h t ht
  | cons ev rest =>
    rw [step_event hs] at ht
    exact hostStep_headers ev (s := { s with script := rest }) hinv h t ht

end Sys2Proof.Machine
end

section
/-! SUPPORT. The IV mixer DERIVE_IV (42_iv_derivation.md R160, R161): the effective IV byte by byte and as two words. -/

namespace Sys2Proof.Machine

theorem mixIv_get_low (iv : Vector Byte 8) (fi : Word) {i : Nat} (h : i < 4) :
    (mixIv iv fi)[i] = iv[i] ^^^ byteOf i fi := by
  rw [mixIv_get, if_pos h]

theorem mixIv_get_high (iv : Vector Byte 8) (fi : Word) {i : Nat} (h : i < 8) (hi : 4 ≤ i) :
    (mixIv iv fi)[i] = iv[i] := by
  rw [mixIv_get, if_neg (Nat.not_lt.2 hi)]

/-- Settles O13: what EIV receives is `mixIv`, whose low and high bytes have their laws. -/
theorem deriveIvBytes : Obligations.DeriveIvBytes := by
  unfold Obligations.DeriveIvBytes
  exact fun s => ⟨mixIv s.eng.baseIv s.eng.frameIndex, rfl, fun _ h => mixIv_get_low _ _ h,
    fun _ h hi => mixIv_get_high _ _ h hi⟩

/-- A word that lies inside a vector is assembled from the vector's bytes (R12). -/
theorem le32at_toList {n : Nat} (v : Vector Byte n) (k : Nat) (h : k + 3 < n) :
    le32at v.toList k = le32 v[k] v[k + 1] v[k + 2] v[k + 3] := by
  have byteAt (i : Nat) (hi : i < n) : v.toList.getD i 0 = v[i] := by
    rw [List.getD_eq_getElem _ _ (by simpa using hi), Vector.getElem_toList]
  rw [le32at, byteAt, byteAt, byteAt, byteAt]

/-- R161 (f), the matrix word `X[6]`. -/
theorem mixIv_word_zero (iv : Vector Byte 8) (fi : Word) :
    le32at (mixIv iv fi).toList 0 = le32at iv.toList 0 ^^^ fi := by
  have bytes : le32at (mixIv iv fi).toList 0 =
      le32 (iv[0] ^^^ byteOf 0 fi) (iv[1] ^^^ byteOf 1 fi) (iv[2] ^^^ byteOf 2 fi) (iv[3] ^^^ byteOf 3 fi) := by
    simp only [le32at_toList _ 0 (show 0 + 3 < 8 by decide), Nat.zero_add, mixIv_get_low, Nat.reduceLT]
  rw [bytes, le32_xor, le32_leBytes, le32at_toList iv 0 (by decide)]

/-- R161 (f), the matrix word `X[7]`. -/
theorem mixIv_word_four (iv : Vector Byte 8) (fi : Word) :
    le32at (mixIv iv fi).toList 4 = le32at iv.toList 4 := by
  simp only [le32at_toList _ 4 (show 4 + 3 < 8 by decide), mixIv_get_high, Nat.reduceLeDiff, Nat.reduceAdd]

/-- R161 (e): XOR is its own inverse. -/
theorem mixIv_mixIv (iv : Vector Byte 8) (fi : Word) : mixIv (mixIv iv fi) fi = iv := by
  refine Vector.ext fun i hi => ?_
  rcases Nat.lt_or_ge i 4 with h | h
  · rw [mixIv_get_low _ _ h, mixIv_get_low _ _ h, BitVec.xor_assoc, BitVec.xor_self, BitVec.xor_zero]
  · rw [mixIv_get_high _ _ hi h, mixIv_get_high _ _ hi h]

/-- R161 (d): the first word of the effective IV tells the frame index. -/
theorem mixIv_injective (iv : Vector Byte 8) : Function.Injective (mixIv iv) := by
  intro gi fi h
  have words : le32at iv.toList 0 ^^^ gi = le32at iv.toList 0 ^^^ fi := by
    rw [← mixIv_word_zero, ← mixIv_word_zero, h]
  exact (BitVec.xor_right_inj _).1 words

/-- Settles O14: by the two words of the effective IV, the involution and the injectivity. -/
theorem deriveIvWords : Obligations.DeriveIvWords := by
  unfold Obligations.DeriveIvWords
  exact fun iv fi => ⟨mixIv_word_zero iv fi, mixIv_word_four iv fi, mixIv_mixIv iv fi,
    fun _ h => mixIv_injective iv h⟩

end Sys2Proof.Machine
end

section
/-! SUPPORT. The Salsa20 engine's instructions on the matrices (43_salsa20.md R170 to R179): the words KEY_SETUP lays
out, a quarter-round word by word and its inverse, quarter-rounds in any order, the block, the counter. -/

namespace Sys2Proof.Machine

/-! ### KEY_SETUP -/

theorem execKeySetup_bytes {k : List Byte} (h : k.length = 16 ∨ k.length = 32) (s : State) :
    execKeySetup (.bytes k) s = .next (s.modEng fun e => { e with x := keyMatrix k e.eiv.toList }) := if_pos h

/-- The constant words and the upper key words of a 16-byte key (R170, R171). -/
theorem keyMatrix_words_short {k : List Byte} (iv : List Byte) (h : k.length = 16) :
    let x := keyMatrix k iv
    x[0] = 0x61707865 ∧ x[5] = 0x3120646E ∧ x[10] = 0x79622D36 ∧ x[15] = 0x6B206574 ∧
      x[11] = le32at k 0 ∧ x[12] = le32at k 4 ∧ x[13] = le32at k 8 ∧ x[14] = le32at k 12 := by
  have constants : le32at tau 0 = 0x61707865 ∧ le32at tau 4 = 0x3120646E ∧ le32at tau 8 = 0x79622D36 ∧
    le32at tau 12 = 0x6B206574 := by decide
  simpa [keyMatrix, h] using constants

/-- The constant words and the upper key words of a 32-byte key (R170, R171). -/
theorem keyMatrix_words_long {k : List Byte} (iv : List Byte) (h : k.length = 32) :
    let x := keyMatrix k iv
    x[0] = 0x61707865 ∧ x[5] = 0x3320646E ∧ x[10] = 0x79622D32 ∧ x[15] = 0x6B206574 ∧
      x[11] = le32at k 16 ∧ x[12] = le32at k 20 ∧ x[13] = le32at k 24 ∧ x[14] = le32at k 28 := by
  have constants : le32at sigma 0 = 0x61707865 ∧ le32at sigma 4 = 0x3320646E ∧ le32at sigma 8 = 0x79622D32 ∧
    le32at sigma 12 = 0x6B206574 := by decide
  simpa [keyMatrix, h] using constants

/-- Settles O15: the words that depend on the key's length by its two cases, the others by the layout of `keyMatrix`. -/
theorem keySetupMatrix : Obligations.KeySetupMatrix := by
  unfold Obligations.KeySetupMatrix
  intro s
  exact ⟨⟨keyMatrix s.eng.key.toList s.eng.eiv.toList, rfl, execKeySetup_bytes (.inl s.eng.key.size_toArray) s⟩,
    fun k hk => ⟨keyMatrix k s.eng.eiv.toList, execKeySetup_bytes hk s, rfl, rfl, rfl, rfl, rfl, rfl, rfl, rfl,
      keyMatrix_words_short _, keyMatrix_words_long _⟩,
    fun k h16 h32 => if_neg (not_or.2 ⟨h16, h32⟩)⟩

/-! ### QUARTERROUND -/

theorem rotl32_eq_rotateLeft (v : Word) {r : Nat} (h : r < 32) : rotl32 v r = v.rotateLeft r := by
  rw [rotl32, BitVec.rotateLeft_def, Nat.mod_eq_of_lt h]

theorem quarterRound_frame {a b c d i : Fin 16} (h : i ∉ [a, b, c, d]) (z : Matrix16) :
    (quarterRound a b c d z)[i] = z[i] := by
  simp only [List.mem_cons, List.not_mem_nil, or_false, not_or] at h
  obtain ⟨ha, hb, hc, hd⟩ := h
  simp [quarterRound, Vector.getElem_set, Fin.val_inj, Ne.symm ha, Ne.symm hb, Ne.symm hc, Ne.symm hd]

/-- The four words of a quarter-round (R173). -/
theorem quarterRound_words {a b c d : Fin 16} (h : [a, b, c, d].Nodup) (y : Matrix16) :
    let z := quarterRound a b c d y
    z[b] = y[b] ^^^ (y[a] + y[d]).rotateLeft 7 ∧ z[c] = y[c] ^^^ (z[b] + y[a]).rotateLeft 9 ∧
      z[d] = y[d] ^^^ (z[c] + z[b]).rotateLeft 13 ∧ z[a] = y[a] ^^^ (z[d] + z[c]).rotateLeft 18 := by
  have hrev : [d, c, b, a].Nodup := List.nodup_reverse.2 h
  simp only [List.nodup_cons, List.mem_cons, List.not_mem_nil, or_false, not_or] at h hrev
  simp [quarterRound, rotl32_eq_rotateLeft, Fin.val_inj, h, hrev]

/-- A quarter-round of one word and three zeros. -/
theorem quarterRound_single {a b c d : Fin 16} (h : [a, b, c, d].Nodup) {y : Matrix16} {v : Word}
    (ha : y[a] = v) (hb : y[b] = 0) (hc : y[c] = 0) (hd : y[d] = 0) :
    let z := quarterRound a b c d y
    let wb := v.rotateLeft 7
    let wc := (wb + v).rotateLeft 9
    let wd := (wc + wb).rotateLeft 13
    z[a] = v ^^^ (wd + wc).rotateLeft 18 ∧ z[b] = wb ∧ z[c] = wc ∧ z[d] = wd := by
  intro z wb wc wd
  obtain ⟨zb, zc, zd, za⟩ := quarterRound_words h y
  have eb : z[b] = wb := zb.trans (by rw [ha, hb, hd, add_zero]; exact BitVec.zero_xor)
  have ec : z[c] = wc := zc.trans (by rw [eb, ha, hc]; exact BitVec.zero_xor)
  have ed : z[d] = wd := zd.trans (by rw [ec, eb, hd]; exact BitVec.zero_xor)
  exact ⟨za.trans (by rw [ed, ec, ha]), eb, ec, ed⟩

/-- A quarter-round of two matrices is the same on its four words when they agree there. -/
theorem quarterRound_congr {a b c d : Fin 16} (h : [a, b, c, d].Nodup) {y z : Matrix16}
    (hyz : ∀ i ∈ [a, b, c, d], y[i] = z[i]) :
    ∀ i ∈ [a, b, c, d], (quarterRound a b c d y)[i] = (quarterRound a b c d z)[i] := by
  obtain ⟨yb, yc, yd, ya⟩ := quarterRound_words h y
  obtain ⟨zb, zc, zd, za⟩ := quarterRound_words h z
  simp only [List.forall_mem_cons, List.not_mem_nil, false_imp_iff, implies_true, and_true] at hyz ⊢
  obtain ⟨ea, eb, ec, ed⟩ := hyz
  have rb := yb.trans (by rw [ea, eb, ed, ← zb])
  have rc := yc.trans (by rw [rb, ea, ec, ← zc])
  have rd := yd.trans (by rw [rb, rc, ed, ← zd])
  exact ⟨ya.trans (by rw [rc, rd, ea, ← za]), rb, rc, rd⟩

/-- The four words before a quarter-round are told by the four after it (R173), the last written first. -/
theorem quarterRound_words_injective {a b c d : Fin 16} (h : [a, b, c, d].Nodup) {y z : Matrix16}
    (hyz : quarterRound a b c d y = quarterRound a b c d z) : ∀ i ∈ [a, b, c, d], y[i] = z[i] := by
  obtain ⟨yb, yc, yd, ya⟩ := quarterRound_words h y
  obtain ⟨zb, zc, zd, za⟩ := quarterRound_words h z
  rw [hyz] at ya yb yc yd
  have ea : y[a] = z[a] := (BitVec.xor_left_inj _).1 (ya.symm.trans za)
  have ed : y[d] = z[d] := (BitVec.xor_left_inj _).1 (yd.symm.trans zd)
  have ec : y[c] = z[c] := (BitVec.xor_left_inj _).1 (yc.symm.trans (ea ▸ zc))
  have eb : y[b] = z[b] := (BitVec.xor_left_inj _).1 (yb.symm.trans (ea ▸ ed ▸ zb))
  simp only [List.forall_mem_cons, List.not_mem_nil, false_imp_iff, implies_true, and_true]
  exact ⟨ea, eb, ec, ed⟩

/-- A matrix is told by its words at the positions of `l` and by those elsewhere. -/
theorem matrix_ext_on {y z : Matrix16} (l : List (Fin 16)) (hin : ∀ i ∈ l, y[i] = z[i])
    (hout : ∀ i ∉ l, y[i] = z[i]) : y = z :=
  Vector.ext fun i hi => if h : ⟨i, hi⟩ ∈ l then hin _ h else hout _ h

theorem quarterRound_injective {a b c d : Fin 16} (h : [a, b, c, d].Nodup) :
    Function.Injective (quarterRound a b c d) := by
  intro y z hyz
  refine matrix_ext_on [a, b, c, d] (quarterRound_words_injective h hyz) fun i hi => ?_
  rw [← quarterRound_frame hi y, hyz, quarterRound_frame hi z]

/-- Settles O16: by the four words, the frame and the injectivity; the two examples are the four words computed. -/
theorem quarterRoundWords : Obligations.QuarterRoundWords := by
  unfold Obligations.QuarterRoundWords
  intro a b c d h
  refine ⟨fun s => ?_, fun _ _ hyz => quarterRound_injective h hyz⟩
  obtain ⟨zb, zc, zd, za⟩ := quarterRound_words h s.eng.z
  refine ⟨quarterRound a b c d s.eng.z, rfl, zb, zc, zd, za,
    fun i ia ib ic id => quarterRound_frame (by simp [ia, ib, ic, id]) _, fun ha hb hc hd => ?_, fun ha hb hc hd => ?_⟩
  · simpa using quarterRound_single h ha hb hc hd
  · simpa using quarterRound_single h ha hb hc hd

/-! ### The rounds -/

/-- The positions of a quarter-round. -/
abbrev Quad := Fin 16 × Fin 16 × Fin 16 × Fin 16

/-- A quad's four positions. -/
def Quad.places (q : Quad) : List (Fin 16) := [q.1, q.2.1, q.2.2.1, q.2.2.2]

/-- The quarter-round on a quad's positions. -/
def quarterRoundAt (z : Matrix16) (q : Quad) : Matrix16 := quarterRound q.1 q.2.1 q.2.2.1 q.2.2.2 z

/-- The quads of a column round, in R174's order. -/
def columnQuads : List Quad := [(0, 4, 8, 12), (5, 9, 13, 1), (10, 14, 2, 6), (15, 3, 7, 11)]

/-- The quads of a row round, in R175's order. -/
def rowQuads : List Quad := [(0, 1, 2, 3), (5, 6, 7, 4), (10, 11, 8, 9), (15, 12, 13, 14)]

theorem columnRound_eq_foldl (z : Matrix16) : columnRound z = columnQuads.foldl quarterRoundAt z := rfl

theorem rowRound_eq_foldl (z : Matrix16) : rowRound z = rowQuads.foldl quarterRoundAt z := rfl

/-- Quarter-rounds on disjoint positions in either order. -/
theorem quarterRoundAt_comm {p q : Quad} (hp : p.places.Nodup) (hq : q.places.Nodup)
    (hpq : ∀ i ∈ p.places, i ∉ q.places) (z : Matrix16) :
    quarterRoundAt (quarterRoundAt z p) q = quarterRoundAt (quarterRoundAt z q) p := by
  refine matrix_ext_on q.places (fun i hi => ?_) fun i hi => ?_
  · calc (quarterRoundAt (quarterRoundAt z p) q)[i]
      _ = (quarterRoundAt z q)[i] :=
        quarterRound_congr hq (fun j hj => quarterRound_frame (fun hjp => hpq j hjp hj) z) i hi
      _ = (quarterRoundAt (quarterRoundAt z q) p)[i] := (quarterRound_frame (fun hip => hpq i hip hi) _).symm
  · have left : (quarterRoundAt (quarterRoundAt z p) q)[i] = (quarterRoundAt z p)[i] := quarterRound_frame hi _
    refine left.trans ?_
    by_cases hip : i ∈ p.places
    · exact (quarterRound_congr hp (fun j hj => quarterRound_frame (hpq j hj) z) i hip).symm
    · calc (quarterRoundAt z p)[i]
        _ = z[i] := quarterRound_frame hip z
        _ = (quarterRoundAt z q)[i] := (quarterRound_frame hi z).symm
        _ = (quarterRoundAt (quarterRoundAt z q) p)[i] := (quarterRound_frame hip _).symm

/-- Quads of distinct positions, no two of which share one. -/
def Apart (l : List Quad) : Prop := ∀ p ∈ l, p.places.Nodup ∧ ∀ q ∈ l, p = q ∨ ∀ i ∈ p.places, i ∉ q.places

theorem apart_columnQuads : Apart columnQuads := by unfold Apart; decide

theorem apart_rowQuads : Apart rowQuads := by unfold Apart; decide

/-- Quarter-rounds that share no position run in any order. -/
theorem foldl_quarterRoundAt_perm {l l' : List Quad} (hl : Apart l) (h : l'.Perm l) (z : Matrix16) :
    l'.foldl quarterRoundAt z = l.foldl quarterRoundAt z := by
  refine h.foldl_eq' (fun p hp q hq z => ?_) z
  obtain ⟨hpn, hpq⟩ := hl p (h.subset hp)
  obtain ⟨hqn, -⟩ := hl q (h.subset hq)
  rcases hpq q (h.subset hq) with rfl | hdis
  · rfl
  · exact quarterRoundAt_comm hpn hqn hdis z

/-- The state with another working matrix. -/
abbrev State.withZ (s : State) (z : Matrix16) : State := { s with eng := { s.eng with z := z } }

theorem exec_quarterRound (q : Quad) (s : State) :
    exec (.quarterRound q.1 q.2.1 q.2.2.1 q.2.2.2) s = .next (s.withZ (quarterRoundAt s.eng.z q)) := rfl

theorem exec_columnRound (s : State) : exec .columnRound s = .next (s.withZ (columnRound s.eng.z)) := rfl

theorem exec_rowRound (s : State) : exec .rowRound s = .next (s.withZ (rowRound s.eng.z)) := rfl

theorem exec_doubleRound (s : State) : exec .doubleRound s = .next (s.withZ (doubleRound s.eng.z)) := rfl

/-- The instruction QUARTERROUND, quad after quad. -/
theorem foldl_execQuarterRound (l : List Quad) : ∀ (s : State),
    l.foldl (fun o q => andThen o (exec (.quarterRound q.1 q.2.1 q.2.2.1 q.2.2.2))) (.next s)
      = .next (s.withZ (l.foldl quarterRoundAt s.eng.z)) := by
  induction l with
  | nil => exact fun _ => rfl
  | cons q l ih => intro s; rw [List.foldl_cons, andThen_next, exec_quarterRound, ih]; rfl

/-- Settles O17: the quarter-rounds of a round share no position. -/
theorem roundsInAnyOrder : Obligations.RoundsInAnyOrder := by
  unfold Obligations.RoundsInAnyOrder
  refine fun s => ⟨fun l hl => ?_, fun l hl => ?_, ?_, ⟨_, exec_columnRound s⟩, ⟨_, exec_rowRound s⟩,
    ⟨_, exec_doubleRound s⟩⟩
  · rw [foldl_execQuarterRound, foldl_quarterRoundAt_perm apart_columnQuads hl, ← columnRound_eq_foldl, exec_columnRound]
  · rw [foldl_execQuarterRound, foldl_quarterRoundAt_perm apart_rowQuads hl, ← rowRound_eq_foldl, exec_rowRound]
  · rw [exec_columnRound, andThen_next, exec_rowRound, exec_doubleRound, doubleRound]

/-! ### BLOCK -/

theorem exec_block (s : State) :
    exec .block s = .next { s with eng := { s.eng with
      z := doubleRounds 10 s.eng.x, ks := feedForward (doubleRounds 10 s.eng.x) s.eng.x } } := rfl

/-- The instruction DOUBLEROUND, `k` times (R177). -/
theorem foldl_execDoubleRound (k : Nat) : ∀ (s : State),
    (List.replicate k Instr.doubleRound).foldl (fun o i => andThen o (exec i)) (.next s)
      = .next (s.withZ (doubleRounds k s.eng.z)) := by
  induction k with
  | zero => intro s; rw [doubleRounds]; rfl
  | succ k ih => intro s; rw [doubleRounds, List.replicate_succ, List.foldl_cons, andThen_next, exec_doubleRound, ih]

theorem quarterRound_zero (a b c d : Fin 16) : quarterRound a b c d (Vector.replicate 16 0) = Vector.replicate 16 0 := by
  simp [quarterRound, rotl32]

theorem doubleRound_zero : doubleRound (Vector.replicate 16 0) = Vector.replicate 16 0 := by
  simp only [doubleRound, columnRound, rowRound, quarterRound_zero]

theorem doubleRounds_zero (k : Nat) : doubleRounds k (Vector.replicate 16 0) = Vector.replicate 16 0 := by
  induction k with
  | zero => rw [doubleRounds]
  | succ k ih => rw [doubleRounds, doubleRound_zero, ih]

theorem feedForward_zero : feedForward (Vector.replicate 16 0) (Vector.replicate 16 0) = Vector.replicate 64 0 := by
  refine Vector.ext fun i hi => ?_
  rw [feedForward_get _ _ _ hi]
  simp [byteOf]

/-- Byte j of word i of a block (R178). -/
theorem feedForward_byte (z x : Matrix16) {i j : Nat} (hi : i < 16) (hj : j < 4) :
    (feedForward z x)[4 * i + j] = byteOf j (z[i] + x[i]) := by
  have hword : (4 * i + j) / 4 = i := by omega
  have hbyte : (4 * i + j) % 4 = j := by omega
  simp only [feedForward_get, hword, hbyte]

/-- Word i of a block, read little-endian (R178). -/
theorem feedForward_word (z x : Matrix16) {i : Nat} (hi : i < 16) :
    le32at (feedForward z x).toList (4 * i) = z[i] + x[i] := by
  have first : (feedForward z x)[4 * i] = byteOf 0 (z[i] + x[i]) := feedForward_byte z x hi (j := 0) (by decide)
  rw [le32at_toList _ _ (by omega), first, feedForward_byte z x hi (j := 1) (by decide),
    feedForward_byte z x hi (j := 2) (by decide), feedForward_byte z x hi (j := 3) (by decide), le32_leBytes]

/-- Settles O18: by the ten double rounds and the bytes and words of the feed-forward. -/
theorem blockKeystream : Obligations.BlockKeystream := by
  unfold Obligations.BlockKeystream
  intro s
  refine ⟨doubleRounds 10 s.eng.x, feedForward (doubleRounds 10 s.eng.x) s.eng.x, exec_block s,
    foldl_execDoubleRound 10 (s.withZ s.eng.x), fun i hi => feedForward_word _ _ hi,
    fun i j hi hj => feedForward_byte _ _ hi hj, fun hx => ?_⟩
  rw [hx, doubleRounds_zero, feedForward_zero]

/-! ### CTR_INC -/

/-- Settles O19: by the words of the incremented matrix and the 64-bit counter they make. -/
theorem counterIncrement : Obligations.CounterIncrement := by
  unfold Obligations.CounterIncrement
  intro s
  obtain ⟨low, high, others⟩ := counterUp_words s.eng.x
  refine ⟨counterUp s.eng.x, rfl, low, fun h => ?_, fun h => ?_, fun i h8 h9 => ?_, counterOf_counterUp _⟩
  · rw [high, if_pos (low ▸ h)]
  · rw [high, if_neg (low ▸ h)]
  · exact others i i.isLt (Fin.val_ne_iff.2 h8) (Fin.val_ne_iff.2 h9)

end Sys2Proof.Machine
end

section
/-! SUPPORT. XOR_STREAM (43_salsa20.md R180 to R182): where its loop stands after so many turns, the bytes it has written
by the end, and two runs from one matrix. -/

namespace Sys2Proof.Machine

/-! ### The loop -/

/-- XOR_STREAM on `s` stands at `t` after `q` turns: the first `64 q` output bytes are written, and the counter has gone
on by `q` (R180, R181). -/
structure State.StreamedTo (q : Nat) (s t : State) : Prop where
  around : s.SameAround t
  regs : ∃ (z : Matrix16) (ks : Vector Byte 64), t.eng = { s.eng with
    x := withCounter s.eng.x (counterOf s.eng.x + BitVec.ofNat 64 q), z := z, ks := ks, pos := min (64 * q) s.plen }
  output : s.OutputOnly s.plen t
  bytes : ∀ j, j < min (64 * q) s.plen → t.mem.read (s.outAt j) = s.inByte (s.eng.poff + j) ^^^ streamByte s.eng.x j

/-- The keystream's byte `64 q + i` is byte `i` of the block whose counter is `q` further (R181). -/
theorem streamByte_block (x : Matrix16) (q : Nat) {i : Nat} (h : i < 64) :
    streamByte x (64 * q + i)
      = (blockBytes (withCounter x (counterOf x + BitVec.ofNat 64 q))).toList.getD i 0 := by
  have hdiv : (64 * q + i) / 64 = q := by omega
  have hmod : (64 * q + i) % 64 = i := by omega
  rw [streamByte, hdiv, hmod]

/-- CTR_INC on the counter `q` further (R179). -/
theorem counterUp_turn (x : Matrix16) (q : Nat) :
    counterUp (withCounter x (counterOf x + BitVec.ofNat 64 q))
      = withCounter x (counterOf x + BitVec.ofNat 64 (q + 1)) := by
  rw [counterUp_withCounter, BitVec.add_assoc, BitVec.ofNat_add]
  rfl

theorem streamedTo_start {s : State} (h : s.mem.Wf) : s.StreamedTo 0 (s.modEng fun e => { e with pos := 0 }) := by
  refine ⟨sameAround_refl s, ⟨s.eng.z, s.eng.ks, ?_⟩, ⟨rfl, rfl, h, fun _ _ => rfl⟩, fun j hj => by omega⟩
  have hx : withCounter s.eng.x (counterOf s.eng.x + BitVec.ofNat 64 0) = s.eng.x := by
    rw [BitVec.add_zero, withCounter_self]
  rw [hx, Nat.mul_zero, Nat.zero_min]
  rfl

theorem payload_inside {s : State} {j : Nat} (h : j < s.plen) : s.eng.poff + j < s.n := Nat.add_lt_of_lt_sub' h

section
variable {s : State} (hdis : contractBroken s.plen s = none)
include hdis

/-- With the contract kept, what XOR_STREAM has written is no payload byte: the payload still reads as before. -/
theorem State.OutputOnly.payload {t : State} (h : s.OutputOnly s.plen t) (hin : t.eng.inAddr = s.eng.inAddr) {j : Nat}
    (hj : j < s.plen) : t.inByte (s.eng.poff + j) = s.inByte (s.eng.poff + j) := by
  rw [State.inByte, State.inByte, h.cfg, hin]
  exact h.frame _ fun i hi => (contract_disjoint hdis).2 _ i (payload_inside hj) hi

/-- One more turn: the bytes before it stay, those of its block are the payload XORed with the block. -/
theorem State.StreamedTo.turn {q : Nat} {t : State} (h : s.StreamedTo q t) (hq : 64 * q < s.plen) :
    s.StreamedTo (q + 1) (xorTurn s.eng.poff 0 s.plen t) := by
  obtain ⟨hinj, hsep⟩ := contract_disjoint hdis
  obtain ⟨z, ks, heng⟩ := h.regs
  have hpos : t.eng.pos = 64 * q := by rw [heng]; exact Nat.min_eq_left hq.le
  have hin : t.eng.inAddr = s.eng.inAddr := by rw [heng]
  have hx : t.eng.x = withCounter s.eng.x (counterOf s.eng.x + BitVec.ofNat 64 q) := by rw [heng]
  have spec := xorTurn_spec s.eng.poff s.plen t h.output.wf
  simp only [hpos, outAt_congr h.output.cfg h.output.outAddr, Nat.add_assoc] at spec
  obtain ⟨haround, heng', -, hframe, hbytes⟩ := spec
  have apart : ∀ i j, i < min 64 (s.plen - 64 * q) → j < min 64 (s.plen - 64 * q) → i ≠ j →
      s.outAt (64 * q + i) ≠ s.outAt (64 * q + j) :=
    fun i j hi hj hij => hinj _ _ (by omega) (by omega) (by omega)
  have outside : ∀ i j, i < min 64 (s.plen - 64 * q) → j < min 64 (s.plen - 64 * q) →
      t.cfg.addr t.eng.inAddr (s.eng.poff + (64 * q + i)) ≠ s.outAt (64 * q + j) := by
    intro i j hi hj
    rw [h.output.cfg, hin]
    exact hsep _ _ (payload_inside (by omega)) (by omega)
  refine ⟨State.SameAround.trans h.around haround, ⟨doubleRounds 10 t.eng.x, blockBytes t.eng.x, ?_⟩,
    h.output.trans (xorTurn_outputOnly _ _ h.output.wf), fun j hj => ?_⟩
  · rw [heng', hx, counterUp_turn, heng, show 64 * q + min 64 (s.plen - 64 * q) = min (64 * (q + 1)) s.plen by omega]
  · rcases Nat.lt_or_ge j (64 * q) with hlt | hge
    · rw [hframe _ fun i hi => hinj j _ (by omega) (by omega) (by omega)]
      exact h.bytes j (by omega)
    · obtain ⟨i, rfl⟩ := Nat.exists_eq_add_of_le hge
      rw [hbytes apart outside i (by omega), h.output.payload hdis hin (by omega), hx, streamByte_block _ _ (by omega)]

theorem State.StreamedTo.loop : ∀ (k : Nat) {q : Nat} {t : State}, s.StreamedTo q t → q + k = (s.plen + 63) / 64 →
    s.StreamedTo (q + k) (xorLoop s.eng.poff 0 s.plen k t) := by
  intro k
  induction k with
  | zero => exact fun h _ => h
  | succ k ih =>
    intro q t h hk
    have hq : 64 * q < s.plen := by omega
    have hpos : t.eng.pos < s.plen := by
      obtain ⟨z, ks, heng⟩ := h.regs
      rw [heng]
      exact (Nat.min_le_left ..).trans_lt hq
    rw [xorLoop, if_pos hpos, show q + (k + 1) = q + 1 + k by omega]
    exact ih (h.turn hdis hq) (by omega)

/-- XOR_STREAM has made ⌈plen / 64⌉ turns (R180). -/
theorem xorStream_streamedTo (h : s.mem.Wf) : s.StreamedTo ((s.plen + 63) / 64) (xorStream s.eng.poff 0 s.plen s) := by
  have hloop := (streamedTo_start h).loop hdis ((s.plen + 63) / 64) (Nat.zero_add _)
  rwa [Nat.zero_add] at hloop

/-- The bytes XOR_STREAM puts out (R180, R181). -/
theorem execXorStream_bytes (hwf : s.mem.Wf) {t : State} (ht : exec .xorStream s = .next t) {j : Nat} (hj : j < s.plen) :
    t.mem.read (s.outAt j) = s.inByte (s.eng.poff + j) ^^^ streamByte s.eng.x j := by
  obtain rfl : xorStream s.eng.poff 0 s.plen s = t := Host.Outcome.next.inj ht
  exact (xorStream_streamedTo hdis hwf).bytes j (by omega)

end

/-! ### The statements -/

/-- Settles O20: by where the loop stands after its last turn. -/
theorem xorStreamBytes : Obligations.XorStreamBytes := by
  unfold Obligations.XorStreamBytes
  intro s hwf _ hdis
  have hdone := xorStream_streamedTo hdis hwf
  obtain ⟨z, ks, heng⟩ := hdone.regs
  refine ⟨_, z, ks, ?_, hdone.output.wf, fun j hj => hdone.bytes j (by omega), hdone.output.frame⟩
  have hpos : min (64 * ((s.plen + 63) / 64)) s.plen = s.plen := by omega
  rw [hpos] at heng
  rw [← heng, ← eq_of_around hdone.around]
  rfl

/-- Settles O21: each turn writes internal registers and output bytes only. -/
theorem xorStreamCompletes : Obligations.XorStreamCompletes := by
  unfold Obligations.XorStreamCompletes
  intro s
  have hstream := xorStream_streamed s.eng.poff 0 s.plen s
  refine ⟨_, rfl, hstream.around, hstream.goes.visible, fun hwf => ?_⟩
  have hout := xorStream_outputOnly s.eng.poff s.plen hwf
  exact ⟨hout.wf, hout.frame⟩

/-- Settles O22: the same keystream XORed twice. -/
theorem xorStreamSelfInverse : Obligations.XorStreamSelfInverse := by
  unfold Obligations.XorStreamSelfInverse
  intro s t u v hs hu _ _ hsdis hudis hx hplen ht hin hv j hj
  calc v.mem.read (u.outAt j)
    _ = u.inByte (u.eng.poff + j) ^^^ streamByte u.eng.x j := execXorStream_bytes hudis hu hv (hplen ▸ hj)
    _ = (s.inByte (s.eng.poff + j) ^^^ streamByte s.eng.x j) ^^^ streamByte s.eng.x j := by
      rw [hin j hj, execXorStream_bytes hsdis hs ht hj, hx]
    _ = s.inByte (s.eng.poff + j) := by rw [BitVec.xor_assoc, BitVec.xor_self, BitVec.xor_zero]

/-- Settles O23: byte j of the output is a function of byte j of the payload and of the matrix. -/
theorem xorStreamOpening : Obligations.XorStreamOpening := by
  unfold Obligations.XorStreamOpening
  intro L s t u v hs hu _ _ hsdis hudis hx hLs hLu hin ht hv j hj
  rw [execXorStream_bytes hudis hu hv (by omega), execXorStream_bytes hsdis hs ht (by omega), hin j hj, hx]

end Sys2Proof.Machine
end

section
/-! SUPPORT. The register window by offset (44_dispatch.md R219 to R222): the register a write or a read reaches, the word
STATUS reads as, the acceptance of each CMD word. -/

namespace Sys2Proof.Machine

/-! ### Writes and reads by offset -/

/-- A write outside CMD is ignored while a command runs (R221). -/
theorem execRegWrite_busy {off : Nat} (v : Word) {s : State} (ho : offsetOk off) (h0 : off ≠ 0x00)
    (hb : s.eng.busy = true) : execRegWrite 4 off v s = .next s := by
  rw [execRegWrite, if_neg (by simp [ho.1, ho.2]), if_neg h0, if_pos hb]

/-- Outside CMD, and with no command running, a write is the register's own (R221). -/
theorem execRegWrite_notBusy {off : Nat} (v : Word) {s : State} (ho : offsetOk off) (h0 : off ≠ 0x00)
    (hb : s.eng.busy = false) : execRegWrite 4 off v s = .next (s.modEng (Engine.writeReg s.cfg off v)) := by
  rw [execRegWrite, if_neg (by simp [ho.1, ho.2]), if_neg h0, if_neg (by simp [hb])]

/-- A write of STATUS or of the reserved word stores nothing (R221). -/
theorem execRegWrite_ignored {off : Nat} (v : Word) (s : State) (h : off = 0x04 ∨ off = 0x1C) :
    execRegWrite 4 off v s = .next s := by
  cases hb : s.eng.busy with
  | true => rcases h with rfl | rfl <;> exact execRegWrite_busy v (by decide) (by decide) hb
  | false => rcases h with rfl | rfl <;> exact execRegWrite_notBusy v (by decide) (by decide) hb

/-- A write of CMD is ignored while a command runs and in the fatal state (R220). -/
theorem writeCmd_ignored (v : Word) {s : State} (h : s.eng.busy = true ∨ s.eng.fatal = true) : writeCmd v s = .next s :=
  if_pos h

/-- Settles O8: the offsets one by one, while BUSY and not. -/
theorem registerWriteByOffset : Obligations.RegisterWriteByOffset := by
  unfold Obligations.RegisterWriteByOffset
  refine fun v s => ⟨fun h => writeCmd_ignored v h, execRegWrite_ignored v s (.inl rfl),
    execRegWrite_ignored v s (.inr rfl), fun hb off hoff => ?_, fun hb => ?_⟩
  · rcases hoff with rfl | rfl | rfl | rfl | rfl <;> exact execRegWrite_busy v (by decide) (by decide) hb
  · have write : ∀ off, offsetOk off → off ≠ 0x00 →
        exec (.regWrite 4 off v) s = .next (s.modEng (Engine.writeReg s.cfg off v)) :=
      fun _ ho h0 => execRegWrite_notBusy v ho h0 hb
    exact ⟨write 0x08 (by decide) (by decide), write 0x0C (by decide) (by decide), write 0x10 (by decide) (by decide),
      write 0x14 (by decide) (by decide), write 0x18 (by decide) (by decide)⟩

/-- The flags and the code stand at their places in STATUS and do not overlap (R95). -/
theorem statusWord_toNat (e : Engine) :
    e.statusWord.toNat = e.busy.toNat + 2 * e.done.toNat + 4 * e.fatal.toNat + 16 * e.code.toNat := by
  have places : ∀ (b d f : Bool) (c : BitVec 4),
      (bit b ||| (bit d <<< 1) ||| (bit f <<< 2) ||| (c.zeroExtend 32 <<< 4)).toNat
        = b.toNat + 2 * d.toNat + 4 * f.toNat + 16 * c.toNat := by decide
  exact places e.busy e.done e.fatal e.code

theorem execRegRead_ok {off : Nat} (h : offsetOk off) (s : State) :
    execRegRead 4 off s = .next { s with rdata := s.eng.readReg off } := by
  rw [execRegRead, if_neg (by simp [h.1, h.2])]

/-- Settles O9: each offset is one of the window, and reads its register. -/
theorem registerReadByOffset : Obligations.RegisterReadByOffset := by
  unfold Obligations.RegisterReadByOffset
  intro s
  have read : ∀ off, offsetOk off → exec (.regRead 4 off) s = .next { s with rdata := s.eng.readReg off } :=
    fun _ h => execRegRead_ok h s
  exact ⟨read 0x00 (by decide), ⟨s.eng.statusWord, read 0x04 (by decide), statusWord_toNat s.eng⟩,
    read 0x08 (by decide), read 0x0C (by decide), read 0x10 (by decide), read 0x14 (by decide),
    read 0x18 (by decide), read 0x1C (by decide)⟩

/-! ### The acceptance of a command -/

theorem decryptStart_onDevice {s : State} (h : s.eng.onDevice s.cfg = true) :
    decryptStart s = .fault (.hostContract .deviceMemory) := if_pos h

theorem decryptStart_ok {s : State} (h : s.eng.onDevice s.cfg = false) :
    decryptStart s = .next (s.modEng Engine.parseStart) := if_neg (by simp [h])

theorem copyStart_onDevice {s : State} (h : s.eng.onDevice s.cfg = true) :
    copyStart s = .fault (.hostContract .deviceMemory) := if_pos h

theorem copyStart_ok {s : State} (h : s.eng.onDevice s.cfg = false) :
    copyStart s = .next (s.modEng fun e => { e with phase := .checkCap }) := if_neg (by simp [h])

theorem startCommand_decrypt (s : State) : startCommand 0x00000001 s = decryptStart s := if_pos rfl

theorem startCommand_copy (s : State) : startCommand 0x00000002 s = copyStart s := by
  rw [startCommand, if_neg (by decide), if_pos rfl]

section
variable {s : State} (hb : s.eng.busy = false) (hf : s.eng.fatal = false)
include hb hf

/-- With BUSY = 0 and FATAL = 0 a write of CMD starts its command (R219). -/
theorem writeCmd_accepted (v : Word) :
    writeCmd v s = andThen (startCommand v (s.modEng (Engine.accepted v))) checkShared := if_neg (by simp [hb, hf])

theorem writeCmd_decrypt (hd : s.eng.onDevice s.cfg = false) :
    writeCmd 0x00000001 s = checkShared { s with eng := s.eng.decryptStarted } := by
  rw [writeCmd_accepted hb hf, startCommand_decrypt,
    decryptStart_ok (s := s.modEng (Engine.accepted 0x00000001)) hd]
  rfl

theorem writeCmd_copy (hd : s.eng.onDevice s.cfg = false) :
    writeCmd 0x00000002 s = checkShared { s with eng := s.eng.copyStarted } := by
  rw [writeCmd_accepted hb hf, startCommand_copy,
    copyStart_ok (s := s.modEng (Engine.accepted 0x00000002)) hd]
  rfl

theorem writeCmd_decrypt_onDevice (hd : s.eng.onDevice s.cfg = true) :
    writeCmd 0x00000001 s = .fault (.hostContract .deviceMemory) := by
  rw [writeCmd_accepted hb hf, startCommand_decrypt,
    decryptStart_onDevice (s := s.modEng (Engine.accepted 0x00000001)) hd, andThen_fault]

theorem writeCmd_copy_onDevice (hd : s.eng.onDevice s.cfg = true) :
    writeCmd 0x00000002 s = .fault (.hostContract .deviceMemory) := by
  rw [writeCmd_accepted hb hf, startCommand_copy,
    copyStart_onDevice (s := s.modEng (Engine.accepted 0x00000002)) hd, andThen_fault]

/-- Any other CMD word has ended when it is accepted, so that R281 has nothing to compare (R218; log 2). -/
theorem writeCmd_illegal {v : Word} (h1 : v ≠ 0x00000001) (h2 : v ≠ 0x00000002) :
    writeCmd v s = .next { s with eng := Engine.ended .illegalCommand (Engine.accepted v s.eng) } := by
  rw [writeCmd_accepted hb hf, startCommand, if_neg h1, if_neg h2]
  rfl

end

/-- Settles O10: the check of the buffers, then R281's check against the other engines. -/
theorem commandAcceptance : Obligations.CommandAcceptance := by
  unfold Obligations.CommandAcceptance
  refine fun s hb hf => ⟨fun hd => ⟨writeCmd_decrypt_onDevice hb hf hd, writeCmd_copy_onDevice hb hf hd⟩,
    fun hd => ⟨fun hfree => ?_, fun hfree => ?_⟩⟩
  · exact (writeCmd_decrypt hb hf hd).trans (checkShared_ok (s := { s with eng := s.eng.decryptStarted }) hfree)
  · exact (writeCmd_copy hb hf hd).trans (checkShared_ok (s := { s with eng := s.eng.copyStarted }) hfree)

/-- STATUS after an illegal command on an engine that is not fatal (R244). -/
theorem statusWord_illegal {e : Engine} (h : e.fatal = false) : (Engine.ended .illegalCommand e).statusWord = 0x52 := by
  rw [Engine.statusWord, Engine.ended_busy, Engine.ended_done, Engine.ended_fatal, Engine.ended_code, h]
  decide

/-- Settles O11: the command ends in one step, accepted or issued. -/
theorem illegalCommandEnds : Obligations.IllegalCommandEnds := by
  unfold Obligations.IllegalCommandEnds
  exact fun op s => ⟨rfl, fun h1 h2 hb hf =>
    ⟨_, writeCmd_illegal hb hf h1 h2, statusWord_illegal hf, rfl, rfl, rfl, rfl, rfl, rfl⟩⟩

end Sys2Proof.Machine
end

section
/-! SUPPORT. CHECK_CONTRACT as a statement on address sets (44_dispatch.md R223), and DIRECT_COPY from its beginning to
each of its ends (R217). -/

namespace Sys2Proof.Machine

/-! ### The contract -/

theorem onDevice_of_noDevices {c : Config} (h : c.devices = []) (base len : Nat) : c.onDevice base len = false := by
  rw [Config.onDevice, h, List.any_nil]

/-- Overlap is the first thing CHECK_CONTRACT looks for (R223), wherever memory with read side effects lies. -/
theorem contractBroken_overlap_iff (len : Nat) (s : State) :
    contractBroken len s = some .overlap ↔
      0 < len ∧ (s.cfg.size < len ∨ rangesMeet s.cfg.size s.eng.outAddr.toNat len s.eng.inAddr.toNat s.n = true) := by
  unfold contractBroken
  split
  next h0 => simp [h0]
  next h0 =>
  split
  next h => exact iff_of_true rfl ⟨Nat.pos_of_ne_zero h0, h⟩
  next h => exact iff_of_false (by split <;> simp) fun hc => h hc.2

/-- Without memory that has read side effects CHECK_CONTRACT finds overlap or nothing. -/
theorem contractBroken_noDevices {s : State} (h : s.cfg.devices = []) (len : Nat) :
    contractBroken len s = none ∨ contractBroken len s = some .overlap := by
  unfold contractBroken
  split
  · exact .inl rfl
  split
  · exact .inr rfl
  · rw [onDevice_of_noDevices h]
    exact .inl rfl

/-- Settles O36: the order of the checks, and `rangesMeet_iff`. -/
theorem contractIsOverlap : Obligations.ContractIsOverlap := by
  unfold Obligations.ContractIsOverlap
  refine fun len s h => ⟨contractBroken_noDevices h len, ?_⟩
  rw [contractBroken_overlap_iff, rangesMeet_iff (size_pos s.cfg)]
  rfl

/-! ### DIRECT_COPY -/

/-- DIRECT_COPY has everything still to do: it has been selected and has not begun, or has just been accepted (R219). -/
abbrev State.CopyFresh (s : State) : Prop :=
  s.eng.phase = .idle ∧ s.eng.onDevice s.cfg = false ∨ s.eng.phase = .checkCap

/-- The machine at the capacity check of a DIRECT_COPY. -/
def State.copyBegun (s : State) : State := s.modEng fun e => { e with phase := .checkCap }

section
variable {s : State} (h : s.CopyFresh)
include h

theorem execDirectCopy_fresh : execDirectCopy s = andThen (copyCap s.copyBegun) (inPhase .copy copyPhase) := by
  rcases h with ⟨hp, hd⟩ | hp
  · rw [execDirectCopy_eq_copy, inPhase_pos hp, copyStart_ok hd, andThen_next]
    exact congrArg (andThen · (inPhase .copy copyPhase)) (inPhase_pos rfl)
  · have same : s.copyBegun = s := by
      show { s with eng := { s.eng with phase := .checkCap } } = s
      rw [← hp]
    rw [same, execDirectCopy_checkCap hp]

/-- An input more than one byte longer than the output buffer ends DIRECT_COPY at its capacity check (R217). -/
theorem execDirectCopy_long (hcap : s.cap + 1 < s.n) : Yields (s.EndedWith .insufficientBuffer) (execDirectCopy s) := by
  rw [execDirectCopy_fresh h, copyCap_long (s := s.copyBegun) hcap]
  exact (raiseStatus_ends (sameVisible_refl s.eng)).andThen fun t ht =>
    ⟨t, inPhase_neg (by rw [ht.idle]; decide), ht⟩

theorem execDirectCopy_broken {v : Violation} (hcap : s.n ≤ s.cap + 1) (hc : contractBroken s.n s = some v) :
    execDirectCopy s = .fault (.hostContract v) := by
  rw [execDirectCopy_fresh h, copyCap_broken (s := s.copyBegun) hcap hc, andThen_fault]

/-- With the contract kept DIRECT_COPY comes to its copy. -/
theorem execDirectCopy_fits (hcap : s.n ≤ s.cap + 1) (hc : contractBroken s.n s = none) :
    execDirectCopy s = copyPhase (s.modEng fun e => { e with phase := .copy }) := by
  rw [execDirectCopy_fresh h, copyCap_fits (s := s.copyBegun) hcap hc, andThen_next]
  exact inPhase_pos rfl

end

/-- Phase COPY as one next state. -/
theorem copyPhase_eq (s : State) :
    copyPhase s = .next { s with
      mem := (copyBytes s.n s).mem
      eng := { s.eng with outLen := s.eng.inLen, code := 0, busy := false, done := true, phase := .idle } } := by
  have hlen : BitVec.ofNat 32 s.n = s.eng.inLen :=
    (BitVec.ofNat_toNat ..).trans (BitVec.setWidth_eq _)
  rw [copyPhase, copyBytes_around, finishSuccess, hlen]
  rfl

/-- Settles O35: by where DIRECT_COPY ends, and `copyBytes_spec` for the bytes. -/
theorem directCopyBytes : Obligations.DirectCopyBytes := by
  unfold Obligations.DirectCopyBytes
  refine fun s hwf hfresh => ⟨execDirectCopy_long hfresh, execDirectCopy_broken hfresh, fun hcap hc => ?_⟩
  obtain ⟨-, -, hwf', hframe, hbytes⟩ := copyBytes_spec s.n (s.modEng fun e => { e with phase := .copy }) hwf
  obtain ⟨hinj, hsep⟩ := contract_disjoint hc
  exact ⟨_, (execDirectCopy_fits hfresh hcap hc).trans (copyPhase_eq _), hwf', hbytes hinj hsep, hframe⟩

end Sys2Proof.Machine
end

section
/-! SUPPORT. DECRYPT of a frame whose header PARSE accepts (44_dispatch.md R210 to R216): the capacity check, LOOKUP, the
dispatch on MARKER, and what each of them leaves. -/

namespace Sys2Proof.Machine

/-! ### The dispatch on MARKER -/

/-- The machine with the matrix of KEY and EIV, about to run XOR_STREAM (R215). -/
def State.matrixSet (s : State) : State :=
  s.modEng fun e => { e with x := keyMatrix e.key.toList e.eiv.toList, phase := .stream }

theorem dispatchSalsa_ok {s : State} (h : contractBroken s.plen s = none) : dispatchSalsa s = .next s.matrixSet :=
  checkContract_ok h

theorem dispatchSalsa_broken {s : State} {v : Violation} (h : contractBroken s.plen s = some v) :
    dispatchSalsa s = .fault (.hostContract v) := checkContract_broken h

/-- The machine in the fatal state (R247). -/
def State.fatalEnded (s : State) : State :=
  { s with eng := { s.eng with code := 6, busy := false, done := true, fatal := true, phase := .idle } }

theorem raiseFatal_eq (s : State) : raiseFatal s = .next s.fatalEnded := rfl

theorem statusWord_fatalEnded (s : State) : s.fatalEnded.eng.statusWord = 0x66 := by
  show bit false ||| (bit true <<< 1) ||| (bit true <<< 2) ||| ((6 : BitVec 4).zeroExtend 32 <<< 4) = 0x66
  decide

theorem execFrameMarkerS_setup {s : State} (h : s.eng.phase = .setup) : execFrameMarkerS s = dispatchSalsa s := if_pos h

theorem execFrameMarkerA_setup {s : State} (h : s.eng.phase = .setup) : execFrameMarkerA s = raiseFatal s := if_pos h

theorem execFrameMarkerOther_setup (b : Byte) {s : State} (h : s.eng.phase = .setup) :
    execFrameMarkerOther b s = raiseFatal s := if_pos h

/-- Settles O30: the three marker rows in phase SETUP. -/
theorem markerDispatch : Obligations.MarkerDispatch := by
  unfold Obligations.MarkerDispatch
  refine fun s hp => ⟨fun hc => ?_, fun v hc => ?_, fun i hi => ⟨s.fatalEnded, ?_, rfl, statusWord_fatalEnded s⟩⟩
  · exact (execFrameMarkerS_setup hp).trans (dispatchSalsa_ok hc)
  · exact (execFrameMarkerS_setup hp).trans (dispatchSalsa_broken hc)
  · rcases hi with rfl | ⟨b, rfl⟩
    · exact execFrameMarkerA_setup hp
    · exact execFrameMarkerOther_setup b hp

section
variable {s : State} (hp : s.eng.phase = .setup)
include hp

theorem decryptFromSetup_ok (hm : s.eng.marker = 0x53) (hc : contractBroken s.plen s = none) :
    decryptFromSetup s = streamPhase s.matrixSet := by
  rw [decryptFromSetup, inPhase_pos hp, setupPhase_eq hp, if_pos hm, dispatchSalsa_ok hc, andThen_next]
  exact inPhase_pos rfl

theorem decryptFromSetup_broken {v : Violation} (hm : s.eng.marker = 0x53) (hc : contractBroken s.plen s = some v) :
    decryptFromSetup s = .fault (.hostContract v) := by
  rw [decryptFromSetup, inPhase_pos hp, setupPhase_eq hp, if_pos hm, dispatchSalsa_broken hc, andThen_fault]

theorem decryptFromSetup_otherMarker (hm : s.eng.marker ≠ 0x53) : decryptFromSetup s = .next s.fatalEnded := by
  rw [decryptFromSetup, inPhase_pos hp, setupPhase_eq hp, if_neg hm, raiseFatal_eq, andThen_next]
  exact inPhase_neg nofun

end

/-! ### From the capacity check to the dispatch -/

/-- The machine at its dispatch on MARKER, with the key `k` and the effective IV (R213, R214). -/
def State.keyFound (k : Vector Byte 16) (s : State) : State :=
  s.modEng fun e => { e with key := k, hit := true, eiv := mixIv e.baseIv e.frameIndex, phase := .setup }

theorem decryptFromCap_found {s : State} {k : Vector Byte 16} (hcap : s.plen ≤ s.cap)
    (hkey : lookupKey s.cfg.keyTable s.eng.keyId = some k) : decryptFromCap s = decryptFromSetup (s.keyFound k) := by
  have lookup : lookupPhase (s.modEng fun e => { e with phase := .lookup })
      = .next (s.modEng fun e => { e with key := k, hit := true, phase := .derive }) :=
    lookupPhase_found (s := s.modEng fun e => { e with phase := .lookup }) hkey
  rw [decryptFromCap, decryptCap_fits hcap, andThen_next]
  show andThen (inPhase .lookup lookupPhase _) (runPhases decryptPhases.tail.tail.tail) = _
  rw [inPhase_pos (by rfl), lookup, andThen_next]
  show andThen (inPhase .derive derivePhase _) (runPhases decryptPhases.tail.tail.tail.tail) = _
  rw [inPhase_pos (by rfl), derivePhase_eq, andThen_next]
  simp only [decryptPhases, List.tail_cons, runPhases, andThen_next_right]
  rfl

/-! ### The outcomes of a DECRYPT whose header PARSE accepts -/

/-- The registers with the header of the input `inp` taken, before the capacity check (R134). -/
def Engine.withHeader (inp : Nat → Byte) (e : Engine) : Engine :=
  { e with
    phase := .checkCap, field := none
    kis := frameK inp, keyId := frameKeyId inp, ivs := frameV inp, baseIv := frameIv inp, marker := frameM inp
    p := framePoff inp, poff := framePoff inp }

theorem parsed_eq (s : State) : s.parsed = s.modEng (Engine.withHeader s.inByte) := by rfl

/-- The machine at the dispatch on MARKER of a frame whose key is `k`. -/
def State.atDispatch (k : Vector Byte 16) (s : State) : State := (s.modEng (Engine.withHeader s.inByte)).keyFound k

/-- The contract at the dispatch is the one of the frame. -/
theorem contractBroken_atDispatch (k : Vector Byte 16) (s : State) :
    contractBroken (s.atDispatch k).plen (s.atDispatch k) = contractBroken (s.n - framePoff s.inByte) s :=
  contractBroken_congr (s := s) rfl rfl rfl rfl

section
variable {s : State} (hs : s.Fresh) (hframe : frameStatus s.n s.inByte = none)
include hs hframe

theorem execDecrypt_long (hcap : s.cap < s.n - framePoff s.inByte) :
    Yields (s.EndedWith .insufficientBuffer) (execDecrypt s) := by
  have hlong : s.parsed.cap < s.parsed.plen := by
    rw [parsed_eq]
    exact hcap
  rw [execDecrypt_accepted hframe hs]
  exact (decryptFromCap_long hlong).imp fun _ => .imp_right (endedWith_of_parsed hframe)

variable (hcap : s.n - framePoff s.inByte ≤ s.cap)
include hcap

theorem execDecrypt_notFound (hkey : lookupKey s.cfg.keyTable (frameKeyId s.inByte) = none) :
    Yields (s.EndedWith .fileEncrypted) (execDecrypt s) := by
  have hfits : s.parsed.plen ≤ s.parsed.cap := by
    rw [parsed_eq]
    exact hcap
  rw [execDecrypt_accepted hframe hs]
  exact (decryptFromCap_notFound hfits hkey).imp fun _ => .imp_right (endedWith_of_parsed hframe)

variable {k : Vector Byte 16} (hkey : lookupKey s.cfg.keyTable (frameKeyId s.inByte) = some k)
include hkey

theorem execDecrypt_found : execDecrypt s = decryptFromSetup (s.atDispatch k) := by
  rw [execDecrypt_accepted hframe hs, parsed_eq]
  exact decryptFromCap_found (s := s.modEng (Engine.withHeader s.inByte)) hcap hkey

theorem execDecrypt_otherMarker (hm : frameM s.inByte ≠ 0x53) : execDecrypt s = .next (s.atDispatch k).fatalEnded :=
  (execDecrypt_found hs hframe hcap hkey).trans (decryptFromSetup_otherMarker (s := s.atDispatch k) rfl hm)

theorem execDecrypt_broken {v : Violation} (hm : frameM s.inByte = 0x53)
    (hc : contractBroken (s.n - framePoff s.inByte) s = some v) : execDecrypt s = .fault (.hostContract v) :=
  (execDecrypt_found hs hframe hcap hkey).trans
    (decryptFromSetup_broken (s := s.atDispatch k) rfl hm ((contractBroken_atDispatch k s).trans hc))

theorem execDecrypt_ok (hm : frameM s.inByte = 0x53) (hc : contractBroken (s.n - framePoff s.inByte) s = none) :
    execDecrypt s = streamPhase (s.atDispatch k).matrixSet :=
  (execDecrypt_found hs hframe hcap hkey).trans
    (decryptFromSetup_ok (s := s.atDispatch k) rfl hm ((contractBroken_atDispatch k s).trans hc))

end

/-! ### The payload -/

/-- A matrix KEY_SETUP has laid out gives the keystream of its key and IV (R181). -/
theorem streamByte_keyMatrix (key : Vector Byte 16) (iv : Vector Byte 8) (j : Nat) :
    streamByte (keyMatrix key.toList iv.toList) j = kstream key iv j := by
  rw [streamByte, counterOf_keyMatrix, zero_add, toList_getD _ _ (Nat.mod_lt _ (by decide))]
  rfl

/-- Phase STREAM with the contract kept ends with Success and leaves the payload XORed with the keystream of the matrix
(R216). -/
theorem streamPhase_success {s : State} (hwf : s.mem.Wf) (hc : contractBroken s.plen s = none) :
    Yields (fun t => (s.Writes s.plen t ∧ s.Finishes t) ∧
        ∀ j, j < s.plen → t.mem.read (s.outAt j) = s.inByte (s.eng.poff + j) ^^^ streamByte s.eng.x j)
      (streamPhase s) :=
  ((streamPhase_writes s).and_sat (streamPhase_finishes s)).and_sat
    (sat_next.2 fun _ hj => execXorStream_bytes hc hwf rfl hj)

/-- A command that ends with code 0 has not entered the fatal state. -/
theorem Engine.Ends.fatal {e e' : Engine} (h : e.Ends e') (hcode : e'.code = 0) : e'.fatal = e.fatal := by
  rcases h.status with ⟨hf, -⟩ | ⟨-, h6⟩
  · exact hf
  · exact absurd (hcode.symm.trans h6) (by decide)

/-! ### Which DECRYPT succeeds -/

theorem execDecrypt_success {s t : State} (hs : s.Fresh) (ht : execDecrypt s = .next t) (hcode : t.eng.code = 0) :
    frameStatus s.n s.inByte = none ∧ s.n - framePoff s.inByte ≤ s.cap ∧ frameM s.inByte = 0x53 ∧
      contractBroken (s.n - framePoff s.inByte) s = none ∧
      ∃ k, lookupKey s.cfg.keyTable (frameKeyId s.inByte) = some k := by
  have failed : ∀ c : StatusCode, c.bits ≠ 0 → ¬ Yields (s.EndedWith c) (execDecrypt s) := by
    intro c hc h
    obtain ⟨-, -, -, -, -, hcode', -⟩ := h.sat t ht
    exact hc (hcode'.symm.trans hcode)
  cases hframe : frameStatus s.n s.inByte with
  | some c =>
    refine absurd (execDecrypt_rejected hs hframe) (failed c ?_)
    rcases frameStatus_some hframe with rfl | rfl <;> decide
  | none =>
  rcases Nat.lt_or_ge s.cap (s.n - framePoff s.inByte) with hcap | hcap
  · exact absurd (execDecrypt_long hs hframe hcap) (failed _ (by decide))
  cases hkey : lookupKey s.cfg.keyTable (frameKeyId s.inByte) with
  | none => exact absurd (execDecrypt_notFound hs hframe hcap hkey) (failed _ (by decide))
  | some k =>
  by_cases hm : frameM s.inByte = 0x53
  · cases hc : contractBroken (s.n - framePoff s.inByte) s with
    | none => exact ⟨rfl, hcap, hm, rfl, k, rfl⟩
    | some v => exact nomatch (execDecrypt_broken hs hframe hcap hkey hm hc).symm.trans ht
  · obtain rfl := Host.Outcome.next.inj ((execDecrypt_otherMarker hs hframe hcap hkey hm).symm.trans ht)
    exact absurd hcode (show (6 : BitVec 4) ≠ 0 by decide)

/-- Settles O31: such a DECRYPT is its last phase, which begins with the memory and the operands as they were; by the
outcomes of the others no other succeeds. -/
theorem decryptSuccess : Obligations.DecryptSuccess := by
  unfold Obligations.DecryptSuccess
  refine fun s hwf hs => ⟨fun k hframe hcap hkey hm hc => ?_, fun t ht hcode => execDecrypt_success hs ht hcode⟩
  have hc' : contractBroken (s.atDispatch k).plen (s.atDispatch k).matrixSet = none :=
    ((contractBroken_congr rfl rfl rfl rfl).trans (contractBroken_atDispatch k s)).trans hc
  obtain ⟨t, ht, ⟨hwrites, hfinishes⟩, hbytes⟩ := streamPhase_success (s := (s.atDispatch k).matrixSet) hwf hc'
  have houtput := hwrites.output hwf
  refine ⟨t, (execDecrypt_ok hs hframe hcap hkey hm hc).trans ht, hfinishes.around, hfinishes.ends.operands,
    hfinishes.ends.fatal hwrites.code, hwrites.code, hfinishes.ends.busy, hfinishes.ends.done, hfinishes.ends.phase,
    hwrites.outLen, houtput.wf, fun j hj => ?_, houtput.frame⟩
  rw [← streamByte_keyMatrix]
  exact hbytes j hj

/-- Settles O32: the outcomes of DECRYPT in the order of its checks. -/
theorem decryptPriority : Obligations.DecryptPriority := by
  unfold Obligations.DecryptPriority
  refine fun s hs => ⟨fun c h => execDecrypt_rejected hs h, fun hframe => ⟨execDecrypt_long hs hframe, fun hcap =>
    ⟨execDecrypt_notFound hs hframe hcap, fun k hkey hm => ?_⟩⟩⟩
  have hother : frameM s.inByte ≠ 0x53 := by rw [hm]; decide
  exact ⟨_, execDecrypt_otherMarker hs hframe hcap hkey hother, statusWord_fatalEnded _, rfl, rfl, sameAround_refl s,
    ⟨rfl, rfl, rfl, rfl⟩, rfl⟩

/-- Settles O33: the faults of the two contract checks, and those of the starts. -/
theorem brokenContractFaults : Obligations.BrokenContractFaults := by
  unfold Obligations.BrokenContractFaults
  refine fun s v => ⟨fun hs hframe hcap hkey hm hc => ?_, fun h => execDirectCopy_broken h, fun hp hd => ⟨?_, ?_⟩⟩
  · obtain ⟨k, hk⟩ := Option.ne_none_iff_exists'.1 hkey
    exact execDecrypt_broken hs hframe hcap hk hm hc
  · show execDecrypt s = _
    rw [execDecrypt_eq, inPhase_pos hp, decryptStart_onDevice hd, andThen_fault]
  · show execDirectCopy s = _
    rw [execDirectCopy_eq_copy, inPhase_pos hp, copyStart_onDevice hd, andThen_fault, andThen_fault]

end Sys2Proof.Machine
end

section
/-! SUPPORT. The engines apart from each other and from the host (60_exceptions.md R255), and the fatal state, which only
a reset leaves (R248, R27). -/

namespace Sys2Proof.Machine

/-- Settles O44: nothing around the selected engine changes by `exec_around`, but `rdata` by a register read. -/
theorem instancesIndependent : Obligations.InstancesIndependent := by
  unfold Obligations.InstancesIndependent
  intro i s t ht
  by_cases hread : ∃ size off, i = .regRead size off
  · obtain ⟨size, off, rfl⟩ := hread
    obtain rfl := execRegRead_sat size off s t ht
    exact ⟨rfl, rfl, rfl, rfl, rfl, rfl, fun hne => absurd rfl (hne size off)⟩
  · push Not at hread
    obtain ⟨hcfg, hleft, hright, hscript, hrdata, hmdata, hdraws⟩ := exec_around hread s t ht
    exact ⟨hleft, hright, hcfg, hscript, hmdata, hdraws, fun _ => hrdata⟩

/-! ### STATUS of an engine in the fatal state -/

/-- The parts of STATUS are equal (R24). -/
abbrev Engine.SameStatus (a b : Engine) : Prop :=
  a.busy = b.busy ∧ a.done = b.done ∧ a.fatal = b.fatal ∧ a.code = b.code

theorem Engine.SameStatus.statusWord {a b : Engine} (h : a.SameStatus b) : a.statusWord = b.statusWord := by
  obtain ⟨hbusy, hdone, hfatal, hcode⟩ := h
  simp only [Engine.statusWord, hbusy, hdone, hfatal, hcode]

theorem writeReg_sameStatus (c : Config) (off : Nat) (v : Word) (e : Engine) : (Engine.writeReg c off v e).SameStatus e := by
  unfold Engine.writeReg
  split <;> exact ⟨rfl, rfl, rfl, rfl⟩

/-- STATUS of every engine in the fatal state is as before. A fatal engine that is BUSY is left out: no
command ends as one (R247). -/
def State.KeepsFatal (s t : State) : Prop :=
  ∀ (i : Nat) (e : Engine), s.engines[i]? = some e → e.fatal = true → e.busy = false →
    ∃ o, t.engines[i]? = some o ∧ o.SameStatus e

theorem keepsFatal_of_engines {s t : State} (h : t.engines = s.engines) : s.KeepsFatal t :=
  fun _ e he _ _ => ⟨e, h ▸ he, rfl, rfl, rfl, rfl⟩

theorem State.KeepsFatal.trans {s t u : State} (h : s.KeepsFatal t) (g : t.KeepsFatal u) : s.KeepsFatal u := by
  intro i e he hf hb
  obtain ⟨o, ho, obusy, odone, ofatal, ocode⟩ := h i e he hf hb
  obtain ⟨p, hp, pbusy, pdone, pfatal, pcode⟩ := g i o ho (ofatal.trans hf) (obusy.trans hb)
  exact ⟨p, hp, pbusy.trans obusy, pdone.trans odone, pfatal.trans ofatal, pcode.trans ocode⟩

theorem engines_of_around {s t : State} (h : s.SameAround t) : t.engines = s.engines.set s.left.length t.eng := by
  obtain ⟨-, hleft, hright, -⟩ := h
  simp [State.engines, hleft, hright]

/-- Where only the selected engine changes, only its own fatal state matters. -/
theorem keepsFatal_of_around {s t : State} (ha : s.SameAround t)
    (hself : s.eng.fatal = true → s.eng.busy = false → t.eng.SameStatus s.eng) : s.KeepsFatal t := by
  intro i e he hf hb
  rw [engines_of_around ha]
  by_cases hi : i = s.left.length
  · subst hi
    obtain rfl : s.eng = e := Option.some.inj ((engines_self s).symm.trans he)
    exact ⟨t.eng, List.getElem?_set_self (List.getElem?_eq_some_iff.1 he).1, hself hf hb⟩
  · exact ⟨e, (List.getElem?_set_ne (Ne.symm hi)).trans he, rfl, rfl, rfl, rfl⟩

/-! ### The turns of the agents -/

theorem decodeCmd_ne_regRead (v : Word) (size off : Nat) : decodeCmd v ≠ .regRead size off := by
  unfold decodeCmd
  split
  · nofun
  split <;> nofun

/-- A running command changes STATUS of no engine in the fatal state: its own engine is BUSY. -/
theorem keepsFatal_of_running {s t : State} (hb : s.eng.busy = true) (ha : s.SameAround t) : s.KeepsFatal t :=
  keepsFatal_of_around ha fun _ hidle => absurd (hb.symm.trans hidle) (by decide)

theorem phaseStep_around (s : State) : Sat s.SameAround (phaseStep s) := by
  by_cases hp : s.eng.phase = .idle
  · simp only [phaseStep, hp]
    exact exec_around (decodeCmd_ne_regRead _) s
  · exact (phaseStep_sat hp).mono fun t ht =>
      ht.elim (fun ⟨_, _, moved⟩ => moved.around) fun finishes => finishes.around

theorem engineStep_keepsFatal (s : State) : Sat s.KeepsFatal (engineStep s) := by
  cases hb : s.eng.busy with
  | false => rw [engineStep_notBusy hb]; exact sat_next.2 (keepsFatal_of_engines rfl)
  | true => rw [engineStep_busy hb]; exact (phaseStep_around s).mono fun _ => keepsFatal_of_running hb

theorem engineRun_keepsFatal {s : State} (hb : s.eng.busy = true) : Sat s.KeepsFatal (engineRun s) :=
  (exec_around (decodeCmd_ne_regRead _) s).mono fun _ => keepsFatal_of_running hb

theorem selectEngine_keepsFatal (k : Nat) (s : State) : Sat s.KeepsFatal (selectEngine k s) :=
  (selectEngine_sat k s).mono fun _ ⟨hall, _⟩ => keepsFatal_of_engines hall

theorem enginesRun_keepsFatal (s : State) : Sat s.KeepsFatal (enginesRun s) := by
  unfold enginesRun
  split
  next hb => exact engineRun_keepsFatal hb
  split
  next k hk =>
    intro t ht
    obtain ⟨u, hu, hrun⟩ := andThen_eq_next.1 ht
    obtain ⟨v, hv, hback⟩ := andThen_eq_next.1 hrun
    have select : s.KeepsFatal u := selectEngine_keepsFatal k s u hu
    have run : u.KeepsFatal v := engineRun_keepsFatal (selectEngine_firstBusy hk u hu) v hv
    exact (select.trans run).trans (selectEngine_keepsFatal _ v t hback)
  · exact sat_next.2 (keepsFatal_of_engines rfl)

/-- A register write leaves STATUS of a fatal engine: it starts no command there (R220, R248). -/
theorem execRegWrite_keepsFatal (size off : Nat) (v : Word) (s : State) : Sat s.KeepsFatal (execRegWrite size off v s) := by
  refine (execRegWrite_sat size off v s).mono fun t ht => ?_
  rcases ht with rfl | ⟨-, rfl | ⟨hnot, -, rfl⟩⟩
  · exact keepsFatal_of_engines rfl
  · exact keepsFatal_of_around (sameAround_refl s) fun _ _ => writeReg_sameStatus ..
  · exact keepsFatal_of_around (sameAround_refl s) fun hf _ => absurd (hnot.symm.trans hf) (by decide)

theorem hostStep_keepsFatal {ev : HostEvent} (h : ev ≠ .reset) (s : State) : Sat s.KeepsFatal (hostStep ev s) := by
  cases ev with
  | access a =>
    rw [hostStep_access]
    split
    · exact execRegWrite_keepsFatal _ _ _ s
    · exact (execRegRead_sat _ _ s).mono fun t ht => by rw [ht]; exact keepsFatal_of_engines rfl
  | wait =>
    unfold hostStep
    dsimp only
    split
    · exact sat_next.2 (keepsFatal_of_engines rfl)
    · exact (enginesRun_keepsFatal _).mono fun _ ht => (keepsFatal_of_engines rfl).trans ht
  | memWrite a b => exact (hostWrite_sat a b s).mono fun t ⟨_, ht⟩ => by rw [ht]; exact keepsFatal_of_engines rfl
  | memRead a => exact (hostRead_sat a s).mono fun t ht => by rw [ht]; exact keepsFatal_of_engines rfl
  | reset => exact absurd rfl h
  | select k => exact selectEngine_keepsFatal k s
  | engineTurn => exact engineStep_keepsFatal s

theorem step_keepsFatal {s : State} (h : s.script.head? ≠ some .reset) : Sat s.KeepsFatal (step s) := by
  cases hs : s.script with
  | nil => rw [step_noEvent hs]; exact enginesRun_keepsFatal s
  | cons ev rest =>
    rw [step_event hs]
    exact hostStep_keepsFatal (fun hev : ev = .reset => h (by rw [hs, hev]; rfl)) { s with script := rest }

/-! ### The registers in the fatal state, and the reset -/

/-- An operand register reads what was written; an address register keeps the low ADDR_W bits (R221, R222). -/
theorem readReg_writeReg (c : Config) (v : Word) (e : Engine) {off : Nat}
    (h : off = 0x08 ∨ off = 0x0C ∨ off = 0x10 ∨ off = 0x14 ∨ off = 0x18) :
    (Engine.writeReg c off v e).readReg off = if off = 0x08 ∨ off = 0x10 then addrBits c v else v := by
  rcases h with rfl | rfl | rfl | rfl | rfl <;> rfl

/-- After a reset every engine is at its reset values (R270). -/
theorem hostReset_engines (s : State) : Sat (fun t => ∀ e ∈ t.engines, e = Engine.reset) (hostReset s) := by
  refine (hostReset_sat s).mono ?_
  rintro _ ⟨u, -, rfl⟩
  rw [engines_resetEngines, List.forall_mem_map]
  exact fun e _ => e.toReset_eq

theorem statusWord_reset : Engine.reset.statusWord = 0 := readReg_reset 0x04

/-- Settles O47: every other event keeps STATUS of a fatal engine by `step_keepsFatal`, the register window is read by
offset, and a reset puts every engine at its reset values. -/
theorem fatalUntilReset : Obligations.FatalUntilReset := by
  unfold Obligations.FatalUntilReset
  refine ⟨fun s t i e he hf hb hscript ht => ?kept, fun s hf hb => ⟨fun v => ?command, fun v off hoff => ?operand⟩,
    fun s t hscript ht e he => ?reset⟩
  case kept =>
    obtain ⟨o, ho, hstatus⟩ := step_keepsFatal hscript t ht i e he hf hb
    have ⟨_, _, hfatal, _⟩ := hstatus
    exact ⟨o, ho, hstatus.statusWord, hfatal.trans hf⟩
  case command => exact writeCmd_ignored v (.inr hf)
  case operand =>
    obtain ⟨ho, h0⟩ : offsetOk off ∧ off ≠ 0x00 := by
      rcases hoff with rfl | rfl | rfl | rfl | rfl <;> decide
    refine ⟨_, execRegWrite_notBusy v ho h0 hb, (writeReg_sameStatus ..).statusWord, ?_⟩
    refine (execRegRead_ok ho _).trans ?_
    rw [State.modEng_eng, readReg_writeReg s.cfg v s.eng hoff]
    rfl
  case reset =>
    obtain ⟨rest, hs⟩ := List.head?_eq_some_iff.1 hscript
    rw [step_event hs] at ht
    rw [hostReset_engines _ t ht e he]
    exact ⟨statusWord_reset, rfl⟩

end Sys2Proof.Machine
end

section
/-! SUPPORT. Reset and hazards (70_reset_and_hazards.md): the machine with nothing to do (R272), a reset with and without a
command running (R270, R271), the host's writes to its memory (R276, R277), the ranges two commands share (R281). -/

namespace Sys2Proof.Machine

/-- Settles O51: with no event the engines have the turn, and none is busy. -/
theorem idleMachineStays : Obligations.IdleMachineStays := by
  unfold Obligations.IdleMachineStays
  have stays : ∀ s : State, s.script = [] → (∀ e ∈ s.engines, e.busy = false) → step s = .next s :=
    fun s hs hidle => (step_noEvent hs).trans (enginesRun_idle hidle)
  exact ⟨stays, stays State.reset rfl (by decide)⟩

/-! ### Reset -/

theorem abandon_notBusy {e : Engine} (h : e.busy = false) (s : State) : abandon e s = .next s := by
  rw [abandon, if_neg (by simp [h])]

theorem abandonAll_notBusy {es : List Engine} (h : ∀ e ∈ es, e.busy = false) (s : State) :
    abandonAll es s = .next s := by
  induction es with
  | nil => rfl
  | cons e es ih =>
    obtain ⟨he, hes⟩ := List.forall_mem_cons.1 h
    rw [abandonAll, abandon_notBusy he, andThen_next, ih hes]

/-- A reset with no command running (R270). -/
theorem hostReset_notBusy {s : State} (h : ∀ e ∈ s.engines, e.busy = false) : hostReset s = .next s.resetEngines := by
  rw [hostReset, abandonAll_notBusy h, andThen_next]

/-- Settles O48: no command is abandoned, and every engine is at its reset values. -/
theorem resetWhenIdle : Obligations.ResetWhenIdle := by
  unfold Obligations.ResetWhenIdle
  intro s rest hs hidle
  have hreset : hostReset { s with script := rest } = .next (State.resetEngines { s with script := rest }) :=
    hostReset_notBusy hidle
  refine ⟨_, (step_event hs).trans hreset, rfl, rfl, rfl, rfl, (hostReset_sameMachine _ _ hreset).2, fun e he => ?_⟩
  rw [hostReset_engines _ _ hreset e he]
  exact ⟨rfl, rfl, rfl, rfl, rfl, rfl, rfl, rfl, rfl, rfl⟩

/-- The bytes an ended command wrote, by number (R65). -/
theorem lt_written_iff {e : Engine} {j : Nat} : j < e.written ↔ e.code = 0 ∧ j < e.outLen.toNat := by
  unfold Engine.written
  split
  next h => exact ⟨fun hj => ⟨h, hj⟩, And.right⟩
  next h => exact ⟨fun hj => absurd hj (Nat.not_lt_zero j), fun ⟨hcode, _⟩ => absurd hcode h⟩

/-- A reset while the one engine's command runs, which would end in `u` (R271). -/
theorem hostReset_busy {s u : State} (halone : s.engines = [s.eng]) (hb : s.eng.busy = true)
    (hu : exec (decodeCmd s.eng.op) s = .next u) :
    hostReset s = .next (drawBytes s.eng.outAddr u.mem u.eng.written s).resetEngines := by
  have hrun : runCommand { s with eng := s.eng } = .next u := (runCommand_eq s).trans hu
  rw [hostReset, halone, abandonAll, abandon, if_pos hb, hrun]
  rfl

/-- Settles O49: the bytes drawn are those the command had written at its end. -/
theorem resetWhileBusy : Obligations.ResetWhileBusy := by
  unfold Obligations.ResetWhileBusy
  intro s u rest hl hr hwf hs hb hu
  have halone : ({ s with script := rest } : State).engines = [s.eng] := engines_alone hl hr
  obtain ⟨heq, hwf', hbytes⟩ := drawBytes_spec s.eng.outAddr u.mem u.eng.written { s with script := rest } hwf
  have hcfg := congrArg State.cfg heq
  have hscript := congrArg State.script heq
  refine ⟨_, (step_event hs).trans (hostReset_busy halone hb hu), rfl, hcfg, hscript, hwf', fun a => ?_⟩
  refine (hbytes a).imp_right fun ⟨⟨j, hj, ha⟩, hnew⟩ => ?_
  obtain ⟨hcode, hlen⟩ := lt_written_iff.1 hj
  exact ⟨hcode, ⟨j, hlen, ha⟩, hnew⟩

/-! ### The host writes its memory -/

/-- The addresses an ended command wrote (R65). -/
theorem inRange_written_iff {s : State} {e : Engine} {a : Nat} (ha : a < s.cfg.size) :
    inRange s.cfg.size s.eng.outAddr.toNat e.written a = true ↔
      e.code = 0 ∧ ∃ j, j < e.outLen.toNat ∧ a = s.outAt j := by
  refine ⟨inRange_written ha, fun ⟨hcode, j, hj, haj⟩ => ?_⟩
  exact (inRange_iff (size_pos s.cfg) ha).2 ⟨j, lt_written_iff.2 ⟨hcode, hj⟩, haj⟩

/-- No byte is pending at an address the running command, if there is one, is not going to write. -/
theorem pendingByte_free {s : State} {a : Nat} (ha : a < s.cfg.size)
    (h : s.eng.busy = true → ∃ u, exec (decodeCmd s.eng.op) s = .next u ∧
      (u.eng.code = 0 → ∀ j, j < u.eng.outLen.toNat → a ≠ s.outAt j)) : s.pendingByte a [s.eng] = .ok none := by
  cases hb : s.eng.busy with
  | false => exact pendingByte_notBusy hb a
  | true =>
    obtain ⟨u, hu, hout⟩ := h hb
    have hnot : ¬ inRange s.cfg.size s.eng.outAddr.toNat u.eng.written a = true := fun hin => by
      obtain ⟨hcode, j, hj, haj⟩ := inRange_written ha hin
      exact hout hcode j hj haj
    rw [pendingByte_busy hb hu, if_neg hnot]

section
variable {s : State} {a : Nat} (ha : a < 2 ^ s.cfg.addrW) (halone : s.engines = [s.eng])
include ha halone

/-- The input of the one engine is in use while it runs a command (R276). -/
theorem inputInUse_iff : s.inputInUse a = true ↔ s.eng.busy = true ∧ ∃ i, i < s.n ∧ a = s.cfg.addr s.eng.inAddr i := by
  simp only [State.inputInUse, halone, List.any_cons, List.any_nil, Bool.or_false, Bool.and_eq_true,
    inRange_iff (size_pos s.cfg) ha]
  rfl

variable (hd : s.cfg.onDevice a 1 = false) (b : Byte)
include hd

theorem hostWrite_input (hb : s.eng.busy = true) (hin : ∃ i, i < s.n ∧ a = s.cfg.addr s.eng.inAddr i) :
    hostWrite a b s = .fault (.hostContract .inputWritten) := by
  rw [hostWrite, hostAddress_ok ha hd, if_pos ((inputInUse_iff ha halone).2 ⟨hb, hin⟩)]

/-- A byte the command is going to write (R277). -/
theorem hostWrite_output {u : State} (hb : s.eng.busy = true) (hin : ∀ i, i < s.n → a ≠ s.cfg.addr s.eng.inAddr i)
    (hu : exec (decodeCmd s.eng.op) s = .next u) (hcode : u.eng.code = 0)
    (hout : ∃ j, j < u.eng.outLen.toNat ∧ a = s.outAt j) :
    hostWrite a b s = .fault (.hostContract .outputWritten) := by
  have hfree : ¬ s.inputInUse a = true := fun h => by
    obtain ⟨-, i, hi, hai⟩ := (inputInUse_iff ha halone).1 h
    exact hin i hi hai
  rw [hostWrite, hostAddress_ok ha hd, if_neg hfree, halone, pendingByte_busy hb hu,
    if_pos ((inRange_written_iff ha).2 ⟨hcode, hout⟩)]

/-- A byte no running command uses. -/
theorem hostWrite_free (hin : s.eng.busy = true → ∀ i, i < s.n → a ≠ s.cfg.addr s.eng.inAddr i)
    (hpending : s.pendingByte a [s.eng] = .ok none) : hostWrite a b s = .next { s with mem := s.mem.write a b } := by
  have hfree : ¬ s.inputInUse a = true := fun h => by
    obtain ⟨hb, i, hi, hai⟩ := (inputInUse_iff ha halone).1 h
    exact hin hb i hi hai
  rw [hostWrite, hostAddress_ok ha hd, if_neg hfree, halone, hpending]

end

/-- Settles O53: the input in use is faulted first, then the pending bytes, and what is left is one write. -/
theorem hostMemoryWrite : Obligations.HostMemoryWrite := by
  unfold Obligations.HostMemoryWrite
  intro s a b rest hl hr hwf hs ha hd
  have halone : ({ s with script := rest } : State).engines = [s.eng] := engines_alone hl hr
  rw [step_event hs]
  refine ⟨fun hb hin => ?input, fun hb hin u hu hcode hout => ?output, fun hfree => ?free⟩
  case input => exact hostWrite_input (s := { s with script := rest }) ha halone hd b hb hin
  case output => exact hostWrite_output (s := { s with script := rest }) ha halone hd b hb hin hu hcode hout
  case free =>
    have running (hb : s.eng.busy = true) := hfree.resolve_left fun hnot => absurd (hnot.symm.trans hb) (by decide)
    have hpending : State.pendingByte { s with script := rest } a [s.eng] = .ok none :=
      pendingByte_free (s := { s with script := rest }) ha fun hb => (running hb).2
    exact ⟨_, hostWrite_free (s := { s with script := rest }) ha halone hd b (fun hb => (running hb).1) hpending, rfl, rfl,
      hwf.write a b, Memory.read_write_self hwf a b, fun _ hk => Memory.read_write_ne hwf b hk⟩

/-! ### Ranges shared by two commands -/

/-- Settles O54: the acceptance of either command ends with R281's check, which the other engine's command fails. -/
theorem sharedRangeFaults : Obligations.SharedRangeFaults := by
  unfold Obligations.SharedRangeFaults
  refine fun s o ho hb hidle hfatal hd => ⟨fun hconflict => ?_, fun hconflict => ?_⟩
  · exact (writeCmd_decrypt hidle hfatal hd).trans
      (checkShared_broken (s := { s with eng := s.eng.decryptStarted }) rfl ho hb hconflict)
  · exact (writeCmd_copy hidle hfatal hd).trans
      (checkShared_broken (s := { s with eng := s.eng.copyStarted }) rfl ho hb hconflict)

end Sys2Proof.Machine
end

section
/-! SUPPORT. A running command ends when the engines have the turn (R219, R224, R285; log 1, log 12): its engine steps come
to an end, with DONE, or its contract is broken for no more bytes than its input has. -/

namespace Sys2Proof.Machine

/-! ### The end of a command's engine steps -/

/-- The selected engine's command has ended, and DONE says so (R26, R244). -/
abbrev State.Done (s : State) : Prop := s.eng.busy = false ∧ s.eng.done = true ∧ s.eng.phase = .idle

theorem Engine.Ends.toDone {e : Engine} {t : State} (h : e.Ends t.eng) : t.Done := ⟨h.busy, h.done, h.phase⟩

/-- After an engine step the command still runs, or DONE is set. -/
theorem engineStep_runsOrDone {s : State} (h : s.Runs) : Sat (fun t => t.Runs ∨ t.Done) (engineStep s) := by
  obtain ⟨hb, hown⟩ := h
  rw [engineStep_busy hb]
  refine (phaseStep_sat hown.1).mono fun t ht => ?_
  rcases ht with ⟨ph, hph, moved⟩ | finishes
  · refine moved.goes.imp (fun ⟨⟨_, _, hbusy, _⟩, hop, hphase⟩ => ⟨hbusy.trans hb, ?_⟩) Engine.Ends.toDone
    rw [hop, hphase]
    exact hph hown
  · exact .inr finishes.ends.toDone

theorem engineSteps_notBusy {s : State} (h : s.eng.busy = false) (n : Nat) : engineSteps n s = .next s := by
  induction n with
  | zero => rfl
  | succ n ih => rw [engineSteps, engineStep_notBusy h, andThen_next, ih]

/-- As many engine steps as are left end the command. -/
theorem engineSteps_done (n : Nat) : ∀ {s : State}, s.Runs → s.eng.stepsLeft ≤ n → Sat State.Done (engineSteps n s) := by
  induction n with
  | zero => exact fun h hn => absurd (stepsLeft_pos h.2.1) (Nat.not_lt.2 hn)
  | succ n ih =>
    intro s h hn u hu
    obtain ⟨t, ht, hrest⟩ := andThen_eq_next.1 hu
    obtain ⟨-, -, hless⟩ := engineStep_progress h t ht
    rcases engineStep_runsOrDone h t ht with hruns | hdone
    · exact ih hruns (by omega) u hrest
    · rw [engineSteps_notBusy hdone.1] at hrest
      cases hrest
      exact hdone

/-- The meaning of a running command is its phases, from the one it is in. -/
theorem exec_eq_runPhases {s : State} (h : OwnPhase s.eng.op s.eng.phase) :
    exec (decodeCmd s.eng.op) s = runPhases (phasesOf s.eng.op) s := by
  obtain ⟨hidle, ⟨hop, -⟩ | ⟨hop, -⟩⟩ := h
  · rw [hop]
    exact execDecrypt_eq_runPhases hidle
  · rw [hop]
    exact execDirectCopy_eq_runPhases hidle

theorem runningCommand_done {s : State} (h : s.Runs) : Sat State.Done (exec (decodeCmd s.eng.op) s) := by
  rw [exec_eq_runPhases h.2, ← engineSteps_eq_runPhases s.eng.stepsLeft s (.inl h) (Nat.le_refl _)]
  exact engineSteps_done _ h (Nat.le_refl _)

/-! ### The outcome of a running command -/

/-- A running command writes no more bytes than its input has (R212, R217). -/
theorem bytesToWrite_le {s : State} (h : OwnPhase s.eng.op s.eng.phase) : bytesToWrite s ≤ s.n := by
  obtain ⟨hidle, ⟨hop, hcopy⟩ | ⟨hop, -⟩⟩ := h
  · obtain ⟨t, ht, hreach⟩ := decryptToSetup_reaches hidle hcopy
    obtain ⟨-, hlen, -⟩ := hreach.still.operands
    have hn : t.plen ≤ s.n := by
      rw [State.plen, State.n, hlen]
      exact Nat.sub_le ..
    rw [bytesToWrite_decrypt hop ht, State.streamLength]
    split
    · exact hn
    · exact Nat.zero_le _
  · rw [bytesToWrite_copy hop]
    split
    · exact Nat.le_refl _
    · exact Nat.zero_le _

/-- `o` is the fault of the contract of `s`'s command, for at most the bytes of its input (R223, R258). -/
def State.Breaks (s : State) (o : Result) : Prop :=
  ∃ len v, len ≤ s.n ∧ contractBroken len s = some v ∧ o = .fault (.hostContract v)

/-- A running command breaks its contract, or it ends with all around it as it was. -/
theorem runningCommand_breaksOrDone {s : State} (h : s.Runs) :
    s.Breaks (exec (decodeCmd s.eng.op) s) ∨
      Yields (fun t => s.SameAround t ∧ t.Done) (exec (decodeCmd s.eng.op) s) := by
  have hdone := runningCommand_done h
  have haround := exec_around (decodeCmd_ne_regRead s.eng.op) s
  have hend := runningCommand_end h.2
  have hle := bytesToWrite_le h.2
  generalize bytesToWrite s = len at hend hle
  generalize exec (decodeCmd s.eng.op) s = o at hdone haround hend
  cases hend with
  | success => exact .inr (.next ⟨sat_next.1 haround, sat_next.1 hdone⟩)
  | failure => exact .inr (.next ⟨sat_next.1 haround, sat_next.1 hdone⟩)
  | broken hbroken => exact .inl ⟨len, _, hle, hbroken, rfl⟩

/-! ### The engines' turn -/

/-- From `s` to `t` the command of engine `k` has ended; the other engines, the choice of one and the host's queue are as
they were. -/
def State.EndsAt (k : Nat) (s t : State) : Prop :=
  ∃ o : Engine, o.busy = false ∧ o.done = true ∧ o.phase = .idle ∧ t.engines = s.engines.set k o ∧
    t.left.length = s.left.length ∧ t.script = s.script

/-- The selected engine's own turn. -/
theorem enginesRun_self_outcome {s : State} (h : s.Runs) :
    s.Breaks (enginesRun s) ∨ Yields (s.EndsAt s.left.length) (enginesRun s) := by
  rw [enginesRun_self h.1]
  refine (runningCommand_breaksOrDone h).imp_right ?_
  rintro ⟨t, ht, haround, hbusy, hdone, hphase⟩
  have ⟨_, hleft, _, hscript, _⟩ := haround
  exact ⟨t, ht, t.eng, hbusy, hdone, hphase, engines_of_around haround, by rw [hleft], hscript⟩

/-- The turn of the first busy engine of the others. -/
theorem enginesRun_other_outcome {s : State} {k : Nat} {e : Engine} (hs : s.eng.busy = false)
    (hk : s.engines[k]? = some e) (hrun : ({ s with eng := e } : State).Runs)
    (hfirst : ∀ o ∈ s.engines.take k, o.busy = false) :
    State.Breaks { s with eng := e } (enginesRun s) ∨ Yields (s.EndsAt k) (enginesRun s) := by
  rw [enginesRun_other hs hk hrun.1 hfirst]
  have hall := engines_select hk
  rcases runningCommand_breaksOrDone
      (s := { s with left := s.engines.take k, eng := e, right := s.engines.drop (k + 1) }) hrun with
    ⟨len, v, hle, hbroken, hfault⟩ | ⟨u, hu, haround, hbusy, hdone, hphase⟩
  · refine .inl ⟨len, v, hle, (contractBroken_congr rfl rfl rfl rfl).trans hbroken, ?_⟩
    rw [hfault, andThen_fault]
  · have hlength : u.engines.length = s.engines.length := (sameMachine_of_around haround).2.trans (by rw [hall])
    have hself : s.left.length < u.engines.length := by
      rw [hlength, length_engines]
      omega
    have hback := selectEngine_eq (List.getElem?_eq_getElem hself)
    obtain ⟨-, hleft, hright, hscript, -⟩ := haround
    obtain ⟨hengines, hselected, -⟩ := enginesRun_other_next hk ⟨hleft, hright⟩ hback
    rw [hu, andThen_next, hback]
    exact .inr (.next ⟨u.eng, hbusy, hdone, hphase, hengines, hselected, hscript⟩)

/-- With no event, and with a WAIT that has nothing to report, the engines have the turn; `rdata` alone may have changed
before it (R110). -/
theorem step_enginesTurn {s : State}
    (h : s.script = [] ∨ s.script.head? = some .wait ∧ s.eng.done = false ∧ s.eng.fatal = false) :
    ∃ w, step s = enginesRun { s with rdata := w } := by
  rcases h with hs | ⟨hs, hdone, hfatal⟩
  · exact ⟨s.rdata, step_noEvent hs⟩
  · obtain ⟨rest, hwait⟩ := List.head?_eq_some_iff.1 hs
    exact ⟨s.eng.statusWord, by rw [step_wait hwait, if_neg (by simp [hdone, hfatal])]⟩

/-- Settles O45: the engines have the turn, and the command of the one whose turn it is ends or breaks its contract. -/
theorem runningCommandEnds : Obligations.RunningCommandEnds := by
  unfold Obligations.RunningCommandEnds
  intro s hinv hscript k e hk hb hturn
  obtain ⟨w, hstep⟩ := step_enginesTurn hscript
  obtain ⟨-, -, hall⟩ := State.inv_iff.1 hinv
  obtain ⟨hown, -⟩ := (hall e (List.mem_of_getElem? hk)).running hb
  have hrun : ({ s with rdata := w, eng := e } : State).Runs := ⟨hb, hown⟩
  have outcome : State.Breaks { s with rdata := w, eng := e } (step s) ∨
      Yields (State.EndsAt k { s with rdata := w }) (step s) := by
    rw [hstep]
    rcases hturn with rfl | ⟨hidle, hfirst⟩
    · obtain rfl : s.eng = e := Option.some.inj ((engines_self s).symm.trans hk)
      exact enginesRun_self_outcome hrun
    · exact enginesRun_other_outcome (s := { s with rdata := w }) hidle hk hrun hfirst
  rcases outcome with ⟨len, v, hle, hbroken, hfault⟩ | ⟨t, ht, o, ended⟩
  · exact .inl ⟨len, v, hle, (contractBroken_congr rfl rfl rfl rfl).trans hbroken, hfault⟩
  · exact .inr ⟨t, o, ht, ended⟩

end Sys2Proof.Machine
end
